-- ==== Sys2Proof/Word.lean ====
section
/-! DEFINITION. The machine word (00_scope.md R1, R2) and its signed reading (R3). -/

namespace Sys2Proof

/-- A word: 32 bits, the width of every register and of every memory location (R1). -/
abbrev Word := BitVec 32

/-- A character code or a byte of a host file (R53, R54). -/
abbrev Byte := BitVec 8

/-- `signed(w)`: the two's-complement value of a word (R3). -/
def signed (w : Word) : Int := w.toInt

end Sys2Proof
end

