-- ==== Sys2Proof/Syntax.lean ====
section
/-! DEFINITION. The abstract instructions (30_encoding.md R71, R72, R80): one constructor for each row of
spec/opcode_table.json, the operand forms, and the names that stand for numbers (R76). -/

namespace Sys2Proof

/-- The sixteen regular registers by name (10_state.md R11). -/
inductive Reg where
  | r (i : Fin 13)
  | sp
  | fp
  | pc
deriving DecidableEq, Repr, Inhabited

/-- The four operand forms of R72, and no others. In each of them register number 0 is R0, an ordinary
register: DESIGN CHOICE, 91_not_in_source.md N6 leaves open whether it means "no index register" (log
42). -/
inductive Operand where
  /-- A number, a character constant, a name or a label: its own value. -/
  | imm (n : Word)
  /-- A register: its content. -/
  | reg (r : Reg)
  /-- `[r + n]`: the word of memory at that address. -/
  | mem (r : Reg) (n : Word)
  /-- `[n]`: the word of memory at a constant address. -/
  | memAt (n : Word)
deriving DecidableEq, Repr, Inhabited

/-- The condition of JCOND (R75). `ERR` is the only one the source names; `other` stands for the
codes of the conditions whose names are lost (91_not_in_source.md N11). -/
inductive Cond where
  | err
  | other (code : BitVec 4)
deriving DecidableEq, Repr, Inhabited

/-- The instructions of R80, in the order of spec/opcode_table.json. The main register stands first.
The shapes of COMP, COMPZ, PHLOAD, PHSTORE and of the four bit-range instructions are not shown by the
source; they are `reg, operand` here (log 4, log 15, log 16). That SYSCALL names no main register is a
DESIGN CHOICE: 91_not_in_source.md N14 leaves it open (log 43). -/
inductive Instr where
  | getsr (reg : Reg) (op : Operand)
  | setsr (reg : Reg) (op : Operand)
  | getfl (reg : Reg) (op : Operand)
  | setfl (reg : Reg) (op : Operand)
  | flagsj (reg : Reg) (op : Operand)
  | sbit (reg : Reg) (op : Operand)
  | cbit (reg : Reg) (op : Operand)
  | exbr (reg : Reg) (op : Operand)
  | dpbr (reg : Reg) (op : Operand)
  | exbrv (reg : Reg) (op : Operand)
  | dpbrv (reg : Reg) (op : Operand)
  | load (reg : Reg) (op : Operand)
  | store (reg : Reg) (op : Operand)
  | inc (op : Operand)
  | push (op : Operand)
  | call (op : Operand)
  | ret
  | comp (reg : Reg) (op : Operand)
  | compz (reg : Reg) (op : Operand)
  | jcond (cond : Cond) (op : Operand)
  | halt
  | syscall (op : Operand)
  | iret
  | phload (reg : Reg) (op : Operand)
  | phstore (reg : Reg) (op : Operand)
  | peri (reg : Reg) (op : Operand)
deriving DecidableEq, Repr, Inhabited

/-- The nine special registers (10_state.md R16, R17). -/
inductive SpecialReg where
  | flags | pdbr | intvec | cgbr | cglen | debug | timer | syssp | sysfp
deriving DecidableEq, Repr, Inhabited

/-- The seven flags (10_state.md R25). -/
inductive FlagName where
  | r | z | n | err | sys | ip | vm
deriving DecidableEq, Repr, Inhabited

/-- The fourteen interrupt codes (60_exceptions.md R200); `none` is "not a real interrupt code". -/
inductive IntCode where
  | none | memory | pageFault | unimpOp | halt | divZero | unwrOp | timer | privOp | keybd
  | badCall | pagePriv | debug | intrFault
deriving DecidableEq, Repr, Inhabited

/-- The sixteen operations of PERI (44_peri_disc_tape.md R142). -/
inductive PeriOp where
  | discCheck | discRead | discWrite
  | tapeCheck | tapeRewind | tapeLoad | tapeUnload | tapeRead | tapeWrite
  | termInC | termOutC | termInW | termOutW
  | seconds | useconds | dateTime
deriving DecidableEq, Repr, Inhabited

end Sys2Proof
end

