-- ==== Sys2Proof/Config.lean ====
section
/-! DEFINITION. What the spec leaves to the implementation: the launch parameters (00_scope.md, table of
open parameters), their values at reset, and the free values. A free value is an opaque constant
without a body: nothing can be proved of it. -/

namespace Sys2Proof

/-- Where a bit-range instruction finds a register it does not name in the source
(41_bit_instructions.md R105 to R108; log 15): its main register, the register after that one, or a
fixed one. -/
inductive RegRole where
  | main
  | next
  | fixed (r : Reg)
deriving DecidableEq, Repr, Inhabited

/-- The open roles of an extract instruction: the register that holds the descriptor, the one that
receives the field, and whether the field is delivered sign-extended (91_not_in_source.md N12). EXBR and
EXBRV have an assignment each. -/
structure ExtractRoles where
  descriptor : RegRole
  result : RegRole
  signExtended : Bool
deriving DecidableEq, Repr, Inhabited

/-- The open roles of a deposit instruction: the register that holds the descriptor and the one that
holds the value to deposit (N12). DPBR and DPBRV have an assignment each. -/
structure DepositRoles where
  descriptor : RegRole
  value : RegRole
deriving DecidableEq, Repr, Inhabited

/-- What COMPZ tests (42_data_and_control_instructions.md R117, N13). -/
inductive CompzRole where
  | mainRegister
  | operand
deriving DecidableEq, Repr, Inhabited

/-- One word of `SYSCALL_TRAILER` (43_system_instructions.md R131): a constant, the gate index, or a
word the source leaves unspecified. -/
inductive TrailerWord where
  | const (w : Word)
  | index
  | unspecified
deriving DecidableEq, Repr, Inhabited

/-- The launch parameters. They are part of the state, constant during a run, so that a statement
about every state holds for every value of them. -/
structure Params where
  /-- `PHYS_WORDS`: how many words of physical memory exist (20_memory.md R42). -/
  physWords : Nat
  /-- `PERI_CODE`, in the order of `PeriOp` (44_peri_disc_tape.md R142). -/
  periCode : Vector Word 16
  /-- The roles of EXBR (41_bit_instructions.md R105). -/
  exbrRoles : ExtractRoles
  /-- The roles of DPBR (R106). -/
  dpbrRoles : DepositRoles
  /-- The roles of EXBRV (R107). -/
  exbrvRoles : ExtractRoles
  /-- The roles of DPBRV (R108). -/
  dpbrvRoles : DepositRoles
  /-- What COMPZ tests (42_data_and_control_instructions.md R117). -/
  compzTests : CompzRole
  /-- `SYSCALL_TRAILER` (43_system_instructions.md R131). -/
  syscallTrailer : List TrailerWord
  /-- The switch of R131 corner case (b). -/
  syscallSetsIP : Bool
  /-- The switch of R116: N from the wrapped difference instead of the signed comparison. -/
  compWraps : Bool
deriving DecidableEq, Repr, Inhabited

/-- A `draw`: the free word number `k` (log 9). -/
opaque Config.freeWord : Nat → Word

/-- The free yes/no answer number `k` of the host (log 31). -/
opaque Config.freeBool : Nat → Bool

/-- The unknown bytes of a host file, number `k` (log 35). -/
opaque Config.freeBytes : Nat → List Byte

/-- The word at position `128 * block + j` of drive `d` while nothing has written it: unspecified and
stable (10_state.md R33, D26; log 34). -/
opaque Config.freshDiscWord : Nat → Nat → Word

/-- The numbering behind `PERI_CODE`: any injective map (44_peri_disc_tape.md R142; log 14). -/
opaque Config.periNumbering : Word ≃ Word

opaque Config.exbrRoles : ExtractRoles
opaque Config.dpbrRoles : DepositRoles
opaque Config.exbrvRoles : ExtractRoles
opaque Config.dpbrvRoles : DepositRoles
opaque Config.compzTests : CompzRole
opaque Config.syscallTrailer : List TrailerWord

/-- The launch parameters of `State.reset`. PHYS_WORDS is 0x20000, the value of the spec's own vectors
(95_test_vectors.md V-VM): DESIGN CHOICE, unsafe, log 5. The two switches stand where the rules put
them (R131 literal reading, R116 D33). Every other parameter is OPEN and stays free. -/
def Config.launch : Params where
  physWords := 0x20000
  periCode := Vector.ofFn fun i => Config.periNumbering (BitVec.ofNat 32 i.val)
  exbrRoles := Config.exbrRoles
  dpbrRoles := Config.dpbrRoles
  exbrvRoles := Config.exbrvRoles
  dpbrvRoles := Config.dpbrvRoles
  compzTests := Config.compzTests
  syscallTrailer := Config.syscallTrailer
  syscallSetsIP := true
  compWraps := false

/-- `ENTRY`: PC at start-up (10_state.md R38, 70_reset_and_hazards.md R241). DESIGN CHOICE, unsafe: 100,
where the spec's own programs P1 to P4 start (log 6). -/
def Config.entry : Word := 100

end Sys2Proof
end

