-- ==== Sys2Proof/WellFormed.lean ====
section
/-! DEFINITION. Which instructions the instruction word can hold: the constants of the set `IMM`
(30_encoding.md R72, D38; log 2), the condition codes (log 3), and the launch parameters' own condition
(44_peri_disc_tape.md R142). -/

namespace Sys2Proof

/-- `IMM`: the numeric field is 16 bits, read as a signed number (DESIGN CHOICE, log 2). -/
def fitsNumeric (n : Word) : Bool := (n.setWidth 16).signExtend 32 == n

/-- The condition code that stands for `ERR` (DESIGN CHOICE, log 3). -/
def Cond.errCode : BitVec 4 := 3

def Operand.wellFormed : Operand → Bool
  | .imm n => fitsNumeric n
  | .reg _ => true
  | .mem _ n => fitsNumeric n
  | .memAt n => fitsNumeric n

def Cond.wellFormed : Cond → Bool
  | .err => true
  | .other code => code != Cond.errCode

def Instr.wellFormed : Instr → Bool
  | .getsr _ op => op.wellFormed
  | .setsr _ op => op.wellFormed
  | .getfl _ op => op.wellFormed
  | .setfl _ op => op.wellFormed
  | .flagsj _ op => op.wellFormed
  | .sbit _ op => op.wellFormed
  | .cbit _ op => op.wellFormed
  | .exbr _ op => op.wellFormed
  | .dpbr _ op => op.wellFormed
  | .exbrv _ op => op.wellFormed
  | .dpbrv _ op => op.wellFormed
  | .load _ op => op.wellFormed
  | .store _ op => op.wellFormed
  | .inc op => op.wellFormed
  | .push op => op.wellFormed
  | .call op => op.wellFormed
  | .ret => true
  | .comp _ op => op.wellFormed
  | .compz _ op => op.wellFormed
  | .jcond c op => c.wellFormed && op.wellFormed
  | .halt => true
  | .syscall op => op.wellFormed
  | .iret => true
  | .phload _ op => op.wellFormed
  | .phstore _ op => op.wellFormed
  | .peri _ op => op.wellFormed

/-- The sixteen operation codes are distinct words (R142) and memory fits the 32-bit physical address
space (R42). -/
def Params.wellFormed (p : Params) : Bool :=
  decide p.periCode.toList.Nodup && decide (p.physWords ≤ 2 ^ 32)

end Sys2Proof
end

