-- ==== Sys2Proof/Decode.lean ====
section
/-! DEFINITION. The binary form of the instructions. NO SOURCE GIVES ONE (30_encoding.md R78, D1): the layout
and the operation codes below are the model's (DESIGN CHOICE, unsafe, log 1), and the machine's step
takes the decoder as an argument (Machine/Cycle.lean, `stepWith`), as R78 asks.

    31..26  operation code: 1 to 26, the row's place in spec/opcode_table.json
    25      the operand is a memory reference (brackets)
    24      the operand names a register
    23..20  main register, or the condition of JCOND
    19..16  the operand's register
    15..0   the operand's number, signed

Fields that an instruction does not use are zero; another value there is no instruction (R79). -/

namespace Sys2Proof

/-- Why a word is no instruction. Each reason is UNIMPOP to the machine (R79). -/
inductive DecodeError where
  /-- The operation code stands for no instruction. -/
  | unassignedOpcode (code : BitVec 6)
  /-- A field that the instruction does not use is not zero. -/
  | unusedFieldNotZero (w : Word)
deriving DecidableEq, Repr, Inhabited

/-- How an instruction word is read once its operation code is known (R71). -/
inductive Shape where
  | regOperand (make : Reg → Operand → Instr)
  | operandOnly (make : Operand → Instr)
  | condOperand (make : Cond → Operand → Instr)
  | bare (i : Instr)

/-- Register numbers (10_state.md R11). -/
def Reg.ofNumber (n : BitVec 4) : Reg :=
  if h : n.toNat < 13 then .r ⟨n.toNat, h⟩
  else if n = 13 then .sp
  else if n = 14 then .fp
  else .pc

def Reg.number : Reg → BitVec 4
  | .r i => BitVec.ofNat 4 i.val
  | .sp => 13
  | .fp => 14
  | .pc => 15

def Cond.ofCode (c : BitVec 4) : Cond :=
  if c = Cond.errCode then .err else .other c

def Cond.code : Cond → BitVec 4
  | .err => Cond.errCode
  | .other c => c

def opcodeField (w : Word) : BitVec 6 := w.extractLsb' 26 6
def formField (w : Word) : BitVec 2 := w.extractLsb' 24 2
def mainField (w : Word) : BitVec 4 := w.extractLsb' 20 4
def indexField (w : Word) : BitVec 4 := w.extractLsb' 16 4
def numberField (w : Word) : BitVec 16 := w.extractLsb' 0 16

/-- The operand of an instruction word. The index field 0 of a bracketed register is R0 like any other
number: DESIGN CHOICE, N6 leaves it open (log 42). -/
def decodeOperand (w : Word) : Except DecodeError Operand :=
  let n := (numberField w).signExtend 32
  let r := Reg.ofNumber (indexField w)
  if formField w = 0 then
    if indexField w = 0 then .ok (.imm n) else .error (.unusedFieldNotZero w)
  else if formField w = 1 then
    if numberField w = 0 then .ok (.reg r) else .error (.unusedFieldNotZero w)
  else if formField w = 2 then
    if indexField w = 0 then .ok (.memAt n) else .error (.unusedFieldNotZero w)
  else .ok (.mem r n)

/-- The operation codes: the rows of spec/opcode_table.json numbered from 1. SYSCALL has no main
register, so that a word with one is no instruction: DESIGN CHOICE, N14 leaves it open (log 43). -/
def shapeOf (opcode : Nat) : Option Shape :=
  match opcode with
  | 1 => some (.regOperand .getsr)
  | 2 => some (.regOperand .setsr)
  | 3 => some (.regOperand .getfl)
  | 4 => some (.regOperand .setfl)
  | 5 => some (.regOperand .flagsj)
  | 6 => some (.regOperand .sbit)
  | 7 => some (.regOperand .cbit)
  | 8 => some (.regOperand .exbr)
  | 9 => some (.regOperand .dpbr)
  | 10 => some (.regOperand .exbrv)
  | 11 => some (.regOperand .dpbrv)
  | 12 => some (.regOperand .load)
  | 13 => some (.regOperand .store)
  | 14 => some (.operandOnly .inc)
  | 15 => some (.operandOnly .push)
  | 16 => some (.operandOnly .call)
  | 17 => some (.bare .ret)
  | 18 => some (.regOperand .comp)
  | 19 => some (.regOperand .compz)
  | 20 => some (.condOperand .jcond)
  | 21 => some (.bare .halt)
  | 22 => some (.operandOnly .syscall)
  | 23 => some (.bare .iret)
  | 24 => some (.regOperand .phload)
  | 25 => some (.regOperand .phstore)
  | 26 => some (.regOperand .peri)
  | _ => none

/-- The decoder: total on words, rejecting by name. -/
def decodeWord (w : Word) : Except DecodeError Instr :=
  match shapeOf (opcodeField w).toNat with
  | none => .error (.unassignedOpcode (opcodeField w))
  | some (.regOperand make) => (decodeOperand w).map (make (Reg.ofNumber (mainField w)))
  | some (.condOperand make) => (decodeOperand w).map (make (Cond.ofCode (mainField w)))
  | some (.operandOnly make) =>
    if mainField w = 0 then (decodeOperand w).map make else .error (.unusedFieldNotZero w)
  | some (.bare i) =>
    if w.extractLsb' 0 26 = 0 then .ok i else .error (.unusedFieldNotZero w)

/-- `decode : Word → Instr + Invalid` (R78). -/
def decode (w : Word) : Option Instr :=
  match decodeWord w with
  | .ok i => some i
  | .error _ => none

/-- What the decoder reads from a table row's word: one 32-bit word, bit 0 least significant. -/
def decodeTableWord (nbits w : Nat) : Option Instr :=
  decode (BitVec.ofNat 32 (w % 2 ^ nbits))

/-- A word from its fields. -/
def assemble (opcode : BitVec 6) (form : BitVec 2) (main index : BitVec 4) (number : BitVec 16) :
    Word :=
  opcode ++ form ++ main ++ index ++ number

/-- The word of an instruction with an operand. -/
def assembleOperand (opcode : BitVec 6) (main : BitVec 4) : Operand → Word
  | .imm n => assemble opcode 0 main 0 (n.setWidth 16)
  | .reg r => assemble opcode 1 main r.number 0
  | .memAt n => assemble opcode 2 main 0 (n.setWidth 16)
  | .mem r n => assemble opcode 3 main r.number (n.setWidth 16)

/-- The operation code of an instruction. -/
def Instr.opcode : Instr → BitVec 6
  | .getsr _ _ => 1
  | .setsr _ _ => 2
  | .getfl _ _ => 3
  | .setfl _ _ => 4
  | .flagsj _ _ => 5
  | .sbit _ _ => 6
  | .cbit _ _ => 7
  | .exbr _ _ => 8
  | .dpbr _ _ => 9
  | .exbrv _ _ => 10
  | .dpbrv _ _ => 11
  | .load _ _ => 12
  | .store _ _ => 13
  | .inc _ => 14
  | .push _ => 15
  | .call _ => 16
  | .ret => 17
  | .comp _ _ => 18
  | .compz _ _ => 19
  | .jcond _ _ => 20
  | .halt => 21
  | .syscall _ => 22
  | .iret => 23
  | .phload _ _ => 24
  | .phstore _ _ => 25
  | .peri _ _ => 26

/-- The encoder: the word of an instruction. -/
def encode (i : Instr) : Word :=
  match i with
  | .getsr r op => assembleOperand i.opcode r.number op
  | .setsr r op => assembleOperand i.opcode r.number op
  | .getfl r op => assembleOperand i.opcode r.number op
  | .setfl r op => assembleOperand i.opcode r.number op
  | .flagsj r op => assembleOperand i.opcode r.number op
  | .sbit r op => assembleOperand i.opcode r.number op
  | .cbit r op => assembleOperand i.opcode r.number op
  | .exbr r op => assembleOperand i.opcode r.number op
  | .dpbr r op => assembleOperand i.opcode r.number op
  | .exbrv r op => assembleOperand i.opcode r.number op
  | .dpbrv r op => assembleOperand i.opcode r.number op
  | .load r op => assembleOperand i.opcode r.number op
  | .store r op => assembleOperand i.opcode r.number op
  | .inc op => assembleOperand i.opcode 0 op
  | .push op => assembleOperand i.opcode 0 op
  | .call op => assembleOperand i.opcode 0 op
  | .ret => assemble i.opcode 0 0 0 0
  | .comp r op => assembleOperand i.opcode r.number op
  | .compz r op => assembleOperand i.opcode r.number op
  | .jcond c op => assembleOperand i.opcode c.code op
  | .halt => assemble i.opcode 0 0 0 0
  | .syscall op => assembleOperand i.opcode 0 op
  | .iret => assemble i.opcode 0 0 0 0
  | .phload r op => assembleOperand i.opcode r.number op
  | .phstore r op => assembleOperand i.opcode r.number op
  | .peri r op => assembleOperand i.opcode r.number op

end Sys2Proof
end

