-- ==== Sys2Proof/Machine/State.lean ====
section
/-! DEFINITION. The state of the machine as plain data (10_state.md), why it can stop, and the state at
start-up (R38, R240). -/

namespace Sys2Proof.Machine

/-- The seven flags (10_state.md R25). Bits 31..7 of the flags word are not state (D7). -/
structure Flags where
  /-- R: the CPU is running, not halted. -/
  r : Bool
  /-- Z: zero (or equal) result. -/
  z : Bool
  /-- N: negative result. -/
  n : Bool
  /-- ERR: the last PERI failed. -/
  err : Bool
  /-- SYS: system mode. -/
  sys : Bool
  /-- IP: interrupt in progress. -/
  ip : Bool
  /-- VM: addresses are translated. -/
  vm : Bool
deriving DecidableEq, Repr, Inhabited

/-- What a listed word of memory holds. A word the spec leaves open is held by the NUMBER of its free
value, not by the value (log 9), so that a memory that holds one is still data one can compute with. -/
inductive Content where
  /-- A word. -/
  | word (w : Word)
  /-- The free word number `k`. -/
  | free (k : Nat)
  /-- The low `bits` bits of `low`, and free bits above them (93_implementation_defined.md U9). -/
  | freeAbove (k : Nat) (low : Word) (bits : Nat)
  /-- The word at a position of a drive that nothing has written (D26). -/
  | freshDisc (drive : Nat) (k : Nat)
deriving DecidableEq, Repr, Inhabited

/-- Values by key, in ONE canonical form: keys strictly rising. -/
abbrev Sparse (α : Type) := List (Nat × α)

/-- Physical memory: (word address, content) pairs, addresses strictly rising, no entry equal to what an
unlisted address reads as. A cell is a word, the machine's smallest unit (20_memory.md R40; log 8). -/
abbrev Memory := Sparse Content

/-- A configured disc drive (10_state.md R33): its size in blocks and the words written to it so far,
keyed by `128 * block + word`. -/
structure Disc where
  size : Nat
  written : Sparse Content
deriving DecidableEq, Repr, Inhabited

/-- Tape modes (44_peri_disc_tape.md R148): for reading only or for writing only. -/
inductive TapeMode where
  | read
  | write
deriving DecidableEq, Repr, Inhabited

/-- A loaded tape unit (10_state.md R34): the host file's name, the mode, the position in bytes. -/
structure Tape where
  file : List Byte
  mode : TapeMode
  position : Nat
deriving DecidableEq, Repr, Inhabited

/-- A host file that a tape has reached: its name, the bytes known from its beginning on, and whether
unknown bytes (number `k` of `Config.freeBytes`) follow them (log 35). -/
structure HostFile where
  name : List Byte
  known : List Byte
  unknownTail : Option Nat
deriving DecidableEq, Repr, Inhabited

/-- One reading of the host clock (10_state.md R36): seconds since 1 January 2000 and the microseconds
below one second. -/
structure ClockReading where
  seconds : Word
  micros : Nat
deriving DecidableEq, Repr, Inhabited

/-- What the environment may do between two steps (70_reset_and_hazards.md R244, R245; log 33). -/
inductive HostEvent where
  /-- A key is pressed. -/
  | key (c : Byte)
  /-- The emulator starts running (`true`) or goes to single-stepping (`false`; control-c does). -/
  | setRunning (b : Bool)
  /-- A host file appears, or its contents are replaced from outside. -/
  | putFile (f : HostFile)
deriving DecidableEq, Repr, Inhabited

/-- What the spec gives no meaning to ("the model refuses"). All are safe: no next state is claimed. -/
inductive Refusal where
  /-- Only exec's arms: an instruction without a meaning. -/
  | notModelled (mnemonic : String)
  /-- GETSR, SETSR: a special-register number outside 0..8 (93_implementation_defined.md U3). -/
  | specialRegisterNumber (n : Word)
  /-- GETFL, SETFL: a flag number outside 0..6 (U3). -/
  | flagNumber (n : Word)
  /-- SBIT, CBIT: a bit number outside 0..31 (U4). -/
  | bitNumber (n : Word)
  /-- The bit-range instructions: a range past bit 31 (U5). -/
  | rangePastBit31 (descriptor : Word)
  /-- An instruction whose destination register is PC (91_not_in_source.md N6). -/
  | pcAsDestination
  /-- JCOND with a condition other than ERR (42_data_and_control_instructions.md R118, D34). -/
  | conditionNotInSource (code : BitVec 4)
  /-- IRET over a frame whose marker is not 38 (43_system_instructions.md R132, D22). -/
  | frameMarker (found : Word)
  /-- A translated access while PDBR[9:0] is not zero (20_memory.md R46, D29). -/
  | pageDirectoryMisaligned (pdbr : Word)
  /-- PERI: a negative count of blocks or characters (U7). -/
  | negativeCount (n : Word)
  /-- $TAPEWRITE: a byte count outside 0..512 (U7). -/
  | tapeByteCount (n : Word)
  /-- $TAPEREWIND of a tape loaded for writing (U8). -/
  | rewindWhileWriting
  /-- $TAPELOAD on a unit already loaded (U8). -/
  | tapeAlreadyLoaded
  /-- $DATETIME of a time with bit 31 set (U11). -/
  | timeOutOfRange (t : Word)
deriving DecidableEq, Repr, Inhabited

/-- The whole machine. INVENTORY.md, "State", names the rule behind each field. -/
structure State where
  /-- R0 .. R12 (R10, R12). -/
  gpr : Vector Word 13
  /-- SP in user mode (R13). -/
  usp : Word
  /-- FP in user mode (R14). -/
  ufp : Word
  /-- PC (R15). -/
  pc : Word
  /-- FLAGS (R25). -/
  flags : Flags
  /-- PDBR (R18). -/
  pdbr : Word
  /-- INTVEC (R19). -/
  intvec : Word
  /-- CGBR (R20). -/
  cgbr : Word
  /-- CGLEN (R21). -/
  cglen : Word
  /-- DEBUG (R22). -/
  debug : Word
  /-- TIMER (R23). -/
  timer : Word
  /-- SYSSP, and SP in system mode (R13, R24). -/
  syssp : Word
  /-- SYSFP, and FP in system mode (R14, R24). -/
  sysfp : Word
  /-- Physical memory (20_memory.md R40 to R42). -/
  mem : Memory
  /-- Disc drives 1 to 8 (R33). -/
  discs : Vector (Option Disc) 8
  /-- Tape units 1 to 8 (R34). -/
  tapes : Vector (Option Tape) 8
  /-- The hardware keyboard buffer, oldest first (R35). -/
  keyboard : List Byte
  /-- What has been printed, oldest first (R35). -/
  screen : List Byte
  /-- Host files reached through tapes (44_peri_disc_tape.md R148). -/
  files : List HostFile
  /-- `RUNNING` (R37 (b), 70_reset_and_hazards.md R244). -/
  running : Bool
  /-- The launch parameters: constant during a run. -/
  params : Params
  /-- Model's own: the host events still to come, one list for each boundary (log 33). -/
  arrivals : List (List HostEvent)
  /-- Model's own: the host's coming answers, `true` when it does what is asked (log 31). -/
  answers : List Bool
  /-- Model's own: the clock's coming readings (log 32). -/
  clock : List ClockReading
  /-- Model's own: how many free values have been used (log 9). -/
  draws : Nat
  /-- Model's own wire from `exec` to `step`: the instruction completed (log 10). -/
  retired : Bool
deriving DecidableEq, Repr, Inhabited

/-- Why the machine stops. -/
inductive Fault where
  /-- `Stopped(code, addr)` (60_exceptions.md R210): raised by `raise` when a fatal interrupt is
  declined or cannot be entered. `last` is the state the machine stays in: that in which the interrupt
  was raised, but for the stack words of abandoned pushes, which hold free values (U12). Safe: it is the spec's own terminal outcome (log 12). -/
  | stopped (code : IntCode) (addr : Word) (last : State)
  /-- Raised by a PERI operation that reads a string without end: the operation never completes
  (45_peri_terminal_time.md R172, 44_peri_disc_tape.md R151). Safe: the hardware takes no further
  step either (log 30). -/
  | neverEnds
deriving DecidableEq, Repr, Inhabited

/-- What a word of memory that nothing has written reads as: DESIGN CHOICE, unsafe (log 7). -/
def unlistedWord : Word := 0

/-- Start-up (10_state.md R38, 70_reset_and_hazards.md R240): SYS = 1, IP = 1, VM = 0, R = 1. Every other
value is the model's (log 5, log 6, log 7, log 34, log 35, log 39). The script of host events is empty:
DESIGN CHOICE, so that no key arrives and RUNNING does not change in a run from here (log 45). -/
def State.reset : State where
  gpr := Vector.replicate 13 0
  usp := 0
  ufp := 0
  pc := Config.entry
  flags :=
    { r := true, z := false, n := false, err := false, sys := true, ip := true, vm := false }
  pdbr := 0
  intvec := 0
  cgbr := 0
  cglen := 0
  debug := 0
  timer := 0
  syssp := 0
  sysfp := 0
  mem := []
  discs := Vector.replicate 8 none
  tapes := Vector.replicate 8 none
  keyboard := []
  screen := []
  files := []
  running := true
  params := Config.launch
  arrivals := []
  answers := []
  clock := []
  draws := 0
  retired := false

end Sys2Proof.Machine
end

