-- ==== Sys2Proof/Machine/Flags.lean ====
section
/-! DEFINITION. The flags word and every flag computation the spec gives (10_state.md R25 to R32;
42_data_and_control_instructions.md R116 to R118). -/

namespace Sys2Proof.Machine

/-- A flag's number is its bit position (R25, R76). -/
def flagNumber : FlagName → Nat
  | .r => 0 | .z => 1 | .n => 2 | .err => 3 | .sys => 4 | .ip => 5 | .vm => 6

/-- The flag that an operand value names; none outside 0..6 (U3). -/
def flagOfNumber (n : Word) : Option FlagName :=
  match n.toNat with
  | 0 => some .r | 1 => some .z | 2 => some .n | 3 => some .err
  | 4 => some .sys | 5 => some .ip | 6 => some .vm
  | _ => none

/-- `FLAGS.f`. -/
def Flags.get (f : Flags) : FlagName → Bool
  | .r => f.r | .z => f.z | .n => f.n | .err => f.err | .sys => f.sys | .ip => f.ip | .vm => f.vm

/-- `FLAGS.f <- b`. -/
def Flags.set (f : Flags) (name : FlagName) (b : Bool) : Flags :=
  match name with
  | .r => { f with r := b }
  | .z => { f with z := b }
  | .n => { f with n := b }
  | .err => { f with err := b }
  | .sys => { f with sys := b }
  | .ip => { f with ip := b }
  | .vm => { f with vm := b }

/-- The flags that user mode may not modify (40_special_register_and_flag_instructions.md R93). -/
def flagProtected : FlagName → Bool
  | .r => true | .sys => true | .ip => true | .vm => true
  | .z => false | .n => false | .err => false

/-- `zext_7(FLAGS)`: bits 31..7 are zero (D7). -/
def Flags.toWord (f : Flags) : Word :=
  (BitVec.ofBool f.vm ++ BitVec.ofBool f.ip ++ BitVec.ofBool f.sys ++ BitVec.ofBool f.err ++
    BitVec.ofBool f.n ++ BitVec.ofBool f.z ++ BitVec.ofBool f.r : BitVec 7).setWidth 32

/-- `FLAGS <- w[6:0]`: bits 31..7 are ignored (D7). -/
def Flags.ofWord (w : Word) : Flags where
  r := w.getLsbD 0
  z := w.getLsbD 1
  n := w.getLsbD 2
  err := w.getLsbD 3
  sys := w.getLsbD 4
  ip := w.getLsbD 5
  vm := w.getLsbD 6

/-- COMP (R116): Z when equal, N when the register is less, as signed integers; under the switch
`wraps`, N is bit 31 of the 32-bit difference (D33). -/
def Flags.compare (f : Flags) (wraps : Bool) (a b : Word) : Flags :=
  { f with
    z := decide (a = b)
    n := if wraps then (a - b).msb else decide (signed a < signed b) }

/-- COMPZ (R117). -/
def Flags.compareZero (f : Flags) (v : Word) : Flags :=
  { f with z := decide (v = 0), n := decide (signed v < 0) }

/-- `holds(cond, FLAGS)` (R118); none for a condition the source does not name. -/
def Flags.holds (f : Flags) : Cond → Option Bool
  | .err => some f.err
  | .other _ => none

end Sys2Proof.Machine
end

