-- ==== Sys2Proof/Machine/Ops.lean ====
section
/-! DEFINITION. The shared operations: memory and translation (20_memory.md), registers (10_state.md),
taking an interrupt and returning from one (60_exceptions.md R204, R205; 43_system_instructions.md R132). -/

namespace Sys2Proof.Machine

/-! ### Sparse stores and memory -/

/-- What a store lists at a key. -/
def Sparse.find {α : Type} : Sparse α → Nat → Option α
  | [], _ => none
  | (k, v) :: rest, a => if k = a then some v else Sparse.find rest a

/-- Lists `v` at key `a`, keeping the keys in order. -/
def Sparse.put {α : Type} : Sparse α → Nat → α → Sparse α
  | [], a, v => [(a, v)]
  | (k, w) :: rest, a, v =>
    if a < k then (a, v) :: (k, w) :: rest
    else if a = k then (a, v) :: rest
    else (k, w) :: Sparse.put rest a v

/-- Lists nothing at key `a`. -/
def Sparse.remove {α : Type} (m : Sparse α) (a : Nat) : Sparse α := m.filter fun c => c.1 != a

/-- Keys strictly rising. -/
abbrev Sparse.sorted {α : Type} (m : Sparse α) : Prop := m.Pairwise fun c d => c.1 < d.1

/-- The word that a content stands for. -/
def contentWord : Content → Word
  | .word w => w
  | .free k => Config.freeWord k
  | .freeAbove k low bits => (low &&& BitVec.ofNat 32 (2 ^ bits - 1)) ||| (Config.freeWord k <<< bits)
  | .freshDisc drive k => Config.freshDiscWord drive k

/-- Whether a content is what an unlisted address holds. -/
def isUnlisted : Content → Bool
  | .word w => w == unlistedWord
  | .free _ => false
  | .freeAbove _ _ _ => false
  | .freshDisc _ _ => false

/-- The canonical form of memory: addresses strictly rising, no entry equal to what an unlisted
address reads as. -/
abbrev Memory.wf (m : Memory) : Prop := Sparse.sorted m ∧ ∀ c ∈ m, isUnlisted c.2 = false

/-- The content of a physical address. -/
def Memory.content (m : Memory) (p : Word) : Content :=
  (Sparse.find m p.toNat).getD (.word unlistedWord)

/-- The word at a physical address. -/
def Memory.read (m : Memory) (p : Word) : Word := contentWord (m.content p)

/-- Puts a content at a physical address, keeping the canonical form. -/
def Memory.put (m : Memory) (p : Word) (c : Content) : Memory :=
  if isUnlisted c then Sparse.remove m p.toNat else Sparse.put m p.toNat c

/-! ### Interrupts as data -/

/-- `raise X(addr, info)`: the code and the second and third parameters; `none` where R206 defines no
value. -/
structure Interrupt where
  code : IntCode
  addr : Option Word
  info : Option Word
deriving DecidableEq, Repr, Inhabited

/-- The position in the interrupt vector (R200). -/
def codeWord : IntCode → Word
  | .none => 0 | .memory => 1 | .pageFault => 2 | .unimpOp => 3 | .halt => 4 | .divZero => 5
  | .unwrOp => 6 | .timer => 7 | .privOp => 8 | .keybd => 9 | .badCall => 10 | .pagePriv => 11
  | .debug => 12 | .intrFault => 13

/-- The notification class (R201); every other real code is fatal. -/
def isNotification : IntCode → Bool
  | .timer => true
  | .keybd => true
  | _ => false

/-- An interrupt whose second parameter is an address and whose third is not defined (R206). -/
def interruptAt (c : IntCode) (addr : Word) : Interrupt := ⟨c, some addr, none⟩

/-- BADCALL: the SYSCALL's address and its operand (R220). -/
def badCall (pc index : Word) : Interrupt := ⟨.badCall, some pc, some index⟩

/-- TIMER and KEYBD define neither parameter (R206). -/
def notification (c : IntCode) : Interrupt := ⟨c, none, none⟩

/-- Why an instruction does not complete. -/
inductive Abort where
  | raise (i : Interrupt)
  | refuse (r : Refusal)
deriving DecidableEq, Repr, Inhabited

/-- The result of something that may raise an interrupt or be refused. -/
abbrev Access (α : Type) := Except Abort α

def raised {α : Type} (i : Interrupt) : Access α := .error (.raise i)
def refused {α : Type} (r : Refusal) : Access α := .error (.refuse r)

/-! ### Physical memory and translation -/

/-- Whether a physical address is present (20_memory.md R42). -/
def present (s : State) (p : Word) : Bool := decide (p.toNat < s.params.physWords)

/-- `PhysRead(p)` (R42). -/
def physRead (s : State) (p : Word) : Access Word :=
  if present s p then .ok (s.mem.read p) else raised (interruptAt .memory p)

/-- `PhysWrite(p, v)` (R42), for any content. -/
def physPut (s : State) (p : Word) (c : Content) : Access State :=
  if present s p then .ok { s with mem := s.mem.put p c } else raised (interruptAt .memory p)

/-- `PhysWrite(p, v)` for a word. -/
def physWrite (s : State) (p v : Word) : Access State := physPut s p (.word v)

/-- The fields of a virtual address (R45). -/
def pageTableNumber (a : Word) : Word := (a >>> 22) &&& 0x3FF
def pageNumber (a : Word) : Word := (a >>> 11) &&& 0x7FF
def pageOffset (a : Word) : Word := a &&& 0x7FF

/-- The page or table address in an entry: its most significant 21 bits (R47, R48). -/
def frameOf (entry : Word) : Word := entry &&& 0xFFFFF800

/-- The last check and sum of the translation, from the page-table entry (R48, R49). -/
def translateEntry (s : State) (a entry : Word) : Access Word :=
  if entry.getLsbD 0 = false then raised (interruptAt .pageFault a)
  else if entry.getLsbD 1 && !s.flags.sys then raised (interruptAt .pagePriv a)
  else .ok (frameOf entry + pageOffset a)

/-- `Translate(A)` (R44, R49). PDBR[9:0] must be zero while VM = 1 (R46, D29; log 22). -/
def translate (s : State) (a : Word) : Access Word :=
  if s.flags.vm = false then .ok a
  else if s.pdbr &&& 0x3FF ≠ 0 then refused (.pageDirectoryMisaligned s.pdbr)
  else
    (physRead s ((s.pdbr &&& 0xFFFFFC00) + pageTableNumber a)).bind fun table =>
      if table = 0 then raised (interruptAt .pageFault a)
      else (physRead s (frameOf table + pageNumber a)).bind (translateEntry s a)

/-- `MemRead(a, 1)`. -/
def readWord (s : State) (a : Word) : Access Word := (translate s a).bind (physRead s)

/-- `MemWrite(a, 1, v)`. -/
def writeWord (s : State) (a v : Word) : Access State :=
  (translate s a).bind fun p => physWrite s p v

/-- `MemRead(a, n)`: `n` words from address `a` on, in ascending order. -/
def readRun (s : State) (a : Word) : Nat → Access (List Word)
  | 0 => .ok []
  | n + 1 => (readWord s a).bind fun w => (readRun s (a + 1) n).map (w :: ·)

/-- A sequence of stores, each under the tables that the ones before it left (R51). It ends done, or
at the first store that cannot be made, or refused; `written` are the physical addresses stored to. -/
inductive StoreRun where
  | done (t : State) (written : List Word)
  | failed (i : Interrupt) (written : List Word)
  | refused (r : Refusal)

/-- Stores (address, content) pairs in order. -/
def storeAll (s : State) (written : List Word) : List (Word × Content) → StoreRun
  | [] => .done s written
  | (a, c) :: rest =>
    match translate s a with
    | .error (.raise i) => .failed i written
    | .error (.refuse r) => .refused r
    | .ok p =>
      match physPut s p c with
      | .error (.raise i) => .failed i written
      | .error (.refuse r) => .refused r
      | .ok t => storeAll t (p :: written) rest

/-- Every listed physical word takes a free value (a `draw` each; log 9). -/
def scramble (s : State) : List Word → State
  | [] => s
  | p :: ps =>
    scramble { s with mem := s.mem.put p (.free s.draws), draws := s.draws + 1 } ps

/-! ### Registers -/

/-- `x[r]`: SP and FP are banked by SYS (10_state.md R13, R14). -/
def getReg (s : State) : Reg → Word
  | .r i => s.gpr[i]
  | .sp => if s.flags.sys then s.syssp else s.usp
  | .fp => if s.flags.sys then s.sysfp else s.ufp
  | .pc => s.pc

/-- `x[r] <- v`. -/
def setReg (s : State) (r : Reg) (v : Word) : State :=
  match r with
  | .r i => { s with gpr := s.gpr.set i v }
  | .sp => if s.flags.sys then { s with syssp := v } else { s with usp := v }
  | .fp => if s.flags.sys then { s with sysfp := v } else { s with ufp := v }
  | .pc => { s with pc := v }

/-- A destination register may not be PC (N6; log 19). -/
def guardDestination : Reg → Access Unit
  | .pc => refused .pcAsDestination
  | _ => .ok ()

/-- The special register that an operand value names; none outside 0..8 (R17, U3). -/
def specialOfNumber (n : Word) : Option SpecialReg :=
  match n.toNat with
  | 0 => some .flags | 1 => some .pdbr | 2 => some .intvec | 3 => some .cgbr | 4 => some .cglen
  | 5 => some .debug | 6 => some .timer | 7 => some .syssp | 8 => some .sysfp
  | _ => none

/-- `SRget` (40_special_register_and_flag_instructions.md). -/
def getSpecial (s : State) : SpecialReg → Word
  | .flags => s.flags.toWord
  | .pdbr => s.pdbr
  | .intvec => s.intvec
  | .cgbr => s.cgbr
  | .cglen => s.cglen
  | .debug => s.debug
  | .timer => s.timer
  | .syssp => s.syssp
  | .sysfp => s.sysfp

/-- `SRset` (40_special_register_and_flag_instructions.md). -/
def setSpecial (s : State) (n : SpecialReg) (v : Word) : State :=
  match n with
  | .flags => { s with flags := Flags.ofWord v }
  | .pdbr => { s with pdbr := v }
  | .intvec => { s with intvec := v }
  | .cgbr => { s with cgbr := v }
  | .cglen => { s with cglen := v }
  | .debug => { s with debug := v }
  | .timer => { s with timer := v }
  | .syssp => { s with syssp := v }
  | .sysfp => { s with sysfp := v }

/-- PC moves to the next word (R15). -/
def advance (s : State) : State := { s with pc := s.pc + 1 }

/-- `pc <- t`. -/
def jump (s : State) (t : Word) : State := { s with pc := t }

/-! ### The stack -/

/-- `Push(v)` (42_data_and_control_instructions.md R113): if the write faults, SP keeps its value. -/
def push (s : State) (v : Word) : Access State :=
  (writeWord s (getReg s .sp - 1) v).map fun t => setReg t .sp (getReg s .sp - 1)

/-- `Pop()` (00_scope.md): the word at SP, and SP one higher. -/
def pop (s : State) : Access (Word × State) :=
  (readWord s (getReg s .sp)).map fun v => (v, setReg s .sp (getReg s .sp + 1))

/-- The stores of a run of pushes from stack pointer `sp`: each one word lower. -/
def stackStores (sp : Word) : List Content → List (Word × Content)
  | [] => []
  | c :: cs => (sp - 1, c) :: stackStores (sp - 1) cs

/-! ### Taking an interrupt -/

/-- What `Enter` answers (R205). `invalid` carries the state in which the stack words of the abandoned
pushes hold free values (U12). -/
inductive EntryResult where
  | entered (t : State)
  | notHandled
  | invalid (t : State)
  | refused (r : Refusal)

/-- The marker of a frame (R205, R207). -/
def frameMarker : Word := 38

/-- The sixteen registers in the order of the entry sequence; SP, FP and PC are the interrupted
context's own (R205 (b), D11). -/
def savedRegisters (s : State) (savedPc : Word) : List Word :=
  s.gpr.toList ++ [getReg s .sp, getReg s .fp, savedPc]

/-- The 21 words of an interrupt frame, in the order they are pushed (R205, R207). -/
def frameWords (s : State) (c : IntCode) (addr info : Content) : List Content :=
  (savedRegisters s s.pc).map .word ++
    [info, addr, .word (codeWord c), .word s.flags.toWord, .word frameMarker]

/-- The state with system privilege: SYS (and, where told, IP) turned on (R205). -/
def systemView (s : State) (setsIP : Bool) : State :=
  { s with flags := { s.flags with sys := true, ip := s.flags.ip || setsIP } }

/-- `Enter(c, addr, info)` (R205): all or nothing but for the abandoned stack words. -/
def enter (c : IntCode) (addr info : Content) (s : State) : EntryResult :=
  match readWord (systemView s true) (s.intvec + codeWord c) with
  | .error (.refuse r) => .refused r
  | .error (.raise _) => .invalid s
  | .ok handler =>
    if handler = 0 then .notHandled
    else
      let frame := frameWords s c addr info
      match storeAll (systemView s true) [] (stackStores s.syssp frame) with
      | .refused r => .refused r
      | .failed _ written => .invalid (scramble s written)
      | .done t _ =>
        .entered { t with syssp := s.syssp - BitVec.ofNat 32 frame.length, pc := handler }

/-- What raising an interrupt ends in. -/
inductive RaiseResult where
  | entered (t : State)
  | dropped
  | stopped (c : IntCode) (addr : Word) (last : State)
  | refused (r : Refusal)

/-- `Fail(c, addr)` (R204, R208): the INTRFAULT entry, or the stop (R210), which keeps the state but for the
stack words of abandoned pushes (U12). -/
def failEntry (c : IntCode) (addr : Content) (s : State) : RaiseResult :=
  match enter .intrFault addr (.word (codeWord c)) s with
  | .entered t => .entered t
  | .notHandled => .stopped c (contentWord addr) s
  | .invalid t => .stopped c (contentWord addr) t
  | .refused r => .refused r

/-- An interrupt's parameter as it is pushed: one that R206 does not define is a free word (D18). -/
def parameter (k : Nat) : Option Word → Content
  | some w => .word w
  | none => .free k

/-- `Raise(c, addr, info)` (R204). -/
def raise (i : Interrupt) (s : State) : RaiseResult :=
  let addr := parameter s.draws i.addr
  let info := parameter (s.draws + 1) i.info
  let drawn := { s with draws := s.draws + 2 }
  if s.flags.ip then
    if isNotification i.code then .dropped else failEntry i.code addr drawn
  else
    match enter i.code addr info drawn with
    | .entered t => .entered t
    | .notHandled =>
      if isNotification i.code then .dropped else .stopped i.code (contentWord addr) drawn
    | .invalid t => failEntry i.code addr t
    | .refused r => .refused r

/-- `Stopped(c, addr)` (R210, D14): the architectural state stays as it was when the interrupt was raised,
but for stack words of abandoned pushes, which hold free values (R205 (e), U12; log 12). -/
def stop (c : IntCode) (addr : Word) (last : State) : Host.Outcome State Fault Refusal :=
  .fault (.stopped c addr { last with retired := false })

/-- Raising an interrupt as an outcome: the next state is the handler's first, or, where the
interrupt is dropped, the state as it was. The instruction has not completed. -/
def takeInterrupt (i : Interrupt) (s : State) : Host.Outcome State Fault Refusal :=
  match raise i s with
  | .entered t => .next { t with retired := false }
  | .dropped => .next { s with retired := false }
  | .stopped c addr last => stop c addr last
  | .refused r => .refused r

/-! ### Returning from an interrupt -/

/-- The number of words of an interrupt frame (R207). -/
def frameLength : Nat := 21

/-- Puts back what a frame saved (43_system_instructions.md R132): `saved` are the words from the saved
PC upwards, that is PC, FP, SP, R12, ..., R0. SP and FP go to the bank the restored SYS selects. -/
def restoreFrame (s : State) (oldFlags : Word) (saved : List Word) : State :=
  let s1 :=
    { s with
      syssp := s.syssp + BitVec.ofNat 32 frameLength
      gpr := Vector.ofFn fun i : Fin 13 => saved.getD (15 - i.val) 0
      flags := Flags.ofWord oldFlags }
  jump (setReg (setReg s1 .sp (saved.getD 2 0)) .fp (saved.getD 1 0)) (saved.getD 0 0)

/-- The effect of IRET in system mode: the inverse of `enter` (R132, R227). -/
def returnFromInterrupt (s : State) : Access State :=
  (readWord s s.syssp).bind fun marker =>
    (readWord s (s.syssp + 1)).bind fun oldFlags =>
      if marker ≠ frameMarker then refused (.frameMarker marker)
      else (readRun s (s.syssp + 5) 16).map (restoreFrame s oldFlags)

/-! ### Completing an instruction -/

/-- An instruction's outcome: its effect (marked completed, for the timer), the interrupt it raised
in the state before it (R229), or a refusal. -/
def finish (s : State) : Access State → Host.Outcome State Fault Refusal
  | .ok t => .next { t with retired := true }
  | .error (.raise i) => takeInterrupt i s
  | .error (.refuse r) => .refused r

/-- The privileged instructions (60_exceptions.md R231): PRIVOP in user mode, before anything else. -/
def privileged (s : State) (effect : Access State) : Access State :=
  if s.flags.sys then effect else raised (interruptAt .privOp s.pc)

end Sys2Proof.Machine
end

