-- ==== Sys2Proof/Machine/Operands.lean ====
section
/-! DEFINITION. Every operand form: its value, its address, and writing to it (30_encoding.md R72 to R74). -/

namespace Sys2Proof.Machine

/-- `addr(op)`: the address of a memory operand (R73). -/
def operandAddress (s : State) : Operand → Option Word
  | .imm _ => none
  | .reg _ => none
  | .mem r n => some (getReg s r + n)
  | .memAt n => some n

/-- `value(op)` (R73). R0 as the register of a memory operand stands for its content: DESIGN CHOICE, N6
leaves open whether its number means "no index register" there (log 42). -/
def operandValue (s : State) : Operand → Access Word
  | .imm n => .ok n
  | .reg r => .ok (getReg s r)
  | .mem r n => readWord s (getReg s r + n)
  | .memAt n => readWord s n

/-- `assign(op, v)` (R74): a number is not writable. -/
def assignOperand (s : State) (op : Operand) (v : Word) : Access State :=
  match op with
  | .imm _ => raised (interruptAt .unwrOp s.pc)
  | .reg r => (guardDestination r).map fun _ => setReg s r v
  | .mem r n => writeWord s (getReg s r + n) v
  | .memAt n => writeWord s n v

end Sys2Proof.Machine
end

