-- ==== Sys2Proof/Machine/Bits.lean ====
section
/-! DEFINITION. SBIT, CBIT and the bit ranges (41_bit_instructions.md R100 to R108). The roles of the registers
of EXBR, DPBR, EXBRV, DPBRV are launch parameters, an assignment for each instruction; that these four write
no flag is the model's DESIGN CHOICE too (log 15). -/

namespace Sys2Proof.Machine

/-- A bit number; one outside 0..31 is refused (U4, log 20). -/
def bitNumber (n : Word) : Access Nat :=
  if n.toNat < 32 then .ok n.toNat else refused (.bitNumber n)

/-- `1 << b`. -/
def bitMask (b : Nat) : Word := 1#32 <<< b

/-- SBIT (R100). -/
def execSbit (reg : Reg) (op : Operand) (s : State) : Host.Outcome State Fault Refusal :=
  finish s <| (guardDestination reg).bind fun _ =>
    (operandValue s op).bind fun n =>
      (bitNumber n).map fun b => advance (setReg s reg (getReg s reg ||| bitMask b))

/-- CBIT (R101). -/
def execCbit (reg : Reg) (op : Operand) (s : State) : Host.Outcome State Fault Refusal :=
  finish s <| (guardDestination reg).bind fun _ =>
    (operandValue s op).bind fun n =>
      (bitNumber n).map fun b => advance (setReg s reg (getReg s reg &&& ~~~(bitMask b)))

/-- `len` of a descriptor: bits 4..0, with 0 for 32 (R102). -/
def rangeLength (d : Word) : Nat :=
  if (d &&& 31).toNat = 0 then 32 else (d &&& 31).toNat

/-- `RIGHT` of a descriptor: bits 9..5 (R102). -/
def rangeRight (d : Word) : Nat := ((d >>> 5) &&& 31).toNat

/-- `SKIP` of a descriptor: bits 31..10 (R102). -/
def rangeSkip (d : Word) : Word := d >>> 10

/-- `2^len - 1` as a word. -/
def lowMask (len : Nat) : Word := BitVec.ofNat 32 (2 ^ len - 1)

/-- `field(w, D)` (R103). -/
def bitField (w d : Word) : Word := (w >>> rangeRight d) &&& lowMask (rangeLength d)

/-- `deposit(w, D, v)` (R104). -/
def deposit (w d v : Word) : Word :=
  (w &&& ~~~(lowMask (rangeLength d) <<< rangeRight d)) |||
    ((v <<< rangeRight d) &&& (lowMask (rangeLength d) <<< rangeRight d))

/-- A field as it is delivered: zero-extended, or sign-extended from its top bit (N12). -/
def deliverField (signExtended : Bool) (w d : Word) : Word :=
  let f := bitField w d
  if signExtended && f.getLsbD (rangeLength d - 1) then f ||| ~~~(lowMask (rangeLength d)) else f

/-- A descriptor whose range runs past bit 31 is refused (R103, U5; log 21). -/
def guardRange (d : Word) : Access Unit :=
  if rangeRight d + rangeLength d ≤ 32 then .ok () else refused (.rangePastBit31 d)

/-- The register after this one in the order of R11, round from PC to R0. -/
def nextReg : Reg → Reg
  | .r i => if h : i.val + 1 < 13 then .r ⟨i.val + 1, h⟩ else .sp
  | .sp => .fp
  | .fp => .pc
  | .pc => .r 0

/-- The register a role stands for. -/
def roleReg (main : Reg) : RegRole → Reg
  | .main => main
  | .next => nextReg main
  | .fixed r => r

/-- EXBR (R105): the range of the operand's own value. -/
def execExbr (reg : Reg) (op : Operand) (s : State) : Host.Outcome State Fault Refusal :=
  let roles := s.params.exbrRoles
  let d := getReg s (roleReg reg roles.descriptor)
  finish s <| (guardDestination (roleReg reg roles.result)).bind fun _ =>
    (operandValue s op).bind fun w =>
      (guardRange d).map fun _ =>
        advance (setReg s (roleReg reg roles.result) (deliverField roles.signExtended w d))

/-- DPBR (R106): the operand, with the range replaced, written back. A number as operand is UNWROP, as R106
infers from R74. -/
def execDpbr (reg : Reg) (op : Operand) (s : State) : Host.Outcome State Fault Refusal :=
  let roles := s.params.dpbrRoles
  let d := getReg s (roleReg reg roles.descriptor)
  finish s <| (operandValue s op).bind fun w =>
    (guardRange d).bind fun _ =>
      (assignOperand s op (deposit w d (getReg s (roleReg reg roles.value)))).map advance

/-- EXBRV (R107): the operand is the address of the first word; SKIP words are passed over. -/
def execExbrv (reg : Reg) (op : Operand) (s : State) : Host.Outcome State Fault Refusal :=
  let roles := s.params.exbrvRoles
  let d := getReg s (roleReg reg roles.descriptor)
  finish s <| (guardDestination (roleReg reg roles.result)).bind fun _ =>
    (operandValue s op).bind fun base =>
      (readWord s (base + rangeSkip d)).bind fun w =>
        (guardRange d).map fun _ =>
          advance (setReg s (roleReg reg roles.result) (deliverField roles.signExtended w d))

/-- DPBRV (R108): the word SKIP words after the operand's address, read, changed and written back. A number is
an address here, as R108 infers. -/
def execDpbrv (reg : Reg) (op : Operand) (s : State) : Host.Outcome State Fault Refusal :=
  let roles := s.params.dpbrvRoles
  let d := getReg s (roleReg reg roles.descriptor)
  finish s <| (operandValue s op).bind fun base =>
    (readWord s (base + rangeSkip d)).bind fun w =>
      (guardRange d).bind fun _ =>
        (writeWord s (base + rangeSkip d)
          (deposit w d (getReg s (roleReg reg roles.value)))).map advance

end Sys2Proof.Machine
end

