-- ==== Sys2Proof/Machine/Data.lean ====
section
/-! DEFINITION. LOAD, STORE, INC, PUSH, CALL, RET, COMP, COMPZ, JCOND (42_data_and_control_instructions.md R110
to R118). -/

namespace Sys2Proof.Machine

/-- LOAD (R110). -/
def execLoad (reg : Reg) (op : Operand) (s : State) : Host.Outcome State Fault Refusal :=
  finish s <| (guardDestination reg).bind fun _ =>
    (operandValue s op).map fun v => advance (setReg s reg v)

/-- STORE (R111). -/
def execStore (reg : Reg) (op : Operand) (s : State) : Host.Outcome State Fault Refusal :=
  finish s <| (assignOperand s op (getReg s reg)).map advance

/-- INC (R112). -/
def execInc (op : Operand) (s : State) : Host.Outcome State Fault Refusal :=
  finish s <| (operandValue s op).bind fun v => (assignOperand s op (v + 1)).map advance

/-- PUSH (R113): the value is the operand's before SP moves (D10). -/
def execPush (op : Operand) (s : State) : Host.Outcome State Fault Refusal :=
  finish s <| (operandValue s op).bind fun v => (push s v).map advance

/-- CALL (R114): pushes the address of the next instruction. -/
def execCall (op : Operand) (s : State) : Host.Outcome State Fault Refusal :=
  finish s <| (operandValue s op).bind fun t => (push s (s.pc + 1)).map fun u => jump u t

/-- RET (R115). -/
def execRet (s : State) : Host.Outcome State Fault Refusal :=
  finish s <| (pop s).map fun p => jump p.2 p.1

/-- COMP (R116). -/
def execComp (reg : Reg) (op : Operand) (s : State) : Host.Outcome State Fault Refusal :=
  finish s <| (operandValue s op).map fun v =>
    advance { s with flags := s.flags.compare s.params.compWraps (getReg s reg) v }

/-- COMPZ (R117): the tested value is a launch parameter (log 16). Where that is the main register the
operand is not evaluated, so that it cannot fault: DESIGN CHOICE, R117 leaves it open (log 16). -/
def execCompz (reg : Reg) (op : Operand) (s : State) : Host.Outcome State Fault Refusal :=
  let tested : Access Word :=
    match s.params.compzTests with
    | .mainRegister => .ok (getReg s reg)
    | .operand => operandValue s op
  finish s <| tested.map fun v => advance { s with flags := s.flags.compareZero v }

/-- JCOND (R118): the target is read only when the condition holds; a condition other than ERR is
refused (D34, log 3). -/
def execJcond (cond : Cond) (op : Operand) (s : State) : Host.Outcome State Fault Refusal :=
  finish s <|
    match s.flags.holds cond with
    | some true => (operandValue s op).map (jump s)
    | some false => .ok (advance s)
    | none => refused (.conditionNotInSource cond.code)

end Sys2Proof.Machine
end

