-- ==== Sys2Proof/Machine/Devices.lean ====
section
/-! DEFINITION. What the PERI operations share (44_peri_disc_tape.md R141 to R144, R155, R156): results and
error codes, the devices' memory accesses, packed strings, and the host's answers. -/

namespace Sys2Proof.Machine

/-- How a PERI operation ends: with a result code, refused, or never. -/
inductive PeriResult where
  | done (t : State) (code : Word)
  | refused (r : Refusal)
  | never

/-! The error codes (R143). -/

def errBadCode : Word := -1
def errReadParams : Word := -2
def errDevNumber : Word := -3
def errPosition : Word := -4
def errMemory : Word := -5
def errDevFailed : Word := -6
def errNotFound : Word := -7
def errBadParam : Word := -8

/-- A device's access (R156): where the CPU would take an interrupt, the operation ends as `failed`
says. -/
def orFail {α : Type} (x : Access α) (failed : PeriResult) (k : α → PeriResult) : PeriResult :=
  match x with
  | .ok a => k a
  | .error (.raise _) => failed
  | .error (.refuse r) => .refused r

/-- `CtlRead(cs, k)`. -/
def ctlRead (s : State) (cs : Word) (k : Nat) : Access Word := readWord s (cs + BitVec.ofNat 32 k)

/-- `CtlRead(cs, 1..2)`, in ascending order. -/
def ctlRead2 (s : State) (cs : Word) : Access (Word × Word) :=
  (ctlRead s cs 1).bind fun a => (ctlRead s cs 2).map fun b => (a, b)

/-- `CtlRead(cs, 1..3)`. -/
def ctlRead3 (s : State) (cs : Word) : Access (Word × Word × Word) :=
  (ctlRead s cs 1).bind fun a => (ctlRead s cs 2).bind fun b =>
    (ctlRead s cs 3).map fun c => (a, b, c)

/-- `CtlRead(cs, 1..4)`. -/
def ctlRead4 (s : State) (cs : Word) : Access (Word × Word × Word × Word) :=
  (ctlRead s cs 1).bind fun a => (ctlRead s cs 2).bind fun b =>
    (ctlRead s cs 3).bind fun c => (ctlRead s cs 4).map fun d => (a, b, c, d)

/-- The addresses `a, a + 1, ..., a + n - 1`. -/
def addressRun (a : Word) (n : Nat) : List Word := (List.range n).map fun i => a + BitVec.ofNat 32 i

/-- The physical words behind those addresses that an access can reach. -/
def reachable (s : State) (addrs : List Word) : List Word :=
  addrs.filterMap fun a =>
    match translate s a with
    | .ok p => if present s p then some p else none
    | .error _ => none

/-- A transfer into memory, a content at each address from `a` on. When it fails, every word the
operation could have written holds a free value (R155, U6; log 25). -/
def deliver (s : State) (a : Word) (words : List Content) (failCode : Word)
    (k : State → List Word → PeriResult) : PeriResult :=
  let addrs := addressRun a words.length
  match storeAll s [] (addrs.zip words) with
  | .done t written => k t written
  | .failed _ written => .done (scramble s (reachable s addrs ++ written)) failCode
  | .refused r => .refused r

/-- The host's next answer: whether it does what is asked (log 31). -/
def hostAnswer (s : State) : Bool × State :=
  match s.answers with
  | b :: rest => (b, { s with answers := rest })
  | [] => (Config.freeBool s.draws, { s with draws := s.draws + 1 })

/-- The unit or drive that a number in 1..8 names (R145, R149). -/
def unitOf (n : Word) : Option (Fin 8) :=
  if signed n < 1 ∨ 8 < signed n then none else some (Fin.ofNat 8 (n.toNat - 1))

/-! ### Packed characters (20_memory.md R53, R54) -/

/-- Character `i mod 4` of a word: bits 8(i mod 4)+7 .. 8(i mod 4). -/
def charOf (w : Word) (i : Nat) : Byte := w.extractLsb' (8 * (i % 4)) 8

/-- Word `j` of a byte string; bytes past its end count as 0. -/
def packedWord (bytes : List Byte) (j : Nat) : Word :=
  bytes.getD (4 * j + 3) 0 ++ bytes.getD (4 * j + 2) 0 ++ bytes.getD (4 * j + 1) 0 ++
    bytes.getD (4 * j) 0

/-- The first `n` words of a byte string. -/
def packedWords (bytes : List Byte) (n : Nat) : List Word := (List.range n).map (packedWord bytes)

/-- `ch(i)` of the packed string at `a` (45_peri_terminal_time.md R172). -/
def packedChar (s : State) (a : Word) (i : Nat) : Access Byte :=
  (readWord s (a + BitVec.ofNat 32 (i / 4))).map fun w => charOf w i

/-- `ch(i)` of an array with one character in each word (R174): its bits 31..8 are ignored, U10, a DESIGN
CHOICE (log 49). -/
def wideChar (s : State) (a : Word) (i : Nat) : Access Byte :=
  (readWord s (a + BitVec.ofNat 32 i)).map fun w => w.setWidth 8

/-- The characters read one after another, and how the reading ended. -/
inductive Scan where
  | done (cs : List Byte)
  | failed (cs : List Byte)
  | refused (r : Refusal)
  | never

/-- The scan with one more character before it. -/
def scanCons (c : Byte) : Scan → Scan
  | .done cs => .done (c :: cs)
  | .failed cs => .failed (c :: cs)
  | .refused r => .refused r
  | .never => .never

/-- Characters `i .. i + n - 1`. -/
def scanCount (ch : Nat → Access Byte) : Nat → Nat → Scan
  | 0, _ => .done []
  | n + 1, i =>
    match ch i with
    | .ok c => scanCons c (scanCount ch n (i + 1))
    | .error (.raise _) => .failed []
    | .error (.refuse r) => .refused r

/-- Characters from `i` on up to a zero character, which is not among them; `never` when none of the
next `fuel` is zero. -/
def scanToZero (ch : Nat → Access Byte) : Nat → Nat → Scan
  | 0, _ => .never
  | fuel + 1, i =>
    match ch i with
    | .ok c => if c = 0 then .done [] else scanCons c (scanToZero ch fuel (i + 1))
    | .error (.raise _) => .failed []
    | .error (.refuse r) => .refused r

/-- The characters of a whole address space: past them, a string repeats itself (log 30). -/
def addressSpaceChars : Nat := 2 ^ 34

end Sys2Proof.Machine
end

