-- ==== Sys2Proof/Machine/Clock.lean ====
section
/-! DEFINITION. The time operations of PERI (45_peri_terminal_time.md R175 to R178; 10_state.md R36). -/

namespace Sys2Proof.Machine

/-- The host's next clock reading: a free value where the host's readings have run out (R36, log 32). -/
def readClock (s : State) : ClockReading × State :=
  match s.clock with
  | c :: rest => (c, { s with clock := rest })
  | [] =>
    ({ seconds := Config.freeWord s.draws, micros := (Config.freeWord (s.draws + 1)).toNat },
      { s with draws := s.draws + 2 })

/-- The microsecond word of a reading: below one second (R177). -/
def microsWord (c : ClockReading) : Word := BitVec.ofNat 32 (c.micros % 1000000)

/-- A success code that the source does not name: a free value with sign bit 0 (D39, log 37). -/
def doneNonNegative (s : State) : PeriResult :=
  .done { s with draws := s.draws + 1 } (Config.freeWord s.draws &&& 0x7FFFFFFF)

/-- `$SECONDS` (R176). A reading of 2^31 seconds or more, after the year 2068, is handed on as it is, so
that it counts as negative and sets ERR: DESIGN CHOICE, R176 does not describe it (log 44). -/
def seconds (s : State) : PeriResult :=
  let (c, t) := readClock s
  .done t c.seconds

/-- `$USECONDS` (R177). -/
def useconds (s : State) (cs : Word) : PeriResult :=
  let (c, t) := readClock s
  deliver t (cs + 1) [.word c.seconds, .word (microsWord c)] errReadParams fun u _ => doneNonNegative u

/-! ### The calendar (R178, D41): proleptic Gregorian, 86400-second days -/

def isLeapYear (y : Nat) : Bool := (y % 4 == 0 && y % 100 != 0) || y % 400 == 0

def yearDays (y : Nat) : Nat := if isLeapYear y then 366 else 365

def monthLengths (y : Nat) : List Nat :=
  [31, if isLeapYear y then 29 else 28, 31, 30, 31, 30, 31, 31, 30, 31, 30, 31]

/-- The year, and the day within it, that lies `d` days after the first day of year `y`. -/
def splitYear : Nat → Nat → Nat → Nat × Nat
  | 0, y, d => (y, d)
  | fuel + 1, y, d => if d < yearDays y then (y, d) else splitYear fuel (y + 1) (d - yearDays y)

/-- The month, and the day within it counted from 0, of day `d` of a year whose months from `m` on
have these lengths. -/
def splitMonth : List Nat → Nat → Nat → Nat × Nat
  | [], m, d => (m, d)
  | l :: ls, m, d => if d < l then (m, d) else splitMonth ls (m + 1) (d - l)

/-- `civil(t)`: year, month, day, day of the week, hour, minute, second, `t` seconds after 1 January
2000, a Saturday. -/
def civil (t : Nat) : List Nat :=
  let days := t / 86400
  let (year, dayOfYear) := splitYear (days / 365 + 1) 2000 days
  let (month, day) := splitMonth (monthLengths year) 1 dayOfYear
  [year, month, day + 1, (days + 6) % 7, t % 86400 / 3600, t % 3600 / 60, t % 60]

/-- `$DATETIME` (R178). A time with bit 31 set is refused (U11, log 29). -/
def dateTime (s : State) (cs : Word) : PeriResult :=
  orFail (ctlRead s cs 1) (.done s errReadParams) fun t =>
    if t.msb then .refused (.timeOutOfRange t)
    else
      deliver s (cs + 2) ((civil t.toNat).map fun n => .word (BitVec.ofNat 32 n)) errReadParams
        fun u _ => doneNonNegative u

end Sys2Proof.Machine
end

