-- ==== Sys2Proof/Machine/Disc.lean ====
section
/-! DEFINITION. The disc operations of PERI (44_peri_disc_tape.md R145 to R147; 10_state.md R33). -/

namespace Sys2Proof.Machine

/-- The word at position `k` (128 * block + word) of a drive; one never written is a stable free value
(D26, log 34). -/
def discWord (drive : Fin 8) (disc : Disc) (k : Nat) : Content :=
  (Sparse.find disc.written k).getD (.freshDisc (drive.val + 1) k)

/-- Words written at positions `k, k + 1, ...` of a disc. -/
def writeDiscWords (disc : Disc) (k : Nat) : List Content → Disc
  | [] => disc
  | w :: ws => writeDiscWords { disc with written := Sparse.put disc.written k w } (k + 1) ws

/-- `n` free values from counter value `draws` on. -/
def freeContents (draws n : Nat) : List Content := (List.range n).map fun i => .free (draws + i)

/-- The drive's content replaced. -/
def setDisc (s : State) (drive : Fin 8) (disc : Disc) : State :=
  { s with discs := s.discs.set drive (some disc) }

/-- The configured drive that a drive number names. -/
def driveOf (s : State) (d : Word) : Option (Fin 8 × Disc) :=
  match unitOf d with
  | none => none
  | some i => s.discs[i].map fun disc => (i, disc)

/-- Whether the blocks `b .. b + n - 1` lie outside the disc, for `n > 0` (R146). -/
def blocksOutside (disc : Disc) (b n : Word) : Bool :=
  decide (0 < signed n) && (decide (signed b < 0) || decide ((disc.size : Int) < signed b + signed n))

/-- `$DISCCHECK` (R145). A size of 2^31 blocks or more is answered modulo 2^32 and ERR follows that word's
sign: DESIGN CHOICE, no result that fits is stated (log 48). -/
def discCheck (s : State) (cs : Word) : PeriResult :=
  orFail (ctlRead s cs 1) (.done s errReadParams) fun d =>
    match unitOf d with
    | none => .done s errDevNumber
    | some i =>
      match s.discs[i] with
      | none => .done s 0
      | some disc => .done s (BitVec.ofNat 32 disc.size)

/-- `$DISCREAD` (R146). A block outside the disc is found before any block moves, so that -4 changes
nothing: the model's choice with D25, R146 (d) leaves it open (log 46). -/
def discRead (s : State) (cs : Word) : PeriResult :=
  orFail (ctlRead4 s cs) (.done s errReadParams) fun (d, b, n, m) =>
    match driveOf s d with
    | none => .done s errDevNumber
    | some (drive, disc) =>
      if signed n < 0 then .refused (.negativeCount n)
      else if blocksOutside disc b n then .done s errPosition
      else
        deliver s m
          ((List.range (128 * n.toNat)).map fun i => discWord drive disc (128 * b.toNat + i))
          errMemory fun t _ => .done t n

/-- The blocks of a failed write hold free values (U6, log 25). -/
def scrambleBlocks (s : State) (drive : Fin 8) (disc : Disc) (b n : Word) : State :=
  let count := 128 * n.toNat
  let spoiled := writeDiscWords disc (128 * b.toNat) (freeContents s.draws count)
  { setDisc s drive spoiled with draws := s.draws + count }

/-- `$DISCWRITE` (R147). Writing no block asks nothing of the host. A block outside the disc is found
before any block moves, as in `discRead` (log 46). -/
def discWrite (s : State) (cs : Word) : PeriResult :=
  orFail (ctlRead4 s cs) (.done s errReadParams) fun (d, b, n, m) =>
    match driveOf s d with
    | none => .done s errDevNumber
    | some (drive, disc) =>
      if signed n < 0 then .refused (.negativeCount n)
      else if blocksOutside disc b n then .done s errPosition
      else if n = 0 then .done s 0
      else
        orFail (readRun s m (128 * n.toNat)) (.done (scrambleBlocks s drive disc b n) errMemory)
          fun words =>
            let (granted, t) := hostAnswer s
            if granted then .done (setDisc t drive (writeDiscWords disc (128 * b.toNat) (words.map .word))) n
            else .done (scrambleBlocks t drive disc b n) errDevFailed

end Sys2Proof.Machine
end

