-- ==== Sys2Proof/Machine/Tape.lean ====
section
/-! DEFINITION. The tape operations of PERI (44_peri_disc_tape.md R148 to R154; 10_state.md R34). -/

namespace Sys2Proof.Machine

/-- 'R' and 'W' (R149, G3). -/
def charR : Word := 82
def charW : Word := 87

/-- The host file with a name; one that is not known has unknown content (log 35). -/
def findFile (files : List HostFile) (name : List Byte) : Option HostFile :=
  files.find? fun f => f.name == name

/-- The bytes of a host file: the known ones and the unknown ones after them. -/
def fileBytes (f : HostFile) : List Byte :=
  f.known ++ (match f.unknownTail with
    | none => []
    | some k => Config.freeBytes k)

/-- The bytes of the file on a tape. -/
def tapeBytes (s : State) (tape : Tape) : List Byte :=
  match findFile s.files tape.file with
  | none => []
  | some f => fileBytes f

/-- Puts a host file in place of the one with its name, or adds it. -/
def storeFile (f : HostFile) : List HostFile → List HostFile
  | [] => [f]
  | g :: rest => if g.name = f.name then f :: rest else g :: storeFile f rest

/-- A unit's state replaced. -/
def setTape (s : State) (u : Fin 8) (tape : Option Tape) : State :=
  { s with tapes := s.tapes.set u tape }

/-- The unit loaded in a mode that a unit number names; otherwise it is "not available" (D25). -/
def tapeOf (s : State) (u : Word) (mode : TapeMode) : Option (Fin 8 × Tape) :=
  match unitOf u with
  | none => none
  | some i =>
    match s.tapes[i] with
    | none => none
    | some tape => if tape.mode = mode then some (i, tape) else none

/-- `$TAPECHECK` (R149). -/
def tapeCheck (s : State) (cs : Word) : PeriResult :=
  orFail (ctlRead s cs 1) (.done s errReadParams) fun u =>
    match unitOf u with
    | none => .done s errDevNumber
    | some i =>
      match s.tapes[i] with
      | none => .done s 0
      | some tape => .done s (match tape.mode with
        | .read => charR
        | .write => charW)

/-- `$TAPEREWIND` (R150). Rewinding a tape loaded for writing is refused (U8, log 28). -/
def tapeRewind (s : State) (cs : Word) : PeriResult :=
  orFail (ctlRead s cs 1) (.done s errReadParams) fun u =>
    match unitOf u with
    | none => .done s errDevNumber
    | some i =>
      match s.tapes[i] with
      | none => .done s errDevNumber
      | some tape =>
        match tape.mode with
        | .write => .refused .rewindWhileWriting
        | .read => .done (setTape s i (some { tape with position := 0 })) 1

/-- The host file as it is once opened (R151): opened for reading it is as it was; opened for writing
its content is unknown but for what the program writes (U8). -/
def openedFile (s : State) (name : List Byte) (mode : TapeMode) : HostFile :=
  match mode with
  | .write => { name := name, known := [], unknownTail := some s.draws }
  | .read =>
    (findFile s.files name).getD { name := name, known := [], unknownTail := some s.draws }

/-- Loading a file on a unit, once the name is read (R151). -/
def loadTape (s : State) (u : Fin 8) (name : List Byte) (mode : TapeMode) : PeriResult :=
  match s.tapes[u] with
  | some _ => .refused .tapeAlreadyLoaded
  | none =>
    let (granted, t) := hostAnswer s
    if granted then
      let t1 := setTape t u (some { file := name, mode := mode, position := 0 })
      .done { t1 with files := storeFile (openedFile t name mode) t.files, draws := t.draws + 1 } 1
    else .done t errNotFound

/-- The mode that a control structure names (R151). -/
def tapeModeOf (mode : Word) : Option TapeMode :=
  if mode = charR then some .read else if mode = charW then some .write else none

/-- `$TAPELOAD` (R151). -/
def tapeLoad (s : State) (cs : Word) : PeriResult :=
  orFail (ctlRead3 s cs) (.done s errReadParams) fun (u, p, mode) =>
    match unitOf u with
    | none => .done s errDevNumber
    | some i =>
      match tapeModeOf mode with
      | none => .done s errBadParam
      | some m =>
        match scanToZero (packedChar s p) addressSpaceChars 0 with
        | .done name => loadTape s i name m
        | .failed _ => .done s errMemory
        | .refused r => .refused r
        | .never => .never

/-- `$TAPEUNLOAD` (R152). -/
def tapeUnload (s : State) (cs : Word) : PeriResult :=
  orFail (ctlRead s cs 1) (.done s errReadParams) fun u =>
    match unitOf u with
    | none => .done s errDevNumber
    | some i =>
      match s.tapes[i] with
      | none => .done s errNotFound
      | some _ => .done (setTape s i none) 1

/-- The last word of a short block: the bytes above the file's last one hold free bits (U9). -/
def partialWord (s : State) (bytes : List Byte) (j : Nat) : Content :=
  .freeAbove s.draws (packedWord bytes j) (8 * (bytes.length - 4 * j))

/-- The words that carry a block's bytes. -/
def blockWords (s : State) (bytes : List Byte) : List Content :=
  let full := (packedWords bytes (bytes.length / 4)).map Content.word
  if bytes.length % 4 = 0 then full else full ++ [partialWord s bytes (bytes.length / 4)]

/-- A tape's position moved. -/
def moveTape (s : State) (u : Fin 8) (tape : Tape) (position : Nat) : State :=
  setTape s u (some { tape with position := position })

/-- The rest of the 128-word buffer after a short block holds free values (U9, log 26). -/
def scrambleRest (t : State) (m : Word) (count : Nat) (written : List Word) : State :=
  let rest := addressRun (m + BitVec.ofNat 32 count) (128 - count)
  scramble t ((reachable t rest).filter fun p => decide (p ∉ written))

/-- A failed transfer has moved a tape by some number of bytes up to `c` (U6, log 25). -/
def strandTape (s : State) (u : Fin 8) (tape : Tape) (c : Nat) : State :=
  let moved := (Config.freeWord s.draws).toNat % (c + 1)
  { moveTape s u tape (tape.position + moved) with draws := s.draws + 1 }

/-- `$TAPERREAD` (R153). At the end of the tape (result 0) the buffer is left as it is: DESIGN CHOICE, by
its words U9 leaves the buffer any value after a result of 0 too (log 26). -/
def tapeRead (s : State) (cs : Word) : PeriResult :=
  orFail (ctlRead2 s cs) (.done s errReadParams) fun (u, m) =>
    match tapeOf s u .read with
    | none => .done s errDevNumber
    | some (i, tape) =>
      let bytes := ((tapeBytes s tape).drop tape.position).take 512
      if bytes.length = 0 then .done s 0
      else
        let words := blockWords s bytes
        let drawn := { s with draws := s.draws + 1 }
        match storeAll drawn [] ((addressRun m words.length).zip words) with
        | .refused r => .refused r
        | .failed _ written =>
          let spoiled := scramble drawn (reachable drawn (addressRun m 128) ++ written)
          .done (strandTape spoiled i tape bytes.length) errMemory
        | .done t written =>
          .done (moveTape (scrambleRest t m words.length written) i tape
            (tape.position + bytes.length)) (BitVec.ofNat 32 bytes.length)

/-- `n` free bytes from counter value `draws` on. -/
def freeByteRun (draws n : Nat) : List Byte :=
  (List.range n).map fun i => (Config.freeWord (draws + i)).setWidth 8

/-- The file on a tape replaced. -/
def updateFile (s : State) (name : List Byte) (change : HostFile → HostFile) : State :=
  let f := (findFile s.files name).getD
    { name := name, known := [], unknownTail := some s.draws }
  { s with files := storeFile { change f with name := name } s.files, draws := s.draws + 1 }

/-- Bytes written into a file at a position. Where they reach past the known bytes into an unknown rest,
what follows them is another unknown rest, number `draws` (U8, log 35). A gap before the position, which
only another unit's loading of the same file can leave, holds free bytes, from counter value `draws + 1`
on. -/
def writeFileBytes (draws position : Nat) (bytes : List Byte) (f : HostFile) : HostFile :=
  { f with
    known := f.known.take position ++ freeByteRun (draws + 1) (position - f.known.length) ++ bytes ++
      f.known.drop (position + bytes.length)
    unknownTail :=
      if f.known.length < position + bytes.length then f.unknownTail.map fun _ => draws
      else f.unknownTail }

/-- A file whose content from a position on is unknown (U6). -/
def spoilFile (draws position : Nat) (f : HostFile) : HostFile :=
  { f with known := f.known.take position, unknownTail := some draws }

/-- A failed write: the file from the position on and the position itself are open (U6, log 25). -/
def spoilTape (s : State) (u : Fin 8) (tape : Tape) (c : Nat) : State :=
  strandTape (updateFile s tape.file (spoilFile s.draws tape.position)) u tape c

/-- `$TAPEWRITE` (R154). A count outside 0..512 is refused (U7, log 27); writing no byte asks nothing
of the host. -/
def tapeWrite (s : State) (cs : Word) : PeriResult :=
  orFail (ctlRead3 s cs) (.done s errReadParams) fun (u, m, c) =>
    match tapeOf s u .write with
    | none => .done s errDevNumber
    | some (i, tape) =>
      if 512 < c.toNat then .refused (.tapeByteCount c)
      else if c = 0 then .done s 0
      else
        match scanCount (packedChar s m) c.toNat 0 with
        | .never => .never
        | .refused r => .refused r
        | .failed _ => .done (spoilTape s i tape c.toNat) errMemory
        | .done bytes =>
          let (granted, t) := hostAnswer s
          if granted then
            let u := updateFile t tape.file (writeFileBytes t.draws tape.position bytes)
            .done (moveTape { u with draws := u.draws + tape.position } i tape
              (tape.position + c.toNat)) c
          else .done (spoilTape t i tape c.toNat) errDevFailed

end Sys2Proof.Machine
end

