-- ==== Sys2Proof/Machine/Terminal.lean ====
section
/-! DEFINITION. The terminal operations of PERI (45_peri_terminal_time.md R170 to R174; 10_state.md R35). -/

namespace Sys2Proof.Machine

/-- Characters printed on the screen. -/
def print (s : State) (cs : List Byte) : State := { s with screen := s.screen ++ cs }

/-- The first `k` characters taken from the keyboard buffer. -/
def takeKeys (s : State) (k : Nat) : State := { s with keyboard := s.keyboard.drop k }

/-- Some number of the first `k` characters taken: a failed input operation (U6, log 25). -/
def takeSomeKeys (s : State) (k : Nat) : State :=
  { takeKeys s ((Config.freeWord s.draws).toNat % (k + 1)) with draws := s.draws + 1 }

/-- `$TERMINC` and `$TERMINW` (R171, R173), by how the characters are laid out in words. -/
def termIn (s : State) (cs : Word) (layout : List Byte → List Word) : PeriResult :=
  orFail (ctlRead2 s cs) (.done s errReadParams) fun (most, m) =>
    if signed most < 0 then .refused (.negativeCount most)
    else
      let k := min most.toNat s.keyboard.length
      let words := (layout (s.keyboard.take k)).map Content.word
      let addrs := addressRun m words.length
      match storeAll s [] (addrs.zip words) with
      | .refused r => .refused r
      | .failed _ written =>
        .done (takeSomeKeys (scramble s (reachable s addrs ++ written)) k) errMemory
      | .done t _ => .done (takeKeys t k) (BitVec.ofNat 32 k)

/-- A zero-terminated packed string: floor(k / 4) + 1 words, the bytes above the terminator zero (R171,
D40). -/
def stringLayout (cs : List Byte) : List Word := packedWords cs (cs.length / 4 + 1)

/-- One character in each word, not terminated (R173). -/
def wideLayout (cs : List Byte) : List Word := cs.map fun c => c.setWidth 32

/-- `$TERMINC` (R171). -/
def termInC (s : State) (cs : Word) : PeriResult := termIn s cs stringLayout

/-- `$TERMINW` (R173). -/
def termInW (s : State) (cs : Word) : PeriResult := termIn s cs wideLayout

/-- Some number of the characters read before a failure are printed (U6, log 25). -/
def printSome (s : State) (cs : List Byte) : State :=
  { print s (cs.take ((Config.freeWord s.draws).toNat % (cs.length + 1))) with
    draws := s.draws + 1 }

/-- `$TERMOUTC` and `$TERMOUTW` (R172, R174), by how a character is read. With a count of zero the
characters up to a zero are printed, and before unreadable memory what could be (R172 (b)); where they are
2^31 or more, their number as a word is the result all the same, negative and with ERR set: DESIGN CHOICE, the
spec states no result that fits (log 47). -/
def termOut (s : State) (cs : Word) (char : Word → Nat → Access Byte) : PeriResult :=
  orFail (ctlRead2 s cs) (.done s errReadParams) fun (n, m) =>
    if signed n < 0 then .refused (.negativeCount n)
    else if n = 0 then
      match scanToZero (char m) addressSpaceChars 0 with
      | .done chars => .done (print s chars) (BitVec.ofNat 32 chars.length)
      | .failed chars => .done (print s chars) errMemory
      | .refused r => .refused r
      | .never => .never
    else
      match scanCount (char m) n.toNat 0 with
      | .done chars => .done (print s chars) n
      | .failed chars => .done (printSome s chars) errMemory
      | .refused r => .refused r
      | .never => .never

/-- `$TERMOUTC` (R172). -/
def termOutC (s : State) (cs : Word) : PeriResult := termOut s cs (packedChar s)

/-- `$TERMOUTW` (R174): bits 31..8 of a word are ignored (U10, log 49). -/
def termOutW (s : State) (cs : Word) : PeriResult := termOut s cs (wideChar s)

end Sys2Proof.Machine
end

