-- ==== Sys2Proof/Machine/Peri.lean ====
section
/-! DEFINITION. PERI (44_peri_disc_tape.md R140, R142, R144). -/

namespace Sys2Proof.Machine

/-- The sixteen operations (R142). -/
def allPeriOps : List PeriOp :=
  [.discCheck, .discRead, .discWrite, .tapeCheck, .tapeRewind, .tapeLoad, .tapeUnload, .tapeRead,
    .tapeWrite, .termInC, .termOutC, .termInW, .termOutW, .seconds, .useconds, .dateTime]

/-- An operation's place in `PERI_CODE`. -/
def periIndex : PeriOp → Fin 16
  | .discCheck => 0 | .discRead => 1 | .discWrite => 2 | .tapeCheck => 3 | .tapeRewind => 4
  | .tapeLoad => 5 | .tapeUnload => 6 | .tapeRead => 7 | .tapeWrite => 8 | .termInC => 9
  | .termOutC => 10 | .termInW => 11 | .termOutW => 12 | .seconds => 13 | .useconds => 14
  | .dateTime => 15

/-- `PERI_CODE` of an operation (R142, log 14). -/
def periCodeOf (p : Params) (op : PeriOp) : Word := p.periCode[periIndex op]

/-- The operation whose code this word is. -/
def periOpOf (p : Params) (code : Word) : Option PeriOp :=
  allPeriOps.find? fun op => periCodeOf p op == code

/-- One operation on the control structure at `cs`. -/
def runPeri (s : State) (cs : Word) : PeriOp → PeriResult
  | .discCheck => discCheck s cs
  | .discRead => discRead s cs
  | .discWrite => discWrite s cs
  | .tapeCheck => tapeCheck s cs
  | .tapeRewind => tapeRewind s cs
  | .tapeLoad => tapeLoad s cs
  | .tapeUnload => tapeUnload s cs
  | .tapeRead => tapeRead s cs
  | .tapeWrite => tapeWrite s cs
  | .termInC => termInC s cs
  | .termOutC => termOutC s cs
  | .termInW => termInW s cs
  | .termOutW => termOutW s cs
  | .seconds => seconds s
  | .useconds => useconds s cs
  | .dateTime => dateTime s cs

/-- `Operation(cs)` (R144). -/
def operation (s : State) (cs : Word) : PeriResult :=
  orFail (ctlRead s cs 0) (.done s errReadParams) fun code =>
    match periOpOf s.params code with
    | none => .done s errBadCode
    | some op => runPeri s cs op

/-- The end of a PERI: the result in the main register, ERR from its sign (R140). -/
def reportResult (reg : Reg) (t : State) (code : Word) : State :=
  advance (setReg { t with flags := { t.flags with err := decide (signed code < 0) } } reg code)

/-- PERI (R140): privileged. -/
def execPeri (reg : Reg) (op : Operand) (s : State) : Host.Outcome State Fault Refusal :=
  if s.flags.sys then
    match (guardDestination reg).bind fun _ => operandValue s op with
    | .error (.raise i) => takeInterrupt i s
    | .error (.refuse r) => .refused r
    | .ok cs =>
      match operation s cs with
      | .done t code => finish s (.ok (reportResult reg t code))
      | .refused r => .refused r
      | .never => .fault .neverEnds
  else takeInterrupt (interruptAt .privOp s.pc) s

end Sys2Proof.Machine
end

