-- ==== Sys2Proof/Machine/SpecialRegs.lean ====
section
/-! DEFINITION. GETSR, SETSR, GETFL, SETFL, FLAGSJ (40_special_register_and_flag_instructions.md R90 to R94). -/

namespace Sys2Proof.Machine

/-- The special register named by an operand's value; a number outside 0..8 is refused (U3, log 20). -/
def namedSpecial (n : Word) : Access SpecialReg :=
  match specialOfNumber n with
  | some sr => .ok sr
  | none => refused (.specialRegisterNumber n)

/-- The flag named by an operand's value; a number outside 0..6 is refused (U3, log 20). -/
def namedFlag (n : Word) : Access FlagName :=
  match flagOfNumber n with
  | some f => .ok f
  | none => refused (.flagNumber n)

/-- GETSR (R90). -/
def execGetsr (reg : Reg) (op : Operand) (s : State) : Host.Outcome State Fault Refusal :=
  finish s <| (guardDestination reg).bind fun _ =>
    (operandValue s op).bind fun n =>
      (namedSpecial n).map fun sr => advance (setReg s reg (getSpecial s sr))

/-- SETSR (R91): privileged. -/
def execSetsr (reg : Reg) (op : Operand) (s : State) : Host.Outcome State Fault Refusal :=
  finish s <| privileged s <|
    (operandValue s op).bind fun n =>
      (namedSpecial n).map fun sr => advance (setSpecial s sr (getReg s reg))

/-- GETFL (R92). -/
def execGetfl (reg : Reg) (op : Operand) (s : State) : Host.Outcome State Fault Refusal :=
  finish s <| (guardDestination reg).bind fun _ =>
    (operandValue s op).bind fun n =>
      (namedFlag n).map fun f =>
        advance (setReg s reg (if s.flags.get f then 1 else 0))

/-- SETFL (R93): in user mode, PRIVOP when the operand names R, SYS, IP or VM, whatever the value
(D30). -/
def execSetfl (reg : Reg) (op : Operand) (s : State) : Host.Outcome State Fault Refusal :=
  finish s <| (operandValue s op).bind fun n =>
    (namedFlag n).bind fun f =>
      if !s.flags.sys && flagProtected f then raised (interruptAt .privOp s.pc)
      else .ok (advance { s with flags := s.flags.set f (getReg s reg != 0) })

/-- FLAGSJ (R94): privileged; the target is evaluated under the old flags (D12). -/
def execFlagsj (reg : Reg) (op : Operand) (s : State) : Host.Outcome State Fault Refusal :=
  finish s <| privileged s <|
    (operandValue s op).map fun t => jump { s with flags := Flags.ofWord (getReg s reg) } t

end Sys2Proof.Machine
end

