-- ==== Sys2Proof/Machine/System.lean ====
section
/-! DEFINITION. HALT, SYSCALL, IRET, PHLOAD, PHSTORE (43_system_instructions.md R130 to R135). -/

namespace Sys2Proof.Machine

/-- HALT (R130): interrupt 4 in user mode; in system mode R is cleared, and PC in the halted state is
a free value (D35, log 36). -/
def execHalt (s : State) : Host.Outcome State Fault Refusal :=
  finish s <|
    if s.flags.sys then
      .ok
        { s with
          flags := { s.flags with r := false }
          pc := Config.freeWord s.draws
          draws := s.draws + 1 }
    else raised (interruptAt .halt s.pc)

/-- The words of `SYSCALL_TRAILER` (R131): an unspecified one is a free word. -/
def trailerWords (draws : Nat) (index : Word) : List TrailerWord → List Content
  | [] => []
  | .const w :: rest => .word w :: trailerWords (draws + 1) index rest
  | .index :: rest => .word index :: trailerWords (draws + 1) index rest
  | .unspecified :: rest => .free draws :: trailerWords (draws + 1) index rest

/-- The words a SYSCALL pushes, in order (R131): the sixteen registers with PC + 1, the trailer, the
old flags, 38. -/
def callFrameWords (s : State) (index : Word) : List Content :=
  (savedRegisters s (s.pc + 1)).map .word ++
    (trailerWords s.draws index s.params.syscallTrailer ++
      [.word s.flags.toWord, .word frameMarker])

/-- The entry through a call gate (R131), all or nothing (R229). -/
def enterGate (s : State) (index gate : Word) : Access State :=
  let words := callFrameWords s index
  match storeAll (systemView s s.params.syscallSetsIP) [] (stackStores s.syssp words) with
  | .refused r => refused r
  | .failed i _ => raised i
  | .done t _ =>
    .ok
      { t with
        syssp := s.syssp - BitVec.ofNat 32 words.length
        pc := gate
        draws := s.draws + s.params.syscallTrailer.length }

/-- SYSCALL (R131): the index check, the gate word read under the caller's mode, the entry. -/
def execSyscall (op : Operand) (s : State) : Host.Outcome State Fault Refusal :=
  finish s <| (operandValue s op).bind fun index =>
    if signed index < 0 ∨ signed s.cglen ≤ signed index then raised (badCall s.pc index)
    else (readWord s (s.cgbr + index)).bind (enterGate s index)

/-- IRET (R132): privileged. -/
def execIret (s : State) : Host.Outcome State Fault Refusal :=
  finish s <| privileged s <| returnFromInterrupt s

/-- PHLOAD (R134): privileged; the operand's value is a physical address. -/
def execPhload (reg : Reg) (op : Operand) (s : State) : Host.Outcome State Fault Refusal :=
  finish s <| privileged s <| (guardDestination reg).bind fun _ =>
    (operandValue s op).bind fun p => (physRead s p).map fun v => advance (setReg s reg v)

/-- PHSTORE (R135): privileged; the operand's value is a physical address. -/
def execPhstore (reg : Reg) (op : Operand) (s : State) : Host.Outcome State Fault Refusal :=
  finish s <| privileged s <|
    (operandValue s op).bind fun p => (physWrite s p (getReg s reg)).map advance

end Sys2Proof.Machine
end

