-- ==== Sys2Proof/Machine/Dispatch.lean ====
section
/-! DEFINITION. One arm per constructor of Instr: the meaning of each instruction. -/

namespace Sys2Proof.Machine

def exec (i : Instr) (s : State) : Host.Outcome State Fault Refusal :=
  match i with
  | .getsr reg op => Sys2Proof.Machine.execGetsr reg op s
  | .setsr reg op => Sys2Proof.Machine.execSetsr reg op s
  | .getfl reg op => Sys2Proof.Machine.execGetfl reg op s
  | .setfl reg op => Sys2Proof.Machine.execSetfl reg op s
  | .flagsj reg op => Sys2Proof.Machine.execFlagsj reg op s
  | .sbit reg op => Sys2Proof.Machine.execSbit reg op s
  | .cbit reg op => Sys2Proof.Machine.execCbit reg op s
  | .exbr reg op => Sys2Proof.Machine.execExbr reg op s
  | .dpbr reg op => Sys2Proof.Machine.execDpbr reg op s
  | .exbrv reg op => Sys2Proof.Machine.execExbrv reg op s
  | .dpbrv reg op => Sys2Proof.Machine.execDpbrv reg op s
  | .load reg op => Sys2Proof.Machine.execLoad reg op s
  | .store reg op => Sys2Proof.Machine.execStore reg op s
  | .inc op => Sys2Proof.Machine.execInc op s
  | .push op => Sys2Proof.Machine.execPush op s
  | .call op => Sys2Proof.Machine.execCall op s
  | .ret => Sys2Proof.Machine.execRet s
  | .comp reg op => Sys2Proof.Machine.execComp reg op s
  | .compz reg op => Sys2Proof.Machine.execCompz reg op s
  | .jcond cond op => Sys2Proof.Machine.execJcond cond op s
  | .halt => Sys2Proof.Machine.execHalt s
  | .syscall op => Sys2Proof.Machine.execSyscall op s
  | .iret => Sys2Proof.Machine.execIret s
  | .phload reg op => Sys2Proof.Machine.execPhload reg op s
  | .phstore reg op => Sys2Proof.Machine.execPhstore reg op s
  | .peri reg op => Sys2Proof.Machine.execPeri reg op s

end Sys2Proof.Machine
end

