-- ==== Sys2Proof/Machine/Cycle.lean ====
section
/-! DEFINITION. One step of the CPU agent (60_exceptions.md R223) around `exec`: the environment, the
keyboard interrupt, the debug trap, the fetch, the decoder, the timer. The decoder is an argument
(30_encoding.md R78). -/

namespace Sys2Proof.Machine

/-- One act of the environment (70_reset_and_hazards.md R244, R245): a key enters the buffer only while
the emulator is running. -/
def applyEvent (s : State) : HostEvent → State
  | .key c => if s.running then { s with keyboard := s.keyboard ++ [c] } else s
  | .setRunning b => { s with running := b }
  | .putFile f => { s with files := storeFile f s.files }

/-- What the environment does at this boundary: the first list of `arrivals` (log 33). -/
def environment (s : State) : State :=
  match s.arrivals with
  | [] => s
  | events :: rest => { events.foldl applyEvent s with arrivals := rest }

/-- Whether KEYBD is signalled at this boundary (R225, step 1 of R223). -/
def keyboardSignals (s : State) : Bool :=
  !s.flags.ip && s.running && !s.keyboard.isEmpty

/-- The fetch at PC (R60, step 3 of R223). -/
def fetch (s : State) : Access Word := readWord s s.pc

/-- Steps 2 to 6 of R223: the debug trap, the fetch, the decoder, the instruction. -/
def runInstruction (dec : Word → Option Instr) (s : State) : Host.Outcome State Fault Refusal :=
  if s.pc = s.debug then takeInterrupt (interruptAt .debug s.pc) s
  else
    match fetch s with
    | .error (.raise i) => takeInterrupt i s
    | .error (.refuse r) => .refused r
    | .ok w =>
      match dec w with
      | none => takeInterrupt (interruptAt .unimpOp s.pc) s
      | some i => exec i s

/-- Step 7 of R223 in the state after an instruction (R224): counted only when the instruction
completed, and not once the CPU is halted (R236; log 13). -/
def countDown (s : State) : Host.Outcome State Fault Refusal :=
  if s.retired && s.flags.r && s.timer != 0 then
    let t := { s with timer := s.timer - 1 }
    if t.timer = 0 then takeInterrupt (notification .timer) t else .next t
  else .next s

/-- Steps 2 to 7 of R223. -/
def instructionAndTimer (dec : Word → Option Instr) (s : State) :
    Host.Outcome State Fault Refusal :=
  match runInstruction dec s with
  | .next t => countDown t
  | .fault r => .fault r
  | .refused r => .refused r

/-- Steps 1 to 7 of R223, from the state at the boundary. -/
def boundary (dec : Word → Option Instr) (s : State) : Host.Outcome State Fault Refusal :=
  if keyboardSignals s then
    match raise (notification .keybd) s with
    | .entered t => .next t
    | .dropped => instructionAndTimer dec s
    | .stopped c addr last => stop c addr last
    | .refused r => .refused r
  else instructionAndTimer dec s

/-- Between two steps the wire `retired` is down (log 10). -/
def settle : Host.Outcome State Fault Refusal → Host.Outcome State Fault Refusal
  | .next t => .next { t with retired := false }
  | .fault r => .fault r
  | .refused r => .refused r

/-- One step under a decoder (R223). A halted CPU takes no step (step 0, R236; log 11). -/
def stepWith (dec : Word → Option Instr) (s : State) : Host.Outcome State Fault Refusal :=
  if s.flags.r = false then .next s else settle (boundary dec (environment s))

/-- Stores a word where the next fetch reads it (log 41). -/
def placeAtPc (s : State) (w : Word) : State :=
  match translate s s.pc with
  | .ok p => { s with mem := s.mem.put p (.word w) }
  | .error _ => s

end Sys2Proof.Machine
end

