-- ==== Sys2Proof/Machine/Step.lean ====
section
/-! DEFINITION. The machine's step, and the placing of one instruction where it fetches. -/

namespace Sys2Proof.Machine

/-- One step of the machine, with the model's own decoder (log 1). -/
def step (s : State) : Host.Outcome State Fault Refusal := stepWith decode s

/-- The state with an instruction word stored where the next step fetches (log 41). -/
def State.withFetchWord (s : State) (nbits w : Nat) : State :=
  placeAtPc s (BitVec.ofNat 32 (w % 2 ^ nbits))

end Sys2Proof.Machine
end

