-- ==== Sys2Proof/Safety.lean ====
section
/-! DEFINITION. The terms in which the statements are written: what an instruction leaves unchanged, the
machine's invariants, halted states and safe runs. -/

namespace Sys2Proof.Machine

/-! ### Frames -/

/-- The special registers that only SETSR (and, for TIMER, the count) writes are unchanged. -/
structure SameSpecials (s t : State) : Prop where
  pdbr : t.pdbr = s.pdbr
  intvec : t.intvec = s.intvec
  cgbr : t.cgbr = s.cgbr
  cglen : t.cglen = s.cglen
  debug : t.debug = s.debug
  timer : t.timer = s.timer

/-- R0 .. R12 and both banks of SP and FP are unchanged. -/
structure SameRegisters (s t : State) : Prop where
  gpr : t.gpr = s.gpr
  usp : t.usp = s.usp
  ufp : t.ufp = s.ufp
  syssp : t.syssp = s.syssp
  sysfp : t.sysfp = s.sysfp

/-- Discs, tapes, keyboard buffer, screen and host files are unchanged. -/
structure SameDevices (s t : State) : Prop where
  discs : t.discs = s.discs
  tapes : t.tapes = s.tapes
  keyboard : t.keyboard = s.keyboard
  screen : t.screen = s.screen
  files : t.files = s.files

/-- The host's settings, the launch parameters and the host's coming inputs are unchanged. -/
structure SameHost (s t : State) : Prop where
  running : t.running = s.running
  params : t.params = s.params
  arrivals : t.arrivals = s.arrivals
  answers : t.answers = s.answers
  clock : t.clock = s.clock

/-- Every word of memory reads as before. -/
def SameMemory (s t : State) : Prop := ∀ q : Word, t.mem.read q = s.mem.read q

/-- Every word of memory but those stored to reads as before. -/
def MemoryOutside (s t : State) (stored : Word → Prop) : Prop :=
  ∀ q : Word, ¬ stored q → t.mem.read q = s.mem.read q

/-- SP and FP of the mode the CPU is not in. -/
def dormantBank (s : State) : Word × Word :=
  if s.flags.sys then (s.usp, s.ufp) else (s.syssp, s.sysfp)

/-- The mode is unchanged, and so is every register of R11 but `reg` and PC, and the other mode's SP
and FP. -/
structure OnlyRegister (s t : State) (reg : Reg) : Prop where
  mode : t.flags.sys = s.flags.sys
  others : ∀ r : Reg, r ≠ reg → r ≠ .pc → getReg t r = getReg s r
  dormant : dormantBank t = dormantBank s

/-- Nothing but registers and PC has changed: flags, special registers, memory, devices, host. -/
structure RegisterOnly (s t : State) : Prop where
  flags : t.flags = s.flags
  specials : SameSpecials s t
  memory : SameMemory s t
  devices : SameDevices s t
  host : SameHost s t

/-- Nothing but flags and PC has changed. -/
structure FlagsOnly (s t : State) : Prop where
  registers : SameRegisters s t
  specials : SameSpecials s t
  memory : SameMemory s t
  devices : SameDevices s t
  host : SameHost s t

/-- Nothing but PC and the word of memory at physical address `p` has changed. -/
structure WordOnly (s t : State) (p : Word) : Prop where
  flags : t.flags = s.flags
  registers : SameRegisters s t
  specials : SameSpecials s t
  memory : MemoryOutside s t (· = p)
  devices : SameDevices s t
  host : SameHost s t

/-! ### PERI -/

/-- The start of PERI operation `k` (44_peri_disc_tape.md R140, R144): system mode, a result register,
a readable operation code at the control structure `cs`. -/
structure PeriStarts (s : State) (reg : Reg) (op : Operand) (cs : Word) (k : PeriOp) : Prop where
  mode : s.flags.sys = true
  result : reg ≠ .pc
  structureAt : operandValue s op = .ok cs
  codes : s.params.wellFormed = true
  code : readWord s cs = .ok (periCodeOf s.params k)

/-- The end of a PERI (R140): the result code in the main register, ERR its sign, PC one on; every other
register, flag and special register unchanged. -/
structure PeriEnds (s t : State) (reg : Reg) (code : Word) : Prop where
  result : getReg t reg = code
  flags : t.flags = { s.flags with err := decide (signed code < 0) }
  registers : OnlyRegister s t reg
  specials : SameSpecials s t
  pc : t.pc = s.pc + 1
  params : t.params = s.params
  running : t.running = s.running

/-- `n` words of physical memory from address `m` on exist, and addresses are not translated. -/
structure PlainBuffer (s : State) (m : Word) (n : Nat) : Prop where
  untranslated : s.flags.vm = false
  present : m.toNat + n ≤ s.params.physWords
  addresses : s.params.physWords ≤ 2 ^ 32

/-- The physical words of a buffer. -/
def inBuffer (m : Word) (n : Nat) (q : Word) : Prop := m.toNat ≤ q.toNat ∧ q.toNat < m.toNat + n

/-! ### Interrupt entry -/

/-- The address of the `k`-th word of an interrupt frame (60_exceptions.md R207: the first pushed lies
just below the system stack pointer). -/
def frameAddress (s : State) (k : Fin 21) : Word := s.syssp - 1 - BitVec.ofNat 32 k.val

/-- The state in the middle of an entry: system privilege, and memory as the pushes have left it. -/
def duringEntry (s : State) (m : Memory) : State := { systemView s true with mem := m }

/-- A memory that differs from that of `s` in the first `n` physical words `slot` at most. -/
def PushedInto (s : State) (slot : Fin 21 → Word) (n : Nat) (m : Memory) : Prop :=
  ∀ q : Word, (∀ k : Fin 21, k.val < n → q ≠ slot k) → m.read q = s.mem.read q

/-- The first `n` words of an interrupt frame can be pushed, to the physical words `slot`: those are
present, and the words below the system stack pointer translate to them, whatever the pushes have put into
them. With VM = 0 the physical words are the addresses themselves. -/
structure PushesReach (s : State) (slot : Fin 21 → Word) (n : Nat) : Prop where
  present : ∀ k : Fin 21, k.val < n → present s (slot k) = true
  maps : ∀ m : Memory, PushedInto s slot n m → ∀ k : Fin 21, k.val < n →
    translate (duringEntry s m) (frameAddress s k) = .ok (slot k)

/-- The first `n` words of an interrupt frame can be pushed and the next one cannot, whatever the pushes
before it have put into memory. -/
structure PushFails (s : State) (slot : Fin 21 → Word) (n : Fin 21) : Prop where
  reached : PushesReach s slot n.val
  fails : ∀ m : Memory, PushedInto s slot n.val m →
    ∃ i, readWord (duringEntry s m) (frameAddress s n) = raised i

/-- What the vector entry of interrupt `c` reads as, with the system privilege it is read with
(60_exceptions.md R205 (a)). -/
def vectorEntry (s : State) (c : IntCode) : Access Word :=
  readWord (systemView s true) (s.intvec + codeWord c)

/-- Interrupt `c` has a handler at a readable vector entry, and the 21 words of its frame can be pushed,
to the physical words `slot`, with or without translation. -/
structure CanEnter (s : State) (c : IntCode) (handler : Word) (slot : Fin 21 → Word) : Prop where
  entryIs : vectorEntry s c = .ok handler
  handled : handler ≠ 0
  stack : PushesReach s slot 21

/-- What the handler finds (60_exceptions.md R205, R207): the frame of `s` in the physical words `slot`,
the modes, PC, SP; nothing else has changed. -/
structure HandlerEntered (s t : State) (c : IntCode) (handler : Word) (slot : Fin 21 → Word) :
    Prop where
  pc : t.pc = handler
  flags : t.flags = { s.flags with sys := true, ip := true }
  stackPointer : t.syssp = s.syssp - 21
  savedR : ∀ i : Fin 13, t.mem.read (slot ⟨i.val, by omega⟩) = s.gpr[i]
  savedSp : t.mem.read (slot 13) = getReg s .sp
  savedFp : t.mem.read (slot 14) = getReg s .fp
  savedPc : t.mem.read (slot 15) = s.pc
  savedCode : t.mem.read (slot 18) = codeWord c
  savedFlags : t.mem.read (slot 19) = s.flags.toWord
  marker : t.mem.read (slot 20) = 38
  memory : MemoryOutside s t fun q => ∃ k, q = slot k
  gpr : t.gpr = s.gpr
  userSp : t.usp = s.usp
  userFp : t.ufp = s.ufp
  systemFp : t.sysfp = s.sysfp
  specials : SameSpecials s t
  devices : SameDevices s t
  host : SameHost s t

/-- The state that a run stops in whose interrupt was raised in `s` (60_exceptions.md R210): `s` itself, but
for the words that the abandoned pushes of a frame may have reached (R205 (e), U12). -/
structure StoppedIn (s last : State) : Prop where
  state : last = { s with mem := last.mem, draws := last.draws, retired := false }
  pushed : ∀ slot n, PushFails s slot n →
    MemoryOutside s last fun q => ∃ k : Fin 21, k.val < n.val ∧ q = slot k
  plain : s.flags.vm = false → MemoryOutside s last fun q => ∃ k, q = frameAddress s k

/-! ### Invariants -/

/-- Memory is canonical and lists present words only (20_memory.md R42). -/
structure MemoryGood (s : State) : Prop where
  canonical : s.mem.wf
  present : ∀ c ∈ s.mem, c.1 < s.params.physWords

/-- Every drive lists words of its own blocks, in order (10_state.md R33). -/
def DiscsGood (s : State) : Prop :=
  ∀ (i : Fin 8) (disc : Disc), s.discs[i] = some disc →
    Sparse.sorted disc.written ∧ ∀ c ∈ disc.written, c.1 < 128 * disc.size

/-! ### Runs -/

/-- The halted state (60_exceptions.md R236). -/
def State.halted (s : State) : Prop := s.flags.r = false

/-- A run of `k` steps that meets no fault and no refusal. -/
def safeFor (k : Nat) (s : State) : Prop := ∃ t, Host.Core.run Sys2Proof.core k s = .next t

end Sys2Proof.Machine
end

