-- ==== Sys2Proof/Certificates/Slice0/Obligations.lean ====
section
/-! DEFINITION. The statements for the provers, family by family. Each docstring says which rule of spec/ its
statement formalises, or which choice of the model it states. -/

open Sys2Proof Sys2Proof.Machine

/-! ### Start-up and encoding -/

/-- 10_state.md R38: the start-up values it gives: SYS = 1, IP = 1, VM = 0 by the source; R = 1 and unloaded
tapes, which the rule marks as derived; an empty keyboard buffer, which it leaves to decision D20 (log 39,
the model's choice). Nothing is said of the other values, which the model names. -/
def Obligations.StartUpValues : Prop :=
  State.reset.flags.sys = true ∧ State.reset.flags.ip = true ∧ State.reset.flags.vm = false ∧
    State.reset.flags.r = true ∧ (∀ i : Fin 8, State.reset.tapes[i] = none) ∧
    State.reset.keyboard = []

/-- The start-up state meets the two invariants that every step keeps (`StepKeepsMemoryGood`,
`StepKeepsDiscsGood`). Its memory lists nothing and no drive is configured: the model's choice (log 7,
log 34). -/
def Obligations.StartUpIsGood : Prop := MemoryGood State.reset ∧ DiscsGood State.reset

/-- The MODEL's binary format (DESIGN CHOICE, log 1): the decoder reads every well-formed instruction
back from its word, whatever its registers and its number. -/
def Obligations.DecodeOfEncode : Prop :=
  ∀ i : Instr, i.wellFormed = true → decode (encode i) = some i

/-- The MODEL's binary format (log 1): a word that decodes is the word of a well-formed instruction, so
each instruction has one word. -/
def Obligations.EncodeOfDecode : Prop :=
  ∀ (w : Word) (i : Instr), decode w = some i → i.wellFormed = true ∧ encode i = w

/-- Words written out field by field from the MODEL's format (log 1), one of each family. -/
def Obligations.WordsDecodeAsWritten : Prop :=
  decode 0b000001_00_0001_0000_0000000000000000#32 = some (.getsr (.r 1) (.imm 0)) ∧
  decode 0b000110_00_0001_0000_0000000000000110#32 = some (.sbit (.r 1) (.imm 6)) ∧
  decode 0b001101_11_0001_0010_0000000000000001#32 = some (.store (.r 1) (.mem (.r 2) 1)) ∧
  decode 0b001100_01_1110_1101_0000000000000000#32 = some (.load .fp (.reg .sp)) ∧
  decode 0b010111_00_0000_0000_0000000000000000#32 = some .iret ∧
  decode 0b011010_10_0011_0000_1111111111111111#32 = some (.peri (.r 3) (.memAt 0xFFFFFFFF))

/-! ### Translation -/

/-- 20_memory.md R44 and R49, in arithmetic: the identity with VM = 0; with VM = 1 the walk and its
faults in their order; then the access to the word itself. The numbers are those of R45: ten bits of
directory index, eleven of page number and offset. That a PDBR that is no multiple of 1024 is refused is a
DESIGN CHOICE (log 22, after R46 and decision D29; R49's own pseudocode masks the low bits). -/
def Obligations.TranslationWalk : Prop :=
  ∀ (s : State) (a : Word),
    (s.flags.vm = false → translate s a = .ok a) ∧
    (s.flags.vm = true → s.pdbr.toNat % 1024 ≠ 0 →
      translate s a = refused (.pageDirectoryMisaligned s.pdbr)) ∧
    (s.flags.vm = true → s.pdbr.toNat % 1024 = 0 →
      let pos : Word := s.pdbr + BitVec.ofNat 32 (a.toNat / 2 ^ 22)
      (present s pos = false → translate s a = raised (interruptAt .memory pos)) ∧
      (present s pos = true → s.mem.read pos = 0 →
        translate s a = raised (interruptAt .pageFault a)) ∧
      (present s pos = true → s.mem.read pos ≠ 0 →
        let slot : Word := BitVec.ofNat 32
          ((s.mem.read pos).toNat / 2048 * 2048 + a.toNat / 2 ^ 11 % 2048)
        (present s slot = false → translate s a = raised (interruptAt .memory slot)) ∧
        (present s slot = true →
          let entry := s.mem.read slot
          (entry.toNat % 2 = 0 → translate s a = raised (interruptAt .pageFault a)) ∧
          (entry.toNat % 4 = 3 → s.flags.sys = false →
            translate s a = raised (interruptAt .pagePriv a)) ∧
          (entry.toNat % 2 = 1 → (entry.toNat % 4 = 1 ∨ s.flags.sys = true) →
            translate s a =
              .ok (BitVec.ofNat 32 (entry.toNat / 2048 * 2048 + a.toNat % 2048)))))) ∧
    (∀ p v, translate s a = .ok p →
      (present s p = true → readWord s a = .ok (s.mem.read p) ∧
        ∃ t, writeWord s a v = .ok t ∧ t.mem.read p = v ∧ WordOnly s t p) ∧
      (present s p = false → readWord s a = raised (interruptAt .memory p) ∧
        writeWord s a v = raised (interruptAt .memory p))) ∧
    (∀ i v, translate s a = raised i → readWord s a = raised i ∧ writeWord s a v = raised i)

/-- 20_memory.md R51: a translation depends on nothing but VM, SYS, PDBR and the words of memory now;
no earlier walk is remembered. That is decision D27, the spec's own where its source is silent, and the
model's choice with it (log 4). -/
def Obligations.TranslationHasNoMemory : Prop :=
  ∀ (s t : State) (a : Word), t.flags.vm = s.flags.vm → t.flags.sys = s.flags.sys →
    t.pdbr = s.pdbr → t.params.physWords = s.params.physWords → SameMemory s t →
    translate t a = translate s a

/-! ### Special registers and flags -/

/-- 40_special_register_and_flag_instructions.md R90: GETSR puts the special register its operand names
into `reg` and changes nothing else; an operand that faults interrupts. That a number above 8 is refused is
U3 and D31, a DESIGN CHOICE (log 20); that the destination PC is refused is N6, as the model reads it (log
19); that bits 31 to 7 of FLAGS read as zero is D7 (log 4). -/
def Obligations.GetsrReadsSpecialRegister : Prop :=
  ∀ (reg : Reg) (op : Operand) (s : State),
    (∀ n sr, reg ≠ .pc → operandValue s op = .ok n → specialOfNumber n = some sr →
      ∃ t, exec (.getsr reg op) s = .next t ∧ getReg t reg = getSpecial s sr ∧
        OnlyRegister s t reg ∧ RegisterOnly s t ∧ t.pc = s.pc + 1) ∧
    (∀ n, reg ≠ .pc → operandValue s op = .ok n → 8 < n.toNat →
      exec (.getsr reg op) s = .refused (.specialRegisterNumber n)) ∧
    (∀ i, reg ≠ .pc → operandValue s op = raised i →
      exec (.getsr reg op) s = takeInterrupt i s) ∧
    (reg = .pc → exec (.getsr reg op) s = .refused .pcAsDestination)

/-- 40_special_register_and_flag_instructions.md R91: SETSR in system mode stores the register into the
special register its operand names, leaves every other special register, register, word of memory and
device as it was, and moves PC on; an operand that faults interrupts; in user mode it is PRIVOP at its own
address. That FLAGS takes the low seven bits is D7 (log 4), that a number above 8 is refused is U3 and D31, a
DESIGN CHOICE (log 20), and that PC moves on where R is cleared too is log 40. -/
def Obligations.SetsrWritesSpecialRegister : Prop :=
  ∀ (reg : Reg) (op : Operand) (s : State),
    (∀ n sr, s.flags.sys = true → operandValue s op = .ok n → specialOfNumber n = some sr →
      ∃ t, exec (.setsr reg op) s = .next t ∧
        getSpecial t sr = (if sr = .flags then getReg s reg &&& 127 else getReg s reg) ∧
        (∀ other, other ≠ sr → getSpecial t other = getSpecial s other) ∧
        t.gpr = s.gpr ∧ t.usp = s.usp ∧ t.ufp = s.ufp ∧
        SameMemory s t ∧ SameDevices s t ∧ SameHost s t ∧ t.pc = s.pc + 1) ∧
    (∀ n, s.flags.sys = true → operandValue s op = .ok n → 8 < n.toNat →
      exec (.setsr reg op) s = .refused (.specialRegisterNumber n)) ∧
    (∀ i, s.flags.sys = true → operandValue s op = raised i →
      exec (.setsr reg op) s = takeInterrupt i s) ∧
    (s.flags.sys = false →
      exec (.setsr reg op) s = takeInterrupt (interruptAt .privOp s.pc) s)

/-- 40_special_register_and_flag_instructions.md R92: GETFL delivers one bit of the flags word as 0 or 1 and
changes nothing else; an operand that faults interrupts. That a number above 6 is refused is U3 and D31, a
DESIGN CHOICE (log 20). -/
def Obligations.GetflReadsOneFlag : Prop :=
  ∀ (reg : Reg) (op : Operand) (s : State), reg ≠ .pc →
    (∀ n, operandValue s op = .ok n → n.toNat ≤ 6 →
      ∃ t, exec (.getfl reg op) s = .next t ∧
        getReg t reg = (getSpecial s .flags >>> n.toNat) &&& 1 ∧
        OnlyRegister s t reg ∧ RegisterOnly s t ∧ t.pc = s.pc + 1) ∧
    (∀ n, operandValue s op = .ok n → 6 < n.toNat →
      exec (.getfl reg op) s = .refused (.flagNumber n)) ∧
    (∀ i, operandValue s op = raised i → exec (.getfl reg op) s = takeInterrupt i s)

/-- 40_special_register_and_flag_instructions.md R93: SETFL changes one bit of the flags word to "the
register is not zero"; in user mode R, SYS, IP and VM give PRIVOP, whatever the value (decision D30, the
spec's own, log 4), and Z, N and ERR are written freely; a number above 6 is refused (U3, log 20). -/
def Obligations.SetflSetsOneFlag : Prop :=
  ∀ (reg : Reg) (op : Operand) (s : State),
    (∀ i, operandValue s op = raised i → exec (.setfl reg op) s = takeInterrupt i s) ∧
    ∀ n, operandValue s op = .ok n →
    (n.toNat ≤ 6 → (s.flags.sys = true ∨ (1 ≤ n.toNat ∧ n.toNat ≤ 3)) →
      ∃ t, exec (.setfl reg op) s = .next t ∧
        (∀ j, t.flags.toWord.getLsbD j =
          if j = n.toNat then getReg s reg != 0 else s.flags.toWord.getLsbD j) ∧
        FlagsOnly s t ∧ t.pc = s.pc + 1) ∧
    (n.toNat ≤ 6 → s.flags.sys = false → (n.toNat = 0 ∨ 4 ≤ n.toNat) →
      exec (.setfl reg op) s = takeInterrupt (interruptAt .privOp s.pc) s) ∧
    (6 < n.toNat → exec (.setfl reg op) s = .refused (.flagNumber n))

/-- 40_special_register_and_flag_instructions.md R94: FLAGSJ writes all seven flags and PC in one step. That
the target is evaluated under the old flags is decision D12, the spec's own (log 4). -/
def Obligations.FlagsjSetsFlagsAndJumps : Prop :=
  ∀ (reg : Reg) (op : Operand) (s : State),
    (∀ target, s.flags.sys = true → operandValue s op = .ok target →
      ∃ t, exec (.flagsj reg op) s = .next t ∧ t.flags.toWord = getReg s reg &&& 127 ∧
        t.pc = target ∧ FlagsOnly s t) ∧
    (∀ i, s.flags.sys = true → operandValue s op = raised i →
      exec (.flagsj reg op) s = takeInterrupt i s) ∧
    (s.flags.sys = false →
      exec (.flagsj reg op) s = takeInterrupt (interruptAt .privOp s.pc) s)

/-! ### Bits and bit ranges -/

/-- 41_bit_instructions.md R100 and R101: SBIT sets and CBIT clears exactly the numbered bit of `reg`. The
reading of the mnemonics is from general knowledge, that no flag changes is decision D47 (log 4), and that a
bit number above 31 is refused is U4 (log 20): the spec's own choices, not its source's. -/
def Obligations.SbitCbitChangeOneBit : Prop :=
  ∀ (reg : Reg) (op : Operand) (s : State), reg ≠ .pc →
    (∀ i, operandValue s op = raised i → exec (.sbit reg op) s = takeInterrupt i s ∧
      exec (.cbit reg op) s = takeInterrupt i s) ∧
    ∀ n, operandValue s op = .ok n →
    (n.toNat < 32 →
      (∃ t, exec (.sbit reg op) s = .next t ∧
        (∀ j, j < 32 → (getReg t reg).getLsbD j =
          if j = n.toNat then true else (getReg s reg).getLsbD j) ∧
        OnlyRegister s t reg ∧ RegisterOnly s t ∧ t.pc = s.pc + 1) ∧
      (∃ t, exec (.cbit reg op) s = .next t ∧
        (∀ j, j < 32 → (getReg t reg).getLsbD j =
          if j = n.toNat then false else (getReg s reg).getLsbD j) ∧
        OnlyRegister s t reg ∧ RegisterOnly s t ∧ t.pc = s.pc + 1)) ∧
    (32 ≤ n.toNat → exec (.sbit reg op) s = .refused (.bitNumber n) ∧
      exec (.cbit reg op) s = .refused (.bitNumber n))

/-- 41_bit_instructions.md R104: bit by bit, a deposit changes the range to the value's low bits and no
other bit. That the value's higher bits are dropped is the spec's own reading (U5, log 21). -/
def Obligations.DepositBits : Prop :=
  ∀ w d v : Word, rangeRight d + rangeLength d ≤ 32 → ∀ j, j < 32 →
    (deposit w d v).getLsbD j =
      if rangeRight d ≤ j ∧ j < rangeRight d + rangeLength d then v.getLsbD (j - rangeRight d)
      else w.getLsbD j

/-- 41_bit_instructions.md R102: the three parts of a descriptor, from the formula
D = (SKIP << 10) | (RIGHT << 5) | LEN5. -/
def Obligations.DescriptorParts : Prop :=
  ∀ skip right len5 : Nat, skip < 2 ^ 22 → right < 32 → len5 < 32 →
    rangeSkip (BitVec.ofNat 32 (skip * 1024 + right * 32 + len5)) = BitVec.ofNat 32 skip ∧
    rangeRight (BitVec.ofNat 32 (skip * 1024 + right * 32 + len5)) = right ∧
    rangeLength (BitVec.ofNat 32 (skip * 1024 + right * 32 + len5)) =
      if len5 = 0 then 32 else len5

/-- 41_bit_instructions.md R105 and R107, for every assignment of the roles the source leaves open, one for
each instruction (log 15): EXBR delivers the field of its operand's value, EXBRV that of the word SKIP words
after the operand's address. That nothing but the result register changes, no flag above all, is the model's
own DESIGN CHOICE (log 15: R105 says "Flags, interrupts: not stated", R107 nothing); that a range past bit 31
is refused is U5, a DESIGN CHOICE (log 21). A result register that is PC is in `PcIsNoDestination`. -/
def Obligations.ExtractInstructionsDeliverField : Prop :=
  ∀ (reg : Reg) (op : Operand) (s : State),
    (∀ i, operandValue s op = raised i →
      (roleReg reg s.params.exbrRoles.result ≠ .pc →
        exec (.exbr reg op) s = takeInterrupt i s) ∧
      (roleReg reg s.params.exbrvRoles.result ≠ .pc →
        exec (.exbrv reg op) s = takeInterrupt i s)) ∧
    ∀ v, operandValue s op = .ok v →
    (let roles := s.params.exbrRoles
     let d := getReg s (roleReg reg roles.descriptor)
     let dest := roleReg reg roles.result
     dest ≠ .pc →
      (rangeRight d + rangeLength d ≤ 32 →
        ∃ t, exec (.exbr reg op) s = .next t ∧
          (∀ j, j < 32 → (getReg t dest).getLsbD j =
            if j < rangeLength d then v.getLsbD (rangeRight d + j)
            else roles.signExtended && v.getLsbD (rangeRight d + rangeLength d - 1)) ∧
          OnlyRegister s t dest ∧ RegisterOnly s t ∧ t.pc = s.pc + 1) ∧
      (32 < rangeRight d + rangeLength d →
        exec (.exbr reg op) s = .refused (.rangePastBit31 d))) ∧
    (let roles := s.params.exbrvRoles
     let d := getReg s (roleReg reg roles.descriptor)
     let dest := roleReg reg roles.result
     dest ≠ .pc →
     (∀ i, readWord s (v + rangeSkip d) = raised i →
        exec (.exbrv reg op) s = takeInterrupt i s) ∧
     ∀ w, readWord s (v + rangeSkip d) = .ok w →
      (rangeRight d + rangeLength d ≤ 32 →
        ∃ t, exec (.exbrv reg op) s = .next t ∧
          (∀ j, j < 32 → (getReg t dest).getLsbD j =
            if j < rangeLength d then w.getLsbD (rangeRight d + j)
            else roles.signExtended && w.getLsbD (rangeRight d + rangeLength d - 1)) ∧
          OnlyRegister s t dest ∧ RegisterOnly s t ∧ t.pc = s.pc + 1) ∧
      (32 < rangeRight d + rangeLength d →
        exec (.exbrv reg op) s = .refused (.rangePastBit31 d)))

/-- 41_bit_instructions.md R106 and R108, for every assignment of the open roles, one for each instruction
(log 15): DPBR replaces the range in its operand, a register or a word of memory; DPBRV replaces it in the
word SKIP words after its operand's address. That a number as DPBR's operand is UNWROP, and that DPBRV takes
one as an address, are the spec's inferences, marked so in R106 and R108. That nothing else changes, no flag
above all, is the model's own DESIGN CHOICE (log 15: R106 says of flags "not stated", R108 nothing); that a
range past bit 31 is refused, once the operand or the word is read, is U5, a DESIGN CHOICE (log 21). PC as
DPBR's operand is in `PcIsNoDestination`. -/
def Obligations.DepositInstructionsReplaceRange : Prop :=
  ∀ (reg : Reg) (op : Operand) (s : State),
    (∀ i, operandValue s op = raised i → exec (.dpbr reg op) s = takeInterrupt i s ∧
      exec (.dpbrv reg op) s = takeInterrupt i s) ∧
    (let d := getReg s (roleReg reg s.params.dpbrRoles.descriptor)
     let v := getReg s (roleReg reg s.params.dpbrRoles.value)
     (rangeRight d + rangeLength d ≤ 32 →
      (∀ r, op = .reg r → r ≠ .pc →
        ∃ t, exec (.dpbr reg op) s = .next t ∧ getReg t r = deposit (getReg s r) d v ∧
          OnlyRegister s t r ∧ RegisterOnly s t ∧ t.pc = s.pc + 1) ∧
      (∀ a p, operandAddress s op = some a → translate s a = .ok p → present s p = true →
        ∃ t, exec (.dpbr reg op) s = .next t ∧ t.mem.read p = deposit (s.mem.read p) d v ∧
          WordOnly s t p ∧ t.pc = s.pc + 1) ∧
      (∀ n, op = .imm n →
        exec (.dpbr reg op) s = takeInterrupt (interruptAt .unwrOp s.pc) s)) ∧
     (32 < rangeRight d + rangeLength d → ∀ w, operandValue s op = .ok w →
      exec (.dpbr reg op) s = .refused (.rangePastBit31 d))) ∧
    (let d := getReg s (roleReg reg s.params.dpbrvRoles.descriptor)
     let v := getReg s (roleReg reg s.params.dpbrvRoles.value)
     (∀ base i, operandValue s op = .ok base → readWord s (base + rangeSkip d) = raised i →
      exec (.dpbrv reg op) s = takeInterrupt i s) ∧
     ∀ base p, operandValue s op = .ok base → translate s (base + rangeSkip d) = .ok p →
      present s p = true →
      (rangeRight d + rangeLength d ≤ 32 →
        ∃ t, exec (.dpbrv reg op) s = .next t ∧ t.mem.read p = deposit (s.mem.read p) d v ∧
          WordOnly s t p ∧ t.pc = s.pc + 1) ∧
      (32 < rangeRight d + rangeLength d →
        exec (.dpbrv reg op) s = .refused (.rangePastBit31 d)))

/-! ### Data, stack, call, compare, jump -/

/-- 42_data_and_control_instructions.md R110: LOAD copies its operand's value into `reg` and changes
nothing else; an operand that faults interrupts. That no flag changes is D47 (log 4), and that the
destination PC is refused is N6, as the model reads it (log 19). -/
def Obligations.LoadCopiesOperand : Prop :=
  ∀ (reg : Reg) (op : Operand) (s : State),
    (∀ v, reg ≠ .pc → operandValue s op = .ok v →
      ∃ t, exec (.load reg op) s = .next t ∧ getReg t reg = v ∧ OnlyRegister s t reg ∧
        RegisterOnly s t ∧ t.pc = s.pc + 1) ∧
    (∀ i, reg ≠ .pc → operandValue s op = raised i →
      exec (.load reg op) s = takeInterrupt i s) ∧
    (reg = .pc → exec (.load reg op) s = .refused .pcAsDestination)

/-- 42_data_and_control_instructions.md R111: STORE copies `reg` into its operand, a word of memory or
a register, and changes nothing else; an address that faults interrupts. That a number is UNWROP is the
spec's inference from R74, and that no flag changes is D47 (log 4). -/
def Obligations.StoreCopiesRegister : Prop :=
  ∀ (reg : Reg) (op : Operand) (s : State),
    (∀ a p, operandAddress s op = some a → translate s a = .ok p → present s p = true →
      ∃ t, exec (.store reg op) s = .next t ∧ t.mem.read p = getReg s reg ∧ WordOnly s t p ∧
        t.pc = s.pc + 1) ∧
    (∀ a p, operandAddress s op = some a → translate s a = .ok p → present s p = false →
      exec (.store reg op) s = takeInterrupt (interruptAt .memory p) s) ∧
    (∀ a i, operandAddress s op = some a → translate s a = raised i →
      exec (.store reg op) s = takeInterrupt i s) ∧
    (∀ r, op = .reg r → r ≠ .pc →
      ∃ t, exec (.store reg op) s = .next t ∧ getReg t r = getReg s reg ∧ OnlyRegister s t r ∧
        RegisterOnly s t ∧ t.pc = s.pc + 1) ∧
    (∀ n, op = .imm n →
      exec (.store reg op) s = takeInterrupt (interruptAt .unwrOp s.pc) s)

/-- 42_data_and_control_instructions.md R112: INC adds one, modulo 2^32, to its operand, a word of
memory or a register, and changes nothing else; a number is UNWROP. The source says only that INC writes
its operand: that it adds one is from general knowledge (93_implementation_defined.md G7) and that no flag
changes is decision D47, the spec's choices and the model's with them (log 4). -/
def Obligations.IncAddsOne : Prop :=
  ∀ (op : Operand) (s : State),
    (∀ a p, operandAddress s op = some a → translate s a = .ok p → present s p = true →
      ∃ t, exec (.inc op) s = .next t ∧
        (t.mem.read p).toNat = ((s.mem.read p).toNat + 1) % 2 ^ 32 ∧ WordOnly s t p ∧
        t.pc = s.pc + 1) ∧
    (∀ a i, operandAddress s op = some a → readWord s a = raised i →
      exec (.inc op) s = takeInterrupt i s) ∧
    (∀ r, op = .reg r → r ≠ .pc →
      ∃ t, exec (.inc op) s = .next t ∧
        (getReg t r).toNat = ((getReg s r).toNat + 1) % 2 ^ 32 ∧ OnlyRegister s t r ∧
        RegisterOnly s t ∧ t.pc = s.pc + 1) ∧
    (∀ n, op = .imm n → exec (.inc op) s = takeInterrupt (interruptAt .unwrOp s.pc) s)

/-- 42_data_and_control_instructions.md R113: PUSH stores its operand's value, as it was before SP
moves, at SP - 1 and leaves SP there; a write that faults interrupts (SP then keeps its value, since the
interrupt is taken in the state before the instruction). The full descending stack, the value that PUSH SP
stores and SP after a fault are decision D10 (G9), and that no flag changes is D47, the spec's choices and the
model's with them (log 4). -/
def Obligations.PushStoresBelowStackPointer : Prop :=
  ∀ (op : Operand) (s : State),
    (∀ i, operandValue s op = raised i → exec (.push op) s = takeInterrupt i s) ∧
    ∀ v, operandValue s op = .ok v →
    (∀ p, translate s (getReg s .sp - 1) = .ok p → present s p = true →
      ∃ t, exec (.push op) s = .next t ∧ t.mem.read p = v ∧ getReg t .sp = getReg s .sp - 1 ∧
        OnlyRegister s t .sp ∧ t.flags = s.flags ∧ SameSpecials s t ∧
        MemoryOutside s t (· = p) ∧ SameDevices s t ∧ SameHost s t ∧ t.pc = s.pc + 1) ∧
    (∀ i, writeWord s (getReg s .sp - 1) v = raised i →
      exec (.push op) s = takeInterrupt i s)

/-- 42_data_and_control_instructions.md R114: CALL pushes the address of the next instruction and jumps
to its operand's value. Both are from general knowledge (G7), the push is that of decision D10 and that no
flag changes is D47: the spec's choices and the model's with them (log 4). -/
def Obligations.CallPushesReturnAddress : Prop :=
  ∀ (op : Operand) (s : State),
    (∀ i, operandValue s op = raised i → exec (.call op) s = takeInterrupt i s) ∧
    ∀ target, operandValue s op = .ok target →
    (∀ p, translate s (getReg s .sp - 1) = .ok p → present s p = true →
      ∃ t, exec (.call op) s = .next t ∧ t.mem.read p = s.pc + 1 ∧ t.pc = target ∧
        getReg t .sp = getReg s .sp - 1 ∧ OnlyRegister s t .sp ∧ t.flags = s.flags ∧
        SameSpecials s t ∧ MemoryOutside s t (· = p) ∧ SameDevices s t ∧ SameHost s t) ∧
    (∀ i, writeWord s (getReg s .sp - 1) (s.pc + 1) = raised i →
      exec (.call op) s = takeInterrupt i s)

/-- 42_data_and_control_instructions.md R115: RET pops PC. The rule is from general knowledge (G7) and
that no flag changes is decision D47, the spec's choices and the model's with them (log 4). -/
def Obligations.RetPopsProgramCounter : Prop :=
  ∀ s : State,
    (∀ v, readWord s (getReg s .sp) = .ok v →
      ∃ t, exec .ret s = .next t ∧ t.pc = v ∧ getReg t .sp = getReg s .sp + 1 ∧
        OnlyRegister s t .sp ∧ RegisterOnly s t) ∧
    (∀ i, readWord s (getReg s .sp) = raised i → exec .ret s = takeInterrupt i s)

/-- 42_data_and_control_instructions.md R116: COMP sets Z when equal and N when the register is less as
a signed integer, and nothing else. The source says only that COMP sets or clears Z and N: the comparison is
decision D33 (G5), and the switch compWraps, under which N is bit 31 of the difference, is log 18, a DESIGN
CHOICE. -/
def Obligations.CompSetsZeroAndNegative : Prop :=
  ∀ (reg : Reg) (op : Operand) (s : State),
    (∀ v, operandValue s op = .ok v →
      ∃ t, exec (.comp reg op) s = .next t ∧ FlagsOnly s t ∧ t.pc = s.pc + 1 ∧
        (t.flags.z = true ↔ getReg s reg = v) ∧
        (s.params.compWraps = false →
          (t.flags.n = true ↔ (getReg s reg).toInt < v.toInt)) ∧
        (s.params.compWraps = true →
          (t.flags.n = true ↔ 2 ^ 31 ≤ ((getReg s reg).toNat + 2 ^ 32 - v.toNat) % 2 ^ 32)) ∧
        t.flags.r = s.flags.r ∧ t.flags.err = s.flags.err ∧ t.flags.sys = s.flags.sys ∧
        t.flags.ip = s.flags.ip ∧ t.flags.vm = s.flags.vm) ∧
    (∀ i, operandValue s op = raised i → exec (.comp reg op) s = takeInterrupt i s)

/-- 42_data_and_control_instructions.md R117, for either value that COMPZ may test (log 16). That the operand
is not read where the main register is tested is a DESIGN CHOICE too (log 16). -/
def Obligations.CompzTestsAgainstZero : Prop :=
  ∀ (reg : Reg) (op : Operand) (s : State),
    (∀ i, s.params.compzTests = .operand → operandValue s op = raised i →
      exec (.compz reg op) s = takeInterrupt i s) ∧
    ∀ v, (s.params.compzTests = .mainRegister ∧ getReg s reg = v ∨
      s.params.compzTests = .operand ∧ operandValue s op = .ok v) →
    ∃ t, exec (.compz reg op) s = .next t ∧ FlagsOnly s t ∧ t.pc = s.pc + 1 ∧
      (t.flags.z = true ↔ v.toNat = 0) ∧ (t.flags.n = true ↔ 2 ^ 31 ≤ v.toNat) ∧
      t.flags.r = s.flags.r ∧ t.flags.err = s.flags.err ∧ t.flags.sys = s.flags.sys ∧
      t.flags.ip = s.flags.ip ∧ t.flags.vm = s.flags.vm

/-- 42_data_and_control_instructions.md R118: JCOND ERR jumps when ERR is set and goes on when it is
not, changing nothing else. That no flag changes is decision D47 (log 4), and that a condition that is not ERR
is refused is decision D34, a DESIGN CHOICE (log 3). -/
def Obligations.JcondJumpsOnErr : Prop :=
  ∀ (op : Operand) (s : State),
    (∀ target, s.flags.err = true → operandValue s op = .ok target →
      ∃ t, exec (.jcond .err op) s = .next t ∧ t.pc = target ∧ t.flags = s.flags ∧
        FlagsOnly s t) ∧
    (s.flags.err = false →
      ∃ t, exec (.jcond .err op) s = .next t ∧ t.pc = s.pc + 1 ∧ t.flags = s.flags ∧
        FlagsOnly s t) ∧
    (∀ i, s.flags.err = true → operandValue s op = raised i →
      exec (.jcond .err op) s = takeInterrupt i s) ∧
    (∀ code, exec (.jcond (.other code) op) s = .refused (.conditionNotInSource code))

/-! ### System instructions -/

/-- 43_system_instructions.md R130: HALT in system mode clears R (PC is then a free value: nothing is said
of it); in user mode it is interrupt 4 at its own address. That a step of the halted machine answers the
same state is a DESIGN CHOICE (log 11, after 60_exceptions.md R236), and that the timer is not counted is
decision D35 (log 13). -/
def Obligations.HaltStopsOrTraps : Prop :=
  ∀ s : State,
    (s.flags.sys = true →
      ∃ t, exec .halt s = .next t ∧ t.flags = { s.flags with r := false } ∧ FlagsOnly s t ∧
        countDown t = .next t ∧ ∀ dec, stepWith dec t = .next t) ∧
    (s.flags.sys = false → exec .halt s = takeInterrupt (interruptAt .halt s.pc) s)

/-- 43_system_instructions.md R131: a SYSCALL whose index, as a signed number, is negative or not below
CGLEN is BADCALL with the SYSCALL's address and the index; any other, with translation off and room on
the system stack, enters through the gate as the rule's pseudocode gives it, for every `SYSCALL_TRAILER`
(log 17): the registers, PC + 1, the old flags and 38 on the stack; SYS on, IP on as the switch says; PC
at the gate. -/
def Obligations.SyscallEntersGateOrBadCall : Prop :=
  ∀ (op : Operand) (s : State),
  (∀ i, operandValue s op = raised i → exec (.syscall op) s = takeInterrupt i s) ∧
  ∀ index, operandValue s op = .ok index →
  ((2 ^ 31 ≤ index.toNat ∨ s.cglen.toInt ≤ index.toInt) →
    exec (.syscall op) s = takeInterrupt ⟨.badCall, some s.pc, some index⟩ s) ∧
  ∀ gate : Word,
    let length := s.params.syscallTrailer.length
    index.toNat < 2 ^ 31 → index.toInt < s.cglen.toInt →
    readWord s (s.cgbr + index) = .ok gate → s.flags.vm = false →
    18 + length ≤ s.syssp.toNat → s.syssp.toNat ≤ s.params.physWords →
    ∃ t, exec (.syscall op) s = .next t ∧ t.pc = gate ∧
      t.flags = { s.flags with sys := true, ip := s.flags.ip || s.params.syscallSetsIP } ∧
      t.syssp = s.syssp - BitVec.ofNat 32 (18 + length) ∧
      (∀ i : Fin 13, t.mem.read (s.syssp - 1 - BitVec.ofNat 32 i.val) = s.gpr[i]) ∧
      t.mem.read (s.syssp - 14) = getReg s .sp ∧ t.mem.read (s.syssp - 15) = getReg s .fp ∧
      t.mem.read (s.syssp - 16) = s.pc + 1 ∧
      (∀ k w, s.params.syscallTrailer[k]? = some (.const w) →
        t.mem.read (s.syssp - BitVec.ofNat 32 (17 + k)) = w) ∧
      (∀ k, s.params.syscallTrailer[k]? = some .index →
        t.mem.read (s.syssp - BitVec.ofNat 32 (17 + k)) = index) ∧
      t.mem.read (s.syssp - BitVec.ofNat 32 (17 + length)) = s.flags.toWord ∧
      t.mem.read (s.syssp - BitVec.ofNat 32 (18 + length)) = 38 ∧
      MemoryOutside s t (inBuffer (s.syssp - BitVec.ofNat 32 (18 + length)) (18 + length)) ∧
      t.gpr = s.gpr ∧ t.usp = s.usp ∧ t.ufp = s.ufp ∧ t.sysfp = s.sysfp ∧
      SameSpecials s t ∧ SameDevices s t ∧ SameHost s t

/-- 43_system_instructions.md R132: IRET in system mode over a frame whose marker is 38 restores the
flags, PC, FP, SP and R12 .. R0 from the words above, SP and FP into the bank that the restored SYS
selects; a word that cannot be popped interrupts, in the order of the pops; in user mode it is PRIVOP. The
source forces no more than the return and the privilege: the steps are the spec's own (decision D22, log 4),
and that another marker is refused is a DESIGN CHOICE (log 23). -/
def Obligations.IretRestoresFrame : Prop :=
  ∀ s : State,
    (s.flags.sys = true →
      (∀ i, readWord s s.syssp = raised i → exec .iret s = takeInterrupt i s) ∧
      (∀ m i, readWord s s.syssp = .ok m → readWord s (s.syssp + 1) = raised i →
        exec .iret s = takeInterrupt i s) ∧
      ∀ oldFlags, readWord s (s.syssp + 1) = .ok oldFlags →
        (∀ w : Fin 16 → Word, readWord s s.syssp = .ok 38 →
          (∀ k : Fin 16, readWord s (s.syssp + 5 + BitVec.ofNat 32 k.val) = .ok (w k)) →
          ∃ t, exec .iret s = .next t ∧ t.flags.toWord = oldFlags &&& 127 ∧ t.pc = w 0 ∧
            getReg t .fp = w 1 ∧ getReg t .sp = w 2 ∧
            (∀ i : Fin 13, getReg t (.r i) = w ⟨15 - i.val, by omega⟩) ∧
            (t.flags.sys = true → t.usp = s.usp ∧ t.ufp = s.ufp) ∧
            (t.flags.sys = false → t.syssp = s.syssp + 21 ∧ t.sysfp = s.sysfp) ∧
            SameSpecials s t ∧ SameMemory s t ∧ SameDevices s t ∧ SameHost s t) ∧
        (∀ (k : Fin 16) (i : Interrupt), readWord s s.syssp = .ok 38 →
          (∀ j : Fin 16, j < k →
            ∃ w, readWord s (s.syssp + 5 + BitVec.ofNat 32 j.val) = .ok w) →
          readWord s (s.syssp + 5 + BitVec.ofNat 32 k.val) = raised i →
          exec .iret s = takeInterrupt i s) ∧
        (∀ m, readWord s s.syssp = .ok m → m ≠ 38 → exec .iret s = .refused (.frameMarker m))) ∧
    (s.flags.sys = false → exec .iret s = takeInterrupt (interruptAt .privOp s.pc) s)

/-- 43_system_instructions.md R134 and R135: PHLOAD reads, and PHSTORE writes, the physical word that the
operand's value names, whatever VM is; an absent one is MEMORY at that address; in user mode both are
PRIVOP. Only the names and the privilege are in the source: the operands and the meaning are decision D37
(G6), the spec's choice and the model's with it (log 4). -/
def Obligations.PhloadPhstoreReachPhysicalWords : Prop :=
  ∀ (reg : Reg) (op : Operand) (s : State),
    (∀ p, s.flags.sys = true → reg ≠ .pc → operandValue s op = .ok p →
      (p.toNat < s.params.physWords →
        ∃ t, exec (.phload reg op) s = .next t ∧ getReg t reg = s.mem.read p ∧
          OnlyRegister s t reg ∧ RegisterOnly s t ∧ t.pc = s.pc + 1) ∧
      (s.params.physWords ≤ p.toNat →
        exec (.phload reg op) s = takeInterrupt (interruptAt .memory p) s)) ∧
    (∀ p, s.flags.sys = true → operandValue s op = .ok p →
      (p.toNat < s.params.physWords →
        ∃ t, exec (.phstore reg op) s = .next t ∧ t.mem.read p = getReg s reg ∧
          WordOnly s t p ∧ t.pc = s.pc + 1) ∧
      (s.params.physWords ≤ p.toNat →
        exec (.phstore reg op) s = takeInterrupt (interruptAt .memory p) s)) ∧
    (∀ i, s.flags.sys = true → operandValue s op = raised i →
      (reg ≠ .pc → exec (.phload reg op) s = takeInterrupt i s) ∧
      exec (.phstore reg op) s = takeInterrupt i s) ∧
    (s.flags.sys = false →
      exec (.phload reg op) s = takeInterrupt (interruptAt .privOp s.pc) s ∧
      exec (.phstore reg op) s = takeInterrupt (interruptAt .privOp s.pc) s)

/-- 60_exceptions.md R218 and R231: where PRIVOP is raised. That no operand is read first is the spec's
inference (marked so in R218), and that SETFL names a protected flag whatever the value is decision D30
(log 4). -/
def Obligations.UserModePrivilegedOperations : Prop :=
  ∀ (reg : Reg) (op : Operand) (s : State) (i : Instr), s.flags.sys = false →
    (i = .setsr reg op ∨ i = .peri reg op ∨ i = .iret ∨ i = .phload reg op ∨
      i = .phstore reg op ∨ i = .flagsj reg op ∨
      (i = .setfl reg op ∧ ∃ n, operandValue s op = .ok n ∧
        (n = 0 ∨ n = 4 ∨ n = 5 ∨ n = 6))) →
    exec i s = takeInterrupt ⟨.privOp, some s.pc, none⟩ s

/-- 91_not_in_source.md N6, as the model reads it (log 19): no instruction has PC as the register it writes.
The two privileged ones are PRIVOP in user mode (`UserModePrivilegedOperations`), and a DPBR whose range runs
past bit 31 is refused for that (`DepositInstructionsReplaceRange`). -/
def Obligations.PcIsNoDestination : Prop :=
  ∀ (op : Operand) (s : State) (reg : Reg),
    exec (.getsr .pc op) s = .refused .pcAsDestination ∧
    exec (.getfl .pc op) s = .refused .pcAsDestination ∧
    exec (.sbit .pc op) s = .refused .pcAsDestination ∧
    exec (.cbit .pc op) s = .refused .pcAsDestination ∧
    exec (.load .pc op) s = .refused .pcAsDestination ∧
    exec (.store reg (.reg .pc)) s = .refused .pcAsDestination ∧
    exec (.inc (.reg .pc)) s = .refused .pcAsDestination ∧
    (roleReg reg s.params.exbrRoles.result = .pc →
      exec (.exbr reg op) s = .refused .pcAsDestination) ∧
    (roleReg reg s.params.exbrvRoles.result = .pc →
      exec (.exbrv reg op) s = .refused .pcAsDestination) ∧
    (∀ d, getReg s (roleReg reg s.params.dpbrRoles.descriptor) = d →
      rangeRight d + rangeLength d ≤ 32 →
      exec (.dpbr reg (.reg .pc)) s = .refused .pcAsDestination) ∧
    (s.flags.sys = true → exec (.phload .pc op) s = .refused .pcAsDestination ∧
      exec (.peri .pc op) s = .refused .pcAsDestination)

/-! ### Interrupts -/

/-- 60_exceptions.md R205 and R207, with translation off or on: an interrupt with IP = 0 and a handler enters
it, with the 21-word frame on the system stack; a second or third parameter that R206 defines is at its place
in the frame. R203 and R208: a fatal one while IP = 1, and any one with IP = 0 whose vector entry cannot be
read, makes the INTRFAULT entry, with its second parameter kept and the original code as the third. R208 and
R210: where a push of the frame fails, INTRFAULT's own frame fails at the same place and the run stops under
the original code, in the state in which the interrupt was raised, but for the words that the abandoned pushes
may have reached (R205 (e), U12). Of this the saved SP and FP are decision D11, what counts as an invalid
vector is D15, the INTRFAULT entry while IP = 1 is D17 and the frozen state is D14: the spec's choices and the
model's with them (log 4). That a stop is a fault of the step is a DESIGN CHOICE (log 12). -/
def Obligations.InterruptEntersHandler : Prop :=
  ∀ (i : Interrupt) (s : State) (slot : Fin 21 → Word),
    (∀ handler, s.flags.ip = false → CanEnter s i.code handler slot →
      ∃ t, takeInterrupt i s = .next t ∧ HandlerEntered s t i.code handler slot ∧
        (∀ addr, i.addr = some addr → t.mem.read (slot 17) = addr) ∧
        (∀ info, i.info = some info → t.mem.read (slot 16) = info)) ∧
    (∀ handler, (s.flags.ip = true ∧ isNotification i.code = false ∨
        s.flags.ip = false ∧ ∃ j, vectorEntry s i.code = raised j) →
      CanEnter s .intrFault handler slot →
      ∃ t, takeInterrupt i s = .next t ∧ HandlerEntered s t .intrFault handler slot ∧
        (∀ addr, i.addr = some addr → t.mem.read (slot 17) = addr) ∧
        t.mem.read (slot 16) = codeWord i.code) ∧
    (∀ n, (s.flags.ip = true ∧ isNotification i.code = false ∨
        s.flags.ip = false ∧ vectorEntry s i.code ≠ .ok 0) →
      PushFails s slot n →
      ∃ a last, takeInterrupt i s = .fault (.stopped i.code a last) ∧ StoppedIn s last ∧
        ∀ addr, i.addr = some addr → a = addr)

/-- 60_exceptions.md R209 (decision D16, log 4): with IP = 0 and a zero vector entry a fatal interrupt stops
the run and a notification is dropped; R202: with IP = 1 a notification is dropped; R208 and R210: where the
INTRFAULT entry is zero or unreadable too, the run stops under the original code (D15 and D17, log 4). A run
that stops stays in the state in which the interrupt was raised (D14, log 4). That a stop is a fault of the
step is a DESIGN CHOICE (log 12). -/
def Obligations.DeclinedInterruptStopsOrIsDropped : Prop :=
  ∀ (i : Interrupt) (s : State),
    (s.flags.ip = false → vectorEntry s i.code = .ok 0 →
      (isNotification i.code = true →
        takeInterrupt i s = .next { s with retired := false }) ∧
      (isNotification i.code = false →
        ∃ a last, takeInterrupt i s = .fault (.stopped i.code a last) ∧ StoppedIn s last ∧
          SameMemory s last ∧ ∀ addr, i.addr = some addr → a = addr)) ∧
    (s.flags.ip = true → isNotification i.code = true →
      takeInterrupt i s = .next { s with retired := false }) ∧
    ((s.flags.ip = true ∧ isNotification i.code = false ∨
        s.flags.ip = false ∧ ∃ j, vectorEntry s i.code = raised j) →
      (vectorEntry s .intrFault = .ok 0 ∨ ∃ j, vectorEntry s .intrFault = raised j) →
      ∃ a last, takeInterrupt i s = .fault (.stopped i.code a last) ∧ StoppedIn s last ∧
        SameMemory s last ∧ ∀ addr, i.addr = some addr → a = addr)

/-- 43_system_instructions.md R132 (decision D22, log 4) and 60_exceptions.md R227: IRET undoes an interrupt
entry, with translation off or on: every register of both banks, the flags, PC and the special registers are
what they were. -/
def Obligations.IretUndoesEntry : Prop :=
  ∀ (i : Interrupt) (s t : State) (handler : Word) (slot : Fin 21 → Word), s.flags.ip = false →
    CanEnter s i.code handler slot → takeInterrupt i s = .next t →
    ∃ u, exec .iret t = .next u ∧ SameRegisters s u ∧ u.flags = s.flags ∧ u.pc = s.pc ∧
      SameSpecials s u ∧ SameDevices s u ∧ SameHost s u

/-- 60_exceptions.md R229, for every instruction (decision D48, the spec's own, log 4): an instruction that
does not complete (it raised an interrupt) has changed no register, special register or device by its own
effect, nor any word of memory: all that differs is the entry of an interrupt. Of memory, what differs is the
21 words of the frame: with translation off, those at the addresses below the system stack pointer; with
translation off or on, the physical words they are pushed to, where the pushes do not themselves change where
the later ones go (`PushesReach`). -/
def Obligations.InterruptsArePrecise : Prop :=
  ∀ (i : Instr) (s t : State), exec i s = .next t → t.retired = false →
    t.gpr = s.gpr ∧ t.usp = s.usp ∧ t.ufp = s.ufp ∧ t.sysfp = s.sysfp ∧
    t.syssp = s.syssp - 21 ∧ t.flags = { s.flags with sys := true, ip := true } ∧ t.pc ≠ 0 ∧
    SameSpecials s t ∧ SameDevices s t ∧ SameHost s t ∧
    (s.flags.vm = false → MemoryOutside s t fun q => ∃ k, q = frameAddress s k) ∧
    (∀ slot, PushesReach s slot 21 → MemoryOutside s t fun q => ∃ k, q = slot k)

/-- 60_exceptions.md R210, R215: an instruction stops the run only by a fatal interrupt that is not DIVZERO,
code 0 or INTRFAULT itself, or as a PERI that reads a string without end (log 30). A step, under every
decoder, stops in no other way but by a TIMER or KEYBD that IP = 0 admits and that can neither be entered nor
be handed to INTRFAULT (R208). A run that stops keeps the state in which the interrupt was raised (decision
D14, log 4), but for the words of abandoned pushes (R205 (e), U12): the state before the instruction, with
what the environment has done at this boundary; for TIMER, that after the instruction, with TIMER at 0. That a
stop is a fault of the step is a DESIGN CHOICE (log 12). -/
def Obligations.FaultsAreFatalInterrupts : Prop :=
  (∀ (i : Instr) (s : State) (f : Fault), exec i s = .fault f →
    (∃ c addr last, f = .stopped c addr last ∧ StoppedIn s last ∧ isNotification c = false ∧
      c ≠ .none ∧ c ≠ .divZero ∧ c ≠ .intrFault) ∨
    (f = .neverEnds ∧ s.flags.sys = true ∧ ∃ reg op, i = .peri reg op)) ∧
  (∀ (dec : Word → Option Instr) (s e : State) (f : Fault), e = environment s →
    stepWith dec s = .fault f →
    (∃ c addr last, f = .stopped c addr last ∧ c ≠ .none ∧ c ≠ .divZero ∧ c ≠ .intrFault ∧
      (c ≠ .timer → StoppedIn e last) ∧
      (c = .keybd → keyboardSignals e = true ∧ vectorEntry e .keybd ≠ .ok 0) ∧
      (c = .timer → ∃ t, runInstruction dec e = .next t ∧ t.retired = true ∧ t.timer = 1 ∧
        t.flags.ip = false ∧ vectorEntry t .timer ≠ .ok 0 ∧
        StoppedIn { t with timer := 0 } last)) ∨
    (f = .neverEnds ∧ e.flags.sys = true ∧
      ∃ w reg op, fetch e = .ok w ∧ dec w = some (.peri reg op)))

/-! ### PERI -/

/-- 44_peri_disc_tape.md R144: an unrecognised code gives -1 and nothing else happens. The spec's inference
from R141, marked so in R144: an operation code that cannot be read gives -2, and so does a second word, for
every operation that has one to read; nothing else happens. Which problems count as unreadable is decision
D24 (log 4). R140: a faulting operand of the PERI itself interrupts. -/
def Obligations.PeriRejectsBadCode : Prop :=
  ∀ (reg : Reg) (op : Operand) (s : State), s.flags.sys = true → reg ≠ .pc →
    (∀ i, operandValue s op = raised i → exec (.peri reg op) s = takeInterrupt i s) ∧
    ∀ cs, operandValue s op = .ok cs →
    (∀ code, readWord s cs = .ok code → (∀ k, periCodeOf s.params k ≠ code) →
      ∃ t, exec (.peri reg op) s = .next t ∧ PeriEnds s t reg 0xFFFFFFFF ∧ SameMemory s t ∧
        SameDevices s t) ∧
    (∀ i, readWord s cs = raised i →
      ∃ t, exec (.peri reg op) s = .next t ∧ PeriEnds s t reg 0xFFFFFFFE ∧ SameMemory s t ∧
        SameDevices s t) ∧
    (∀ k i, PeriStarts s reg op cs k → k ≠ .seconds → k ≠ .useconds →
      readWord s (cs + 1) = raised i →
      ∃ t, exec (.peri reg op) s = .next t ∧ PeriEnds s t reg 0xFFFFFFFE ∧ SameMemory s t ∧
        SameDevices s t)

/-- 44_peri_disc_tape.md R145: `$DISCCHECK` answers -3 for a number outside 1..8, 0 for a drive that is not
configured, else the drive's size; no state changes. Its -2 is in `PeriRejectsBadCode`, and what it answers
for a size that is no non-negative word in `DiscReadDeliversBlocks`. -/
def Obligations.DiscCheckReportsSize : Prop :=
  ∀ (reg : Reg) (op : Operand) (s : State) (cs d : Word), PeriStarts s reg op cs .discCheck →
    readWord s (cs + 1) = .ok d →
    ((d.toInt < 1 ∨ 8 < d.toInt) →
      ∃ t, exec (.peri reg op) s = .next t ∧ PeriEnds s t reg 0xFFFFFFFD ∧ SameMemory s t ∧
        SameDevices s t) ∧
    (∀ i : Fin 8, d.toNat = i.val + 1 →
      (s.discs[i] = none →
        ∃ t, exec (.peri reg op) s = .next t ∧ PeriEnds s t reg 0 ∧ SameMemory s t ∧
          SameDevices s t) ∧
      (∀ disc, s.discs[i] = some disc → disc.size < 2 ^ 31 →
        ∃ t, exec (.peri reg op) s = .next t ∧ PeriEnds s t reg (BitVec.ofNat 32 disc.size) ∧
          SameMemory s t ∧ SameDevices s t))

/-- 44_peri_disc_tape.md R146: `$DISCREAD` of blocks inside the disc into an untranslated buffer: word j
of block b + k at m + 128k + j (a stable free value where nothing has written it: D26, log 34), result the
number of blocks, nothing else changed; -4 where a block is outside the disc; -3, with nothing changed, for a
number that is outside 1..8 or of no configured drive. That -4 is found before any block moves, so that
nothing changes, is the model's choice with decision D25 (log 46; R146 (d) leaves it open), and that those
drives are the ones "not available" is D25 too (log 4). The second clause is `$DISCCHECK` (R145) of a drive of
2^31 blocks or more: that its size is answered modulo 2^32, with ERR by that word's sign, is a DESIGN CHOICE
(log 48). -/
def Obligations.DiscReadDeliversBlocks : Prop :=
  (∀ (reg : Reg) (op : Operand) (s : State) (cs d b n m : Word) (i : Fin 8) (disc : Disc),
    PeriStarts s reg op cs .discRead → readWord s (cs + 1) = .ok d →
    readWord s (cs + 2) = .ok b → readWord s (cs + 3) = .ok n → readWord s (cs + 4) = .ok m →
    d.toNat = i.val + 1 → s.discs[i] = some disc →
    (0 < n.toInt → b.toNat < 2 ^ 31 → (b.toNat + n.toNat) ≤ disc.size →
      PlainBuffer s m (128 * n.toNat) →
      ∃ t, exec (.peri reg op) s = .next t ∧ PeriEnds s t reg n ∧
        (∀ k j, k < n.toNat → j < 128 →
          t.mem.read (m + BitVec.ofNat 32 (128 * k + j)) =
            contentWord (discWord i disc (128 * (b.toNat + k) + j))) ∧
        MemoryOutside s t (inBuffer m (128 * n.toNat)) ∧ SameDevices s t) ∧
    (0 < n.toInt → (2 ^ 31 ≤ b.toNat ∨ disc.size < b.toNat + n.toNat) →
      ∃ t, exec (.peri reg op) s = .next t ∧ PeriEnds s t reg 0xFFFFFFFC ∧ SameMemory s t ∧
        SameDevices s t)) ∧
  (∀ (reg : Reg) (op : Operand) (s : State) (cs d : Word) (i : Fin 8) (disc : Disc),
    PeriStarts s reg op cs .discCheck → readWord s (cs + 1) = .ok d → d.toNat = i.val + 1 →
    s.discs[i] = some disc → 2 ^ 31 ≤ disc.size →
    ∃ t, exec (.peri reg op) s = .next t ∧ PeriEnds s t reg (BitVec.ofNat 32 disc.size) ∧
      SameMemory s t ∧ SameDevices s t) ∧
  (∀ (reg : Reg) (op : Operand) (s : State) (cs d b n m : Word), PeriStarts s reg op cs .discRead →
    readWord s (cs + 1) = .ok d → readWord s (cs + 2) = .ok b → readWord s (cs + 3) = .ok n →
    readWord s (cs + 4) = .ok m →
    (d.toInt < 1 ∨ 8 < d.toInt ∨ ∃ i : Fin 8, d.toNat = i.val + 1 ∧ s.discs[i] = none) →
    ∃ t, exec (.peri reg op) s = .next t ∧ PeriEnds s t reg 0xFFFFFFFD ∧ SameMemory s t ∧
      SameDevices s t ∧ SameHost s t)

/-- 44_peri_disc_tape.md R147: `$DISCWRITE` where the host does write (its answers are a queue of the
model's, log 31): the blocks hold the words of the buffer, no other word of any disc changes, memory does not
change; -3, with nothing changed, for a number that is outside 1..8 or of no configured drive (D25, log 4). -/
def Obligations.DiscWriteStoresBlocks : Prop :=
  (∀ (reg : Reg) (op : Operand) (s : State) (cs d b n m : Word) (i : Fin 8) (disc : Disc)
    (rest : List Bool),
    PeriStarts s reg op cs .discWrite → readWord s (cs + 1) = .ok d →
    readWord s (cs + 2) = .ok b → readWord s (cs + 3) = .ok n → readWord s (cs + 4) = .ok m →
    d.toNat = i.val + 1 → s.discs[i] = some disc → 0 < n.toInt → b.toNat < 2 ^ 31 →
    b.toNat + n.toNat ≤ disc.size → PlainBuffer s m (128 * n.toNat) → s.answers = true :: rest →
    ∃ t after, exec (.peri reg op) s = .next t ∧ PeriEnds s t reg n ∧ SameMemory s t ∧
      t.discs[i] = some after ∧ after.size = disc.size ∧ t.answers = rest ∧
      (∀ k j, k < n.toNat → j < 128 →
        contentWord (discWord i after (128 * (b.toNat + k) + j)) =
          s.mem.read (m + BitVec.ofNat 32 (128 * k + j))) ∧
      (∀ p, (p < 128 * b.toNat ∨ 128 * (b.toNat + n.toNat) ≤ p) →
        discWord i after p = discWord i disc p) ∧
      (∀ j : Fin 8, j ≠ i → t.discs[j] = s.discs[j]) ∧
      t.tapes = s.tapes ∧ t.keyboard = s.keyboard ∧ t.screen = s.screen ∧ t.files = s.files) ∧
  (∀ (reg : Reg) (op : Operand) (s : State) (cs d b n m : Word), PeriStarts s reg op cs .discWrite →
    readWord s (cs + 1) = .ok d → readWord s (cs + 2) = .ok b → readWord s (cs + 3) = .ok n →
    readWord s (cs + 4) = .ok m →
    (d.toInt < 1 ∨ 8 < d.toInt ∨ ∃ i : Fin 8, d.toNat = i.val + 1 ∧ s.discs[i] = none) →
    ∃ t, exec (.peri reg op) s = .next t ∧ PeriEnds s t reg 0xFFFFFFFD ∧ SameMemory s t ∧
      SameDevices s t ∧ SameHost s t)

/-- 44_peri_disc_tape.md R149: `$TAPECHECK` answers -2 where its second word cannot be read, -3 for a
number outside 1..8, 0 for an unloaded unit, else the code of its mode; nothing else changes. That 'R' and
'W' are 82 and 87 is from general knowledge (G3). -/
def Obligations.TapeCheckReportsMode : Prop :=
  ∀ (reg : Reg) (op : Operand) (s : State) (cs : Word), PeriStarts s reg op cs .tapeCheck →
    (∀ i, readWord s (cs + 1) = raised i →
      ∃ t, exec (.peri reg op) s = .next t ∧ PeriEnds s t reg 0xFFFFFFFE ∧ SameMemory s t ∧
        SameDevices s t) ∧
    (∀ u, readWord s (cs + 1) = .ok u →
      ∃ t code, exec (.peri reg op) s = .next t ∧ PeriEnds s t reg code ∧ SameMemory s t ∧
        SameDevices s t ∧
        ((u.toInt < 1 ∨ 8 < u.toInt) → code = 0xFFFFFFFD) ∧
        (∀ i : Fin 8, u.toNat = i.val + 1 →
          code = match s.tapes[i].map Tape.mode with
            | none => 0
            | some .read => 82
            | some .write => 87))

/-- 44_peri_disc_tape.md R150 and R152: `$TAPEREWIND` moves a tape loaded for reading to its beginning,
`$TAPEUNLOAD` unloads a unit; the unit numbers and the failures as those rules list them. That rewinding an
unloaded unit is "not available" is decision D25 (log 4), and that rewinding a tape loaded for writing is
refused is U8, a DESIGN CHOICE (log 28). -/
def Obligations.TapeRewindAndUnload : Prop :=
  ∀ (reg : Reg) (op : Operand) (s : State) (cs : Word),
    (PeriStarts s reg op cs .tapeRewind ∨ PeriStarts s reg op cs .tapeUnload) →
    (∀ i, readWord s (cs + 1) = raised i →
      ∃ t, exec (.peri reg op) s = .next t ∧ PeriEnds s t reg 0xFFFFFFFE ∧ SameMemory s t ∧
        SameDevices s t) ∧
    (∀ u, readWord s (cs + 1) = .ok u →
      ((u.toInt < 1 ∨ 8 < u.toInt) →
        ∃ t, exec (.peri reg op) s = .next t ∧ PeriEnds s t reg 0xFFFFFFFD ∧ SameMemory s t ∧
          SameDevices s t) ∧
      (∀ i : Fin 8, u.toNat = i.val + 1 → s.tapes[i] = none →
        ∃ t, exec (.peri reg op) s = .next t ∧ SameMemory s t ∧ SameDevices s t ∧
          (PeriStarts s reg op cs .tapeRewind → PeriEnds s t reg 0xFFFFFFFD) ∧
          (PeriStarts s reg op cs .tapeUnload → PeriEnds s t reg 0xFFFFFFF9)) ∧
      (∀ (i : Fin 8) (tape : Tape), u.toNat = i.val + 1 → s.tapes[i] = some tape →
        (PeriStarts s reg op cs .tapeRewind → tape.mode = .write →
          exec (.peri reg op) s = .refused .rewindWhileWriting) ∧
        ((PeriStarts s reg op cs .tapeRewind → tape.mode = .read) →
          ∃ t, exec (.peri reg op) s = .next t ∧ PeriEnds s t reg 1 ∧ SameMemory s t ∧
            (PeriStarts s reg op cs .tapeRewind →
              t.tapes[i] = some { tape with position := 0 }) ∧
            (PeriStarts s reg op cs .tapeUnload → t.tapes[i] = none) ∧
            (∀ j : Fin 8, j ≠ i → t.tapes[j] = s.tapes[j]) ∧ t.discs = s.discs ∧
            t.keyboard = s.keyboard ∧ t.screen = s.screen ∧ t.files = s.files)))

/-- 44_peri_disc_tape.md R151: `$TAPELOAD` of an unloaded unit, for a name whose characters lie packed
at p and end with a zero character: when the host opens the file (its answers are a queue of the model's, log
31) the unit is loaded at position 0, when it does not the result is -7; a mode that is neither 'R' nor 'W'
gives -8. That 'R' and 'W' are 82 and 87 is from general knowledge (G3), and that -8 is found before the host
is asked is the spec's order of checks (R155, decision D25, log 4). -/
def Obligations.TapeLoadAttachesFile : Prop :=
  ∀ (reg : Reg) (op : Operand) (s : State) (cs u p mode : Word) (i : Fin 8) (name : List Byte)
    (opened : Bool) (rest : List Bool),
    PeriStarts s reg op cs .tapeLoad → readWord s (cs + 1) = .ok u →
    readWord s (cs + 2) = .ok p → readWord s (cs + 3) = .ok mode → u.toNat = i.val + 1 →
    s.tapes[i] = none → name.length < 2 ^ 34 →
    (∀ k (h : k < name.length), packedChar s p k = .ok name[k] ∧ name[k] ≠ 0) →
    packedChar s p name.length = .ok 0 → s.answers = opened :: rest →
    ∃ t code, exec (.peri reg op) s = .next t ∧ PeriEnds s t reg code ∧ SameMemory s t ∧
      (∀ j : Fin 8, j ≠ i → t.tapes[j] = s.tapes[j]) ∧
      (∀ other, other ≠ name → findFile t.files other = findFile s.files other) ∧
      t.discs = s.discs ∧ t.keyboard = s.keyboard ∧ t.screen = s.screen ∧
      ((mode = 82 ∨ mode = 87) → opened = true → code = 1 ∧
        t.tapes[i] = some
          { file := name, mode := if mode = 82 then .read else .write, position := 0 }) ∧
      ((mode = 82 ∨ mode = 87) → opened = false → code = 0xFFFFFFF9 ∧ t.tapes = s.tapes ∧
        t.files = s.files) ∧
      (mode ≠ 82 → mode ≠ 87 → code = 0xFFFFFFF8 ∧ t.tapes = s.tapes ∧ t.files = s.files ∧
        t.answers = s.answers)

/-- 44_peri_disc_tape.md R153: `$TAPERREAD` delivers the next block's bytes, packed as 20_memory.md R54
says, moves the position past them and answers their number; at the end of the tape it answers 0; -3, with
nothing changed, for a number outside 1..8 or of a unit that is not loaded for reading (D25, log 4). That
nothing changes at the end of the tape, the buffer included, is a DESIGN CHOICE (log 26; U9 would allow any
buffer). -/
def Obligations.TapeReadDeliversNextBlock : Prop :=
  (∀ (reg : Reg) (op : Operand) (s : State) (cs u m : Word) (i : Fin 8) (tape : Tape),
    let left := (tapeBytes s tape).length - tape.position
    let count := min 512 left
    PeriStarts s reg op cs .tapeRead → readWord s (cs + 1) = .ok u →
    readWord s (cs + 2) = .ok m → u.toNat = i.val + 1 → s.tapes[i] = some tape →
    tape.mode = .read →
    (0 < left → PlainBuffer s m 128 →
      ∃ t, exec (.peri reg op) s = .next t ∧ PeriEnds s t reg (BitVec.ofNat 32 count) ∧
        (∀ k, k < count →
          some (charOf (t.mem.read (m + BitVec.ofNat 32 (k / 4))) k) =
            (tapeBytes s tape)[tape.position + k]?) ∧
        MemoryOutside s t (inBuffer m 128) ∧
        t.tapes[i] = some { tape with position := tape.position + count } ∧
        (∀ j : Fin 8, j ≠ i → t.tapes[j] = s.tapes[j]) ∧ t.discs = s.discs ∧
        t.keyboard = s.keyboard ∧ t.screen = s.screen ∧ t.files = s.files) ∧
    (left = 0 →
      ∃ t, exec (.peri reg op) s = .next t ∧ PeriEnds s t reg 0 ∧ SameMemory s t ∧
        SameDevices s t)) ∧
  (∀ (reg : Reg) (op : Operand) (s : State) (cs u m : Word), PeriStarts s reg op cs .tapeRead →
    readWord s (cs + 1) = .ok u → readWord s (cs + 2) = .ok m →
    (u.toInt < 1 ∨ 8 < u.toInt ∨ ∃ i : Fin 8, u.toNat = i.val + 1 ∧
      (s.tapes[i] = none ∨ ∃ tape, s.tapes[i] = some tape ∧ tape.mode = .write)) →
    ∃ t, exec (.peri reg op) s = .next t ∧ PeriEnds s t reg 0xFFFFFFFD ∧ SameMemory s t ∧
      SameDevices s t ∧ SameHost s t)

/-- 44_peri_disc_tape.md R154: `$TAPEWRITE` of 1 to 512 bytes, where the host does write (its answers are a
queue of the model's, log 31), to a file known up to the tape's position (log 35): the file grows by the
buffer's bytes, and the position moves past them; no other unit and no other host file changes; -3, with
nothing changed, for a number outside 1..8 or of a unit that is not loaded for writing (D25, log 4). -/
def Obligations.TapeWriteAppendsBytes : Prop :=
  (∀ (reg : Reg) (op : Operand) (s : State) (cs u m c : Word) (i : Fin 8) (tape : Tape)
    (f : HostFile) (rest : List Bool),
    PeriStarts s reg op cs .tapeWrite → readWord s (cs + 1) = .ok u →
    readWord s (cs + 2) = .ok m → readWord s (cs + 3) = .ok c → u.toNat = i.val + 1 →
    s.tapes[i] = some tape → tape.mode = .write → findFile s.files tape.file = some f →
    f.known.length = tape.position → 0 < c.toNat → c.toNat ≤ 512 →
    PlainBuffer s m ((c.toNat + 3) / 4) → s.answers = true :: rest →
    ∃ t g, exec (.peri reg op) s = .next t ∧ PeriEnds s t reg c ∧ SameMemory s t ∧
      findFile t.files tape.file = some g ∧ g.known.take tape.position = f.known ∧
      g.known.length = tape.position + c.toNat ∧
      (∀ k, k < c.toNat →
        g.known[tape.position + k]? =
          some (charOf (s.mem.read (m + BitVec.ofNat 32 (k / 4))) k)) ∧
      t.tapes[i] = some { tape with position := tape.position + c.toNat } ∧
      (∀ j : Fin 8, j ≠ i → t.tapes[j] = s.tapes[j]) ∧
      (∀ other, other ≠ tape.file → findFile t.files other = findFile s.files other) ∧
      t.discs = s.discs ∧ t.keyboard = s.keyboard ∧ t.screen = s.screen ∧ t.answers = rest) ∧
  (∀ (reg : Reg) (op : Operand) (s : State) (cs u m c : Word), PeriStarts s reg op cs .tapeWrite →
    readWord s (cs + 1) = .ok u → readWord s (cs + 2) = .ok m → readWord s (cs + 3) = .ok c →
    (u.toInt < 1 ∨ 8 < u.toInt ∨ ∃ i : Fin 8, u.toNat = i.val + 1 ∧
      (s.tapes[i] = none ∨ ∃ tape, s.tapes[i] = some tape ∧ tape.mode = .read)) →
    ∃ t, exec (.peri reg op) s = .next t ∧ PeriEnds s t reg 0xFFFFFFFD ∧ SameMemory s t ∧
      SameDevices s t ∧ SameHost s t)

/-- 45_peri_terminal_time.md R171 and R173: `$TERMINC` moves the first characters of the keyboard buffer
into memory as a packed, zero-terminated string, `$TERMINW` one to a word and not terminated; both answer
their number. That the bytes above the terminator are zero is decision D40 (log 4), and that a maximum of 0
reads nothing and succeeds is U7 (log 27). -/
def Obligations.TermInDeliversCharacters : Prop :=
  ∀ (reg : Reg) (op : Operand) (s : State) (cs most m : Word),
    let k := min most.toNat s.keyboard.length
    readWord s (cs + 1) = .ok most → readWord s (cs + 2) = .ok m → most.toNat < 2 ^ 31 →
    (PeriStarts s reg op cs .termInC → PlainBuffer s m (k / 4 + 1) →
      ∃ t, exec (.peri reg op) s = .next t ∧ PeriEnds s t reg (BitVec.ofNat 32 k) ∧
        (∀ j, j < k →
          some (charOf (t.mem.read (m + BitVec.ofNat 32 (j / 4))) j) = s.keyboard[j]?) ∧
        (∀ j, k ≤ j → j < 4 * (k / 4 + 1) →
          charOf (t.mem.read (m + BitVec.ofNat 32 (j / 4))) j = 0) ∧
        MemoryOutside s t (inBuffer m (k / 4 + 1)) ∧ t.keyboard = s.keyboard.drop k ∧
        t.discs = s.discs ∧ t.tapes = s.tapes ∧ t.screen = s.screen ∧ t.files = s.files) ∧
    (PeriStarts s reg op cs .termInW → PlainBuffer s m k →
      ∃ t, exec (.peri reg op) s = .next t ∧ PeriEnds s t reg (BitVec.ofNat 32 k) ∧
        (∀ j (h : j < s.keyboard.length), j < k →
          (t.mem.read (m + BitVec.ofNat 32 j)).toNat = s.keyboard[j].toNat) ∧
        MemoryOutside s t (inBuffer m k) ∧ t.keyboard = s.keyboard.drop k ∧
        t.discs = s.discs ∧ t.tapes = s.tapes ∧ t.screen = s.screen ∧ t.files = s.files)

/-- 45_peri_terminal_time.md R172 and R174: `$TERMOUTC` and `$TERMOUTW` print the characters found at m:
as many as the count says, or with a count of zero those before the first zero character. That `$TERMOUTW`
ignores bits 31..8 of a word (`wideChar`) is U10, which R174 says is not stated (log 49). That a number of
characters of 2^31 or more, printed with a count of zero, is answered as it is, a negative word with ERR set,
is a DESIGN CHOICE (log 47). -/
def Obligations.TermOutPrintsCharacters : Prop :=
  ∀ (reg : Reg) (op : Operand) (s : State) (cs n m : Word) (k : PeriOp) (chars : List Byte)
    (char : State → Word → Nat → Access Byte),
    (k = .termOutC ∧ char = packedChar ∨ k = .termOutW ∧ char = wideChar) →
    PeriStarts s reg op cs k → readWord s (cs + 1) = .ok n → readWord s (cs + 2) = .ok m →
    (∀ j (h : j < chars.length), char s m j = .ok chars[j]) →
    (0 < n.toInt → chars.length = n.toNat →
      ∃ t, exec (.peri reg op) s = .next t ∧ PeriEnds s t reg n ∧
        t.screen = s.screen ++ chars ∧ SameMemory s t ∧ t.discs = s.discs ∧
        t.tapes = s.tapes ∧ t.keyboard = s.keyboard ∧ t.files = s.files) ∧
    (n = 0 → chars.length < 2 ^ 34 → (0 : Byte) ∉ chars → char s m chars.length = .ok 0 →
      ∃ t, exec (.peri reg op) s = .next t ∧
        PeriEnds s t reg (BitVec.ofNat 32 chars.length) ∧
        t.screen = s.screen ++ chars ∧ SameMemory s t ∧ t.discs = s.discs ∧
        t.tapes = s.tapes ∧ t.keyboard = s.keyboard ∧ t.files = s.files)

/-- 45_peri_terminal_time.md R176 and R177: `$SECONDS` and `$USECONDS` hand on the clock's reading, which is
a queue of the model's (log 32); the result of `$USECONDS` is not negative, and nothing more is said of it
(D39, log 37). That `$SECONDS` hands on a reading of 2^31 seconds or more as well, as a negative result with
ERR set, is a DESIGN CHOICE (log 44): R176 does not describe the clock after the year 2068. -/
def Obligations.ClockReadingsAreHandedOn : Prop :=
  ∀ (reg : Reg) (op : Operand) (s : State) (cs : Word) (c : ClockReading)
    (rest : List ClockReading), s.clock = c :: rest →
    (PeriStarts s reg op cs .seconds →
      ∃ t, exec (.peri reg op) s = .next t ∧ PeriEnds s t reg c.seconds ∧ t.clock = rest ∧
        SameMemory s t ∧ SameDevices s t) ∧
    (PeriStarts s reg op cs .useconds → c.micros < 1000000 → PlainBuffer s (cs + 1) 2 →
      ∃ t code, exec (.peri reg op) s = .next t ∧ PeriEnds s t reg code ∧ 0 ≤ code.toInt ∧
        t.mem.read (cs + 1) = c.seconds ∧ (t.mem.read (cs + 2)).toNat = c.micros ∧
        MemoryOutside s t (inBuffer (cs + 1) 2) ∧ t.clock = rest ∧ SameDevices s t)

/-- 45_peri_terminal_time.md R178: `$DATETIME` writes the seven parts of its time into words 2 to 8; its
result is not negative, and nothing more is said of it (D39, log 37). That a time with bit 31 set is refused
is U11, a DESIGN CHOICE (log 29). -/
def Obligations.DateTimeWritesParts : Prop :=
  ∀ (reg : Reg) (op : Operand) (s : State) (cs time : Word),
    PeriStarts s reg op cs .dateTime → readWord s (cs + 1) = .ok time →
    (time.toNat < 2 ^ 31 → PlainBuffer s (cs + 2) 7 →
      ∃ t code, exec (.peri reg op) s = .next t ∧ PeriEnds s t reg code ∧ 0 ≤ code.toInt ∧
        (∀ k, k < 7 →
          some (t.mem.read (cs + 2 + BitVec.ofNat 32 k)).toNat = (civil time.toNat)[k]?) ∧
        MemoryOutside s t (inBuffer (cs + 2) 7) ∧ SameDevices s t) ∧
    (2 ^ 31 ≤ time.toNat → exec (.peri reg op) s = .refused (.timeOutOfRange time))

/-- 45_peri_terminal_time.md R178, the conversion itself: the years and months have the lengths of the
Gregorian calendar (D41, 93_implementation_defined.md G8); the parts lie in their ranges and count back to the
time; the day of the week advances with the days from Saturday, 1 January 2000. -/
def Obligations.CivilPartsCountBack : Prop :=
  (∀ year : Nat,
    (yearDays year = 366 ↔ year % 4 = 0 ∧ (year % 100 ≠ 0 ∨ year % 400 = 0)) ∧
    (yearDays year = 365 ∨ yearDays year = 366) ∧
    monthLengths year = [31, yearDays year - 337, 31, 30, 31, 30, 31, 31, 30, 31, 30, 31]) ∧
  ∀ time : Nat, time < 2 ^ 31 →
    ∃ year month day weekday hour minute second,
      civil time = [year, month, day, weekday, hour, minute, second] ∧
      2000 ≤ year ∧ 1 ≤ month ∧ month ≤ 12 ∧ 1 ≤ day ∧
      day ≤ (monthLengths year).getD (month - 1) 0 ∧ weekday ≤ 6 ∧ hour ≤ 23 ∧ minute ≤ 59 ∧
      second ≤ 59 ∧
      time = 86400 * (((List.range (year - 2000)).map fun k => yearDays (2000 + k)).sum +
          ((monthLengths year).take (month - 1)).sum + (day - 1)) +
        3600 * hour + 60 * minute + second ∧
      weekday = (time / 86400 + 6) % 7

/-! ### The step -/

/-- 60_exceptions.md R223, for EVERY decoder (30_encoding.md R78): a step at which no key interrupts and
PC is not DEBUG runs the decoded instruction, then counts the timer; a word that is no instruction is
UNIMPOP at PC; a fetch that faults interrupts. The order is decision D12 and D21, the spec's own (log 4). The
machine's own step is the one under the MODEL's decoder (log 1). -/
def Obligations.StepRunsDecodedInstruction : Prop :=
  ∀ (dec : Word → Option Instr) (s e : State), s.flags.r = true → e = environment s →
    keyboardSignals e = false → e.pc ≠ e.debug →
    step s = stepWith decode s ∧
    (∀ w i, fetch e = .ok w → dec w = some i →
      (∀ t, exec i e = .next t → stepWith dec s = settle (countDown t)) ∧
      (∀ f, exec i e = .fault f → stepWith dec s = .fault f) ∧
      (∀ r, exec i e = .refused r → stepWith dec s = .refused r)) ∧
    (∀ w t, fetch e = .ok w → dec w = none →
      takeInterrupt (interruptAt .unimpOp e.pc) e = .next t →
      stepWith dec s = settle (countDown t)) ∧
    (∀ i t, fetch e = raised i → takeInterrupt i e = .next t →
      stepWith dec s = settle (countDown t))

/-- 60_exceptions.md R224: after an instruction that completed, a TIMER above 1 goes down by one, a zero
one stays, and one that reaches zero raises TIMER, which is lost while IP = 1; after an instruction that
did not complete, or once R = 0 (log 13), it is not counted. That a zero TIMER stays, that the interrupt comes
on the step from 1 to 0, and that only completed instructions count is decision D19, the spec's own (log 4). -/
def Obligations.TimerCountsCompletedInstructions : Prop :=
  ∀ t : State,
    (t.retired = true → t.flags.r = true → 1 < t.timer.toNat →
      ∃ u, countDown t = .next u ∧ u.timer.toNat + 1 = t.timer.toNat ∧ SameRegisters t u ∧
        u.flags = t.flags ∧ u.pc = t.pc ∧ u.mem = t.mem) ∧
    (t.retired = true → t.flags.r = true → t.timer = 1 → t.flags.ip = true →
      ∃ u, countDown t = .next u ∧ u.timer = 0 ∧ SameRegisters t u ∧ u.flags = t.flags ∧
        u.pc = t.pc ∧ u.mem = t.mem) ∧
    (∀ handler slot, t.retired = true → t.flags.r = true → t.timer = 1 → t.flags.ip = false →
      CanEnter t .timer handler slot →
      ∃ u, countDown t = .next u ∧
        HandlerEntered { t with timer := 0 } u .timer handler slot) ∧
    ((t.retired = false ∨ t.flags.r = false ∨ t.timer = 0) → countDown t = .next t)

/-- 60_exceptions.md R225: with IP = 0, the emulator running and a character in the buffer, a step
enters KEYBD's handler with PC saved, before the DEBUG comparison and the fetch; the instruction at PC
has not run and the character stays in the buffer. 60_exceptions.md R226: where no key interrupts and PC
equals DEBUG, a step with IP = 0 enters DEBUG's handler, with PC as second parameter and saved PC; the
instruction is not fetched. That KEYBD is signalled at every boundary while the buffer is not empty is
decision D20, and that KEYBD comes before DEBUG and DEBUG before the fetch is D12 and D21: the spec's own (log
4). -/
def Obligations.KeyboardAndDebugInterruptBeforeFetch : Prop :=
  ∀ (dec : Word → Option Instr) (s e : State) (handler : Word)
    (slot : Fin 21 → Word), s.flags.r = true → e = environment s → e.flags.ip = false →
    (e.running = true → e.keyboard ≠ [] → CanEnter e .keybd handler slot →
      ∃ t, stepWith dec s = .next t ∧ HandlerEntered e t .keybd handler slot) ∧
    (keyboardSignals e = false → e.pc = e.debug → CanEnter e .debug handler slot →
      ∃ t, stepWith dec s = .next t ∧ HandlerEntered e t .debug handler slot ∧
        t.mem.read (slot 17) = e.debug)

/-- 60_exceptions.md R236: a halted CPU takes no step, ever: every run from it is the state itself. -/
def Obligations.HaltedIsFinal : Prop :=
  ∀ (k : Nat) (s : State), s.flags.r = false → Host.Core.run Sys2Proof.core k s = .next s

/-- Invariant: every step, under every decoder, keeps memory canonical and listing present words only. -/
def Obligations.StepKeepsMemoryGood : Prop :=
  ∀ (dec : Word → Option Instr) (s t : State), MemoryGood s → stepWith dec s = .next t →
    MemoryGood t

/-- Invariant: every step keeps each drive's words in order and inside its blocks. -/
def Obligations.StepKeepsDiscsGood : Prop :=
  ∀ (dec : Word → Option Instr) (s t : State), DiscsGood s → stepWith dec s = .next t →
    DiscsGood t

/-- 60_exceptions.md R230 and R233: a step from user mode, under every decoder, leaves PDBR, INTVEC,
CGBR, CGLEN and DEBUG, the discs, tapes and screen as they are; and where it ends in user mode again, R,
IP and VM, SYSSP and SYSFP as well. -/
def Obligations.UserStepKeepsSystemState : Prop :=
  ∀ (dec : Word → Option Instr) (s t : State), s.flags.sys = false → stepWith dec s = .next t →
    t.pdbr = s.pdbr ∧ t.intvec = s.intvec ∧ t.cgbr = s.cgbr ∧ t.cglen = s.cglen ∧
    t.debug = s.debug ∧ t.discs = s.discs ∧ t.tapes = s.tapes ∧ t.screen = s.screen ∧
    t.params = s.params ∧
    (t.flags.sys = false → t.flags.r = s.flags.r ∧ t.flags.ip = s.flags.ip ∧
      t.flags.vm = s.flags.vm ∧ t.syssp = s.syssp ∧ t.sysfp = s.sysfp)

/-- 60_exceptions.md R221 and R230, isolation: an instruction other than SYSCALL that completes in user
mode changes no word of memory but one that its own translation reaches; with VM = 1 that is a word of a
resident page whose System bit is 0. -/
def Obligations.UserStoresReachOnlyUserPages : Prop :=
  ∀ (i : Instr) (s t : State) (q : Word), s.flags.sys = false → exec i s = .next t →
    t.retired = true → (∀ op, i ≠ .syscall op) → t.mem.read q ≠ s.mem.read q →
    ∃ a, translate s a = .ok q

/-- 60_exceptions.md R233: an instruction that takes the CPU from user to system mode either raised an
interrupt that was entered, or is a SYSCALL whose gate word is the new PC. That a SYSCALL enters its gate at
all, where decision D23 would refuse it, is the model's choice (log 17). -/
def Obligations.SystemModeOnlyByEntry : Prop :=
  ∀ (i : Instr) (s t : State), s.flags.sys = false → exec i s = .next t → t.flags.sys = true →
    (t.retired = false ∧ t.flags.ip = true ∧ t.syssp = s.syssp - 21) ∨
    (∃ op index, i = .syscall op ∧ operandValue s op = .ok index ∧
      readWord s (s.cgbr + index) = .ok t.pc ∧ index.toInt < s.cglen.toInt ∧ 0 ≤ index.toInt)
end

