-- ==== Sys2Proof/Laws/State.lean ====
section
/-! SUPPORT. One lemma for each field of the state after each update of it, so that no proof unfolds an
update. -/

namespace Sys2Proof.Machine

/-! ### `advance` -/

@[simp] theorem advance_gpr (s : State) : (advance s).gpr = s.gpr := rfl
@[simp] theorem advance_usp (s : State) : (advance s).usp = s.usp := rfl
@[simp] theorem advance_ufp (s : State) : (advance s).ufp = s.ufp := rfl
@[simp] theorem advance_pc (s : State) : (advance s).pc = s.pc + 1 := rfl
@[simp] theorem advance_flags (s : State) : (advance s).flags = s.flags := rfl
@[simp] theorem advance_pdbr (s : State) : (advance s).pdbr = s.pdbr := rfl
@[simp] theorem advance_intvec (s : State) : (advance s).intvec = s.intvec := rfl
@[simp] theorem advance_cgbr (s : State) : (advance s).cgbr = s.cgbr := rfl
@[simp] theorem advance_cglen (s : State) : (advance s).cglen = s.cglen := rfl
@[simp] theorem advance_debug (s : State) : (advance s).debug = s.debug := rfl
@[simp] theorem advance_timer (s : State) : (advance s).timer = s.timer := rfl
@[simp] theorem advance_syssp (s : State) : (advance s).syssp = s.syssp := rfl
@[simp] theorem advance_sysfp (s : State) : (advance s).sysfp = s.sysfp := rfl
@[simp] theorem advance_mem (s : State) : (advance s).mem = s.mem := rfl
@[simp] theorem advance_discs (s : State) : (advance s).discs = s.discs := rfl
@[simp] theorem advance_tapes (s : State) : (advance s).tapes = s.tapes := rfl
@[simp] theorem advance_keyboard (s : State) : (advance s).keyboard = s.keyboard := rfl
@[simp] theorem advance_screen (s : State) : (advance s).screen = s.screen := rfl
@[simp] theorem advance_files (s : State) : (advance s).files = s.files := rfl
@[simp] theorem advance_running (s : State) : (advance s).running = s.running := rfl
@[simp] theorem advance_params (s : State) : (advance s).params = s.params := rfl
@[simp] theorem advance_arrivals (s : State) : (advance s).arrivals = s.arrivals := rfl
@[simp] theorem advance_answers (s : State) : (advance s).answers = s.answers := rfl
@[simp] theorem advance_clock (s : State) : (advance s).clock = s.clock := rfl
@[simp] theorem advance_draws (s : State) : (advance s).draws = s.draws := rfl
@[simp] theorem advance_retired (s : State) : (advance s).retired = s.retired := rfl

/-! ### `jump` -/

@[simp] theorem jump_gpr (s : State) (t : Word) : (jump s t).gpr = s.gpr := rfl
@[simp] theorem jump_usp (s : State) (t : Word) : (jump s t).usp = s.usp := rfl
@[simp] theorem jump_ufp (s : State) (t : Word) : (jump s t).ufp = s.ufp := rfl
@[simp] theorem jump_pc (s : State) (t : Word) : (jump s t).pc = t := rfl
@[simp] theorem jump_flags (s : State) (t : Word) : (jump s t).flags = s.flags := rfl
@[simp] theorem jump_pdbr (s : State) (t : Word) : (jump s t).pdbr = s.pdbr := rfl
@[simp] theorem jump_intvec (s : State) (t : Word) : (jump s t).intvec = s.intvec := rfl
@[simp] theorem jump_cgbr (s : State) (t : Word) : (jump s t).cgbr = s.cgbr := rfl
@[simp] theorem jump_cglen (s : State) (t : Word) : (jump s t).cglen = s.cglen := rfl
@[simp] theorem jump_debug (s : State) (t : Word) : (jump s t).debug = s.debug := rfl
@[simp] theorem jump_timer (s : State) (t : Word) : (jump s t).timer = s.timer := rfl
@[simp] theorem jump_syssp (s : State) (t : Word) : (jump s t).syssp = s.syssp := rfl
@[simp] theorem jump_sysfp (s : State) (t : Word) : (jump s t).sysfp = s.sysfp := rfl
@[simp] theorem jump_mem (s : State) (t : Word) : (jump s t).mem = s.mem := rfl
@[simp] theorem jump_discs (s : State) (t : Word) : (jump s t).discs = s.discs := rfl
@[simp] theorem jump_tapes (s : State) (t : Word) : (jump s t).tapes = s.tapes := rfl
@[simp] theorem jump_keyboard (s : State) (t : Word) : (jump s t).keyboard = s.keyboard := rfl
@[simp] theorem jump_screen (s : State) (t : Word) : (jump s t).screen = s.screen := rfl
@[simp] theorem jump_files (s : State) (t : Word) : (jump s t).files = s.files := rfl
@[simp] theorem jump_running (s : State) (t : Word) : (jump s t).running = s.running := rfl
@[simp] theorem jump_params (s : State) (t : Word) : (jump s t).params = s.params := rfl
@[simp] theorem jump_arrivals (s : State) (t : Word) : (jump s t).arrivals = s.arrivals := rfl
@[simp] theorem jump_answers (s : State) (t : Word) : (jump s t).answers = s.answers := rfl
@[simp] theorem jump_clock (s : State) (t : Word) : (jump s t).clock = s.clock := rfl
@[simp] theorem jump_draws (s : State) (t : Word) : (jump s t).draws = s.draws := rfl
@[simp] theorem jump_retired (s : State) (t : Word) : (jump s t).retired = s.retired := rfl

/-! ### `systemView` -/

@[simp] theorem systemView_gpr (s : State) (b : Bool) : (systemView s b).gpr = s.gpr := rfl
@[simp] theorem systemView_usp (s : State) (b : Bool) : (systemView s b).usp = s.usp := rfl
@[simp] theorem systemView_ufp (s : State) (b : Bool) : (systemView s b).ufp = s.ufp := rfl
@[simp] theorem systemView_pc (s : State) (b : Bool) : (systemView s b).pc = s.pc := rfl
@[simp] theorem systemView_flags (s : State) (b : Bool) : (systemView s b).flags = { s.flags with sys := true, ip := s.flags.ip || b } := rfl
@[simp] theorem systemView_pdbr (s : State) (b : Bool) : (systemView s b).pdbr = s.pdbr := rfl
@[simp] theorem systemView_intvec (s : State) (b : Bool) : (systemView s b).intvec = s.intvec := rfl
@[simp] theorem systemView_cgbr (s : State) (b : Bool) : (systemView s b).cgbr = s.cgbr := rfl
@[simp] theorem systemView_cglen (s : State) (b : Bool) : (systemView s b).cglen = s.cglen := rfl
@[simp] theorem systemView_debug (s : State) (b : Bool) : (systemView s b).debug = s.debug := rfl
@[simp] theorem systemView_timer (s : State) (b : Bool) : (systemView s b).timer = s.timer := rfl
@[simp] theorem systemView_syssp (s : State) (b : Bool) : (systemView s b).syssp = s.syssp := rfl
@[simp] theorem systemView_sysfp (s : State) (b : Bool) : (systemView s b).sysfp = s.sysfp := rfl
@[simp] theorem systemView_mem (s : State) (b : Bool) : (systemView s b).mem = s.mem := rfl
@[simp] theorem systemView_discs (s : State) (b : Bool) : (systemView s b).discs = s.discs := rfl
@[simp] theorem systemView_tapes (s : State) (b : Bool) : (systemView s b).tapes = s.tapes := rfl
@[simp] theorem systemView_keyboard (s : State) (b : Bool) : (systemView s b).keyboard = s.keyboard := rfl
@[simp] theorem systemView_screen (s : State) (b : Bool) : (systemView s b).screen = s.screen := rfl
@[simp] theorem systemView_files (s : State) (b : Bool) : (systemView s b).files = s.files := rfl
@[simp] theorem systemView_running (s : State) (b : Bool) : (systemView s b).running = s.running := rfl
@[simp] theorem systemView_params (s : State) (b : Bool) : (systemView s b).params = s.params := rfl
@[simp] theorem systemView_arrivals (s : State) (b : Bool) : (systemView s b).arrivals = s.arrivals := rfl
@[simp] theorem systemView_answers (s : State) (b : Bool) : (systemView s b).answers = s.answers := rfl
@[simp] theorem systemView_clock (s : State) (b : Bool) : (systemView s b).clock = s.clock := rfl
@[simp] theorem systemView_draws (s : State) (b : Bool) : (systemView s b).draws = s.draws := rfl
@[simp] theorem systemView_retired (s : State) (b : Bool) : (systemView s b).retired = s.retired := rfl

/-! ### `setDisc` -/

@[simp] theorem setDisc_gpr (s : State) (i : Fin 8) (d : Disc) : (setDisc s i d).gpr = s.gpr := rfl
@[simp] theorem setDisc_usp (s : State) (i : Fin 8) (d : Disc) : (setDisc s i d).usp = s.usp := rfl
@[simp] theorem setDisc_ufp (s : State) (i : Fin 8) (d : Disc) : (setDisc s i d).ufp = s.ufp := rfl
@[simp] theorem setDisc_pc (s : State) (i : Fin 8) (d : Disc) : (setDisc s i d).pc = s.pc := rfl
@[simp] theorem setDisc_flags (s : State) (i : Fin 8) (d : Disc) : (setDisc s i d).flags = s.flags := rfl
@[simp] theorem setDisc_pdbr (s : State) (i : Fin 8) (d : Disc) : (setDisc s i d).pdbr = s.pdbr := rfl
@[simp] theorem setDisc_intvec (s : State) (i : Fin 8) (d : Disc) : (setDisc s i d).intvec = s.intvec := rfl
@[simp] theorem setDisc_cgbr (s : State) (i : Fin 8) (d : Disc) : (setDisc s i d).cgbr = s.cgbr := rfl
@[simp] theorem setDisc_cglen (s : State) (i : Fin 8) (d : Disc) : (setDisc s i d).cglen = s.cglen := rfl
@[simp] theorem setDisc_debug (s : State) (i : Fin 8) (d : Disc) : (setDisc s i d).debug = s.debug := rfl
@[simp] theorem setDisc_timer (s : State) (i : Fin 8) (d : Disc) : (setDisc s i d).timer = s.timer := rfl
@[simp] theorem setDisc_syssp (s : State) (i : Fin 8) (d : Disc) : (setDisc s i d).syssp = s.syssp := rfl
@[simp] theorem setDisc_sysfp (s : State) (i : Fin 8) (d : Disc) : (setDisc s i d).sysfp = s.sysfp := rfl
@[simp] theorem setDisc_mem (s : State) (i : Fin 8) (d : Disc) : (setDisc s i d).mem = s.mem := rfl
@[simp] theorem setDisc_discs (s : State) (i : Fin 8) (d : Disc) : (setDisc s i d).discs = s.discs.set i (some d) := rfl
@[simp] theorem setDisc_tapes (s : State) (i : Fin 8) (d : Disc) : (setDisc s i d).tapes = s.tapes := rfl
@[simp] theorem setDisc_keyboard (s : State) (i : Fin 8) (d : Disc) : (setDisc s i d).keyboard = s.keyboard := rfl
@[simp] theorem setDisc_screen (s : State) (i : Fin 8) (d : Disc) : (setDisc s i d).screen = s.screen := rfl
@[simp] theorem setDisc_files (s : State) (i : Fin 8) (d : Disc) : (setDisc s i d).files = s.files := rfl
@[simp] theorem setDisc_running (s : State) (i : Fin 8) (d : Disc) : (setDisc s i d).running = s.running := rfl
@[simp] theorem setDisc_params (s : State) (i : Fin 8) (d : Disc) : (setDisc s i d).params = s.params := rfl
@[simp] theorem setDisc_arrivals (s : State) (i : Fin 8) (d : Disc) : (setDisc s i d).arrivals = s.arrivals := rfl
@[simp] theorem setDisc_answers (s : State) (i : Fin 8) (d : Disc) : (setDisc s i d).answers = s.answers := rfl
@[simp] theorem setDisc_clock (s : State) (i : Fin 8) (d : Disc) : (setDisc s i d).clock = s.clock := rfl
@[simp] theorem setDisc_draws (s : State) (i : Fin 8) (d : Disc) : (setDisc s i d).draws = s.draws := rfl
@[simp] theorem setDisc_retired (s : State) (i : Fin 8) (d : Disc) : (setDisc s i d).retired = s.retired := rfl

/-! ### `setTape` -/

@[simp] theorem setTape_gpr (s : State) (i : Fin 8) (x : Option Tape) : (setTape s i x).gpr = s.gpr := rfl
@[simp] theorem setTape_usp (s : State) (i : Fin 8) (x : Option Tape) : (setTape s i x).usp = s.usp := rfl
@[simp] theorem setTape_ufp (s : State) (i : Fin 8) (x : Option Tape) : (setTape s i x).ufp = s.ufp := rfl
@[simp] theorem setTape_pc (s : State) (i : Fin 8) (x : Option Tape) : (setTape s i x).pc = s.pc := rfl
@[simp] theorem setTape_flags (s : State) (i : Fin 8) (x : Option Tape) : (setTape s i x).flags = s.flags := rfl
@[simp] theorem setTape_pdbr (s : State) (i : Fin 8) (x : Option Tape) : (setTape s i x).pdbr = s.pdbr := rfl
@[simp] theorem setTape_intvec (s : State) (i : Fin 8) (x : Option Tape) : (setTape s i x).intvec = s.intvec := rfl
@[simp] theorem setTape_cgbr (s : State) (i : Fin 8) (x : Option Tape) : (setTape s i x).cgbr = s.cgbr := rfl
@[simp] theorem setTape_cglen (s : State) (i : Fin 8) (x : Option Tape) : (setTape s i x).cglen = s.cglen := rfl
@[simp] theorem setTape_debug (s : State) (i : Fin 8) (x : Option Tape) : (setTape s i x).debug = s.debug := rfl
@[simp] theorem setTape_timer (s : State) (i : Fin 8) (x : Option Tape) : (setTape s i x).timer = s.timer := rfl
@[simp] theorem setTape_syssp (s : State) (i : Fin 8) (x : Option Tape) : (setTape s i x).syssp = s.syssp := rfl
@[simp] theorem setTape_sysfp (s : State) (i : Fin 8) (x : Option Tape) : (setTape s i x).sysfp = s.sysfp := rfl
@[simp] theorem setTape_mem (s : State) (i : Fin 8) (x : Option Tape) : (setTape s i x).mem = s.mem := rfl
@[simp] theorem setTape_discs (s : State) (i : Fin 8) (x : Option Tape) : (setTape s i x).discs = s.discs := rfl
@[simp] theorem setTape_tapes (s : State) (i : Fin 8) (x : Option Tape) : (setTape s i x).tapes = s.tapes.set i x := rfl
@[simp] theorem setTape_keyboard (s : State) (i : Fin 8) (x : Option Tape) : (setTape s i x).keyboard = s.keyboard := rfl
@[simp] theorem setTape_screen (s : State) (i : Fin 8) (x : Option Tape) : (setTape s i x).screen = s.screen := rfl
@[simp] theorem setTape_files (s : State) (i : Fin 8) (x : Option Tape) : (setTape s i x).files = s.files := rfl
@[simp] theorem setTape_running (s : State) (i : Fin 8) (x : Option Tape) : (setTape s i x).running = s.running := rfl
@[simp] theorem setTape_params (s : State) (i : Fin 8) (x : Option Tape) : (setTape s i x).params = s.params := rfl
@[simp] theorem setTape_arrivals (s : State) (i : Fin 8) (x : Option Tape) : (setTape s i x).arrivals = s.arrivals := rfl
@[simp] theorem setTape_answers (s : State) (i : Fin 8) (x : Option Tape) : (setTape s i x).answers = s.answers := rfl
@[simp] theorem setTape_clock (s : State) (i : Fin 8) (x : Option Tape) : (setTape s i x).clock = s.clock := rfl
@[simp] theorem setTape_draws (s : State) (i : Fin 8) (x : Option Tape) : (setTape s i x).draws = s.draws := rfl
@[simp] theorem setTape_retired (s : State) (i : Fin 8) (x : Option Tape) : (setTape s i x).retired = s.retired := rfl

/-! ### `moveTape` -/

@[simp] theorem moveTape_gpr (s : State) (i : Fin 8) (x : Tape) (n : Nat) : (moveTape s i x n).gpr = s.gpr := rfl
@[simp] theorem moveTape_usp (s : State) (i : Fin 8) (x : Tape) (n : Nat) : (moveTape s i x n).usp = s.usp := rfl
@[simp] theorem moveTape_ufp (s : State) (i : Fin 8) (x : Tape) (n : Nat) : (moveTape s i x n).ufp = s.ufp := rfl
@[simp] theorem moveTape_pc (s : State) (i : Fin 8) (x : Tape) (n : Nat) : (moveTape s i x n).pc = s.pc := rfl
@[simp] theorem moveTape_flags (s : State) (i : Fin 8) (x : Tape) (n : Nat) : (moveTape s i x n).flags = s.flags := rfl
@[simp] theorem moveTape_pdbr (s : State) (i : Fin 8) (x : Tape) (n : Nat) : (moveTape s i x n).pdbr = s.pdbr := rfl
@[simp] theorem moveTape_intvec (s : State) (i : Fin 8) (x : Tape) (n : Nat) : (moveTape s i x n).intvec = s.intvec := rfl
@[simp] theorem moveTape_cgbr (s : State) (i : Fin 8) (x : Tape) (n : Nat) : (moveTape s i x n).cgbr = s.cgbr := rfl
@[simp] theorem moveTape_cglen (s : State) (i : Fin 8) (x : Tape) (n : Nat) : (moveTape s i x n).cglen = s.cglen := rfl
@[simp] theorem moveTape_debug (s : State) (i : Fin 8) (x : Tape) (n : Nat) : (moveTape s i x n).debug = s.debug := rfl
@[simp] theorem moveTape_timer (s : State) (i : Fin 8) (x : Tape) (n : Nat) : (moveTape s i x n).timer = s.timer := rfl
@[simp] theorem moveTape_syssp (s : State) (i : Fin 8) (x : Tape) (n : Nat) : (moveTape s i x n).syssp = s.syssp := rfl
@[simp] theorem moveTape_sysfp (s : State) (i : Fin 8) (x : Tape) (n : Nat) : (moveTape s i x n).sysfp = s.sysfp := rfl
@[simp] theorem moveTape_mem (s : State) (i : Fin 8) (x : Tape) (n : Nat) : (moveTape s i x n).mem = s.mem := rfl
@[simp] theorem moveTape_discs (s : State) (i : Fin 8) (x : Tape) (n : Nat) : (moveTape s i x n).discs = s.discs := rfl
@[simp] theorem moveTape_tapes (s : State) (i : Fin 8) (x : Tape) (n : Nat) : (moveTape s i x n).tapes = s.tapes.set i (some { x with position := n }) := rfl
@[simp] theorem moveTape_keyboard (s : State) (i : Fin 8) (x : Tape) (n : Nat) : (moveTape s i x n).keyboard = s.keyboard := rfl
@[simp] theorem moveTape_screen (s : State) (i : Fin 8) (x : Tape) (n : Nat) : (moveTape s i x n).screen = s.screen := rfl
@[simp] theorem moveTape_files (s : State) (i : Fin 8) (x : Tape) (n : Nat) : (moveTape s i x n).files = s.files := rfl
@[simp] theorem moveTape_running (s : State) (i : Fin 8) (x : Tape) (n : Nat) : (moveTape s i x n).running = s.running := rfl
@[simp] theorem moveTape_params (s : State) (i : Fin 8) (x : Tape) (n : Nat) : (moveTape s i x n).params = s.params := rfl
@[simp] theorem moveTape_arrivals (s : State) (i : Fin 8) (x : Tape) (n : Nat) : (moveTape s i x n).arrivals = s.arrivals := rfl
@[simp] theorem moveTape_answers (s : State) (i : Fin 8) (x : Tape) (n : Nat) : (moveTape s i x n).answers = s.answers := rfl
@[simp] theorem moveTape_clock (s : State) (i : Fin 8) (x : Tape) (n : Nat) : (moveTape s i x n).clock = s.clock := rfl
@[simp] theorem moveTape_draws (s : State) (i : Fin 8) (x : Tape) (n : Nat) : (moveTape s i x n).draws = s.draws := rfl
@[simp] theorem moveTape_retired (s : State) (i : Fin 8) (x : Tape) (n : Nat) : (moveTape s i x n).retired = s.retired := rfl

/-! ### `print` -/

@[simp] theorem print_gpr (s : State) (cs : List Byte) : (print s cs).gpr = s.gpr := rfl
@[simp] theorem print_usp (s : State) (cs : List Byte) : (print s cs).usp = s.usp := rfl
@[simp] theorem print_ufp (s : State) (cs : List Byte) : (print s cs).ufp = s.ufp := rfl
@[simp] theorem print_pc (s : State) (cs : List Byte) : (print s cs).pc = s.pc := rfl
@[simp] theorem print_flags (s : State) (cs : List Byte) : (print s cs).flags = s.flags := rfl
@[simp] theorem print_pdbr (s : State) (cs : List Byte) : (print s cs).pdbr = s.pdbr := rfl
@[simp] theorem print_intvec (s : State) (cs : List Byte) : (print s cs).intvec = s.intvec := rfl
@[simp] theorem print_cgbr (s : State) (cs : List Byte) : (print s cs).cgbr = s.cgbr := rfl
@[simp] theorem print_cglen (s : State) (cs : List Byte) : (print s cs).cglen = s.cglen := rfl
@[simp] theorem print_debug (s : State) (cs : List Byte) : (print s cs).debug = s.debug := rfl
@[simp] theorem print_timer (s : State) (cs : List Byte) : (print s cs).timer = s.timer := rfl
@[simp] theorem print_syssp (s : State) (cs : List Byte) : (print s cs).syssp = s.syssp := rfl
@[simp] theorem print_sysfp (s : State) (cs : List Byte) : (print s cs).sysfp = s.sysfp := rfl
@[simp] theorem print_mem (s : State) (cs : List Byte) : (print s cs).mem = s.mem := rfl
@[simp] theorem print_discs (s : State) (cs : List Byte) : (print s cs).discs = s.discs := rfl
@[simp] theorem print_tapes (s : State) (cs : List Byte) : (print s cs).tapes = s.tapes := rfl
@[simp] theorem print_keyboard (s : State) (cs : List Byte) : (print s cs).keyboard = s.keyboard := rfl
@[simp] theorem print_screen (s : State) (cs : List Byte) : (print s cs).screen = s.screen ++ cs := rfl
@[simp] theorem print_files (s : State) (cs : List Byte) : (print s cs).files = s.files := rfl
@[simp] theorem print_running (s : State) (cs : List Byte) : (print s cs).running = s.running := rfl
@[simp] theorem print_params (s : State) (cs : List Byte) : (print s cs).params = s.params := rfl
@[simp] theorem print_arrivals (s : State) (cs : List Byte) : (print s cs).arrivals = s.arrivals := rfl
@[simp] theorem print_answers (s : State) (cs : List Byte) : (print s cs).answers = s.answers := rfl
@[simp] theorem print_clock (s : State) (cs : List Byte) : (print s cs).clock = s.clock := rfl
@[simp] theorem print_draws (s : State) (cs : List Byte) : (print s cs).draws = s.draws := rfl
@[simp] theorem print_retired (s : State) (cs : List Byte) : (print s cs).retired = s.retired := rfl

/-! ### `takeKeys` -/

@[simp] theorem takeKeys_gpr (s : State) (k : Nat) : (takeKeys s k).gpr = s.gpr := rfl
@[simp] theorem takeKeys_usp (s : State) (k : Nat) : (takeKeys s k).usp = s.usp := rfl
@[simp] theorem takeKeys_ufp (s : State) (k : Nat) : (takeKeys s k).ufp = s.ufp := rfl
@[simp] theorem takeKeys_pc (s : State) (k : Nat) : (takeKeys s k).pc = s.pc := rfl
@[simp] theorem takeKeys_flags (s : State) (k : Nat) : (takeKeys s k).flags = s.flags := rfl
@[simp] theorem takeKeys_pdbr (s : State) (k : Nat) : (takeKeys s k).pdbr = s.pdbr := rfl
@[simp] theorem takeKeys_intvec (s : State) (k : Nat) : (takeKeys s k).intvec = s.intvec := rfl
@[simp] theorem takeKeys_cgbr (s : State) (k : Nat) : (takeKeys s k).cgbr = s.cgbr := rfl
@[simp] theorem takeKeys_cglen (s : State) (k : Nat) : (takeKeys s k).cglen = s.cglen := rfl
@[simp] theorem takeKeys_debug (s : State) (k : Nat) : (takeKeys s k).debug = s.debug := rfl
@[simp] theorem takeKeys_timer (s : State) (k : Nat) : (takeKeys s k).timer = s.timer := rfl
@[simp] theorem takeKeys_syssp (s : State) (k : Nat) : (takeKeys s k).syssp = s.syssp := rfl
@[simp] theorem takeKeys_sysfp (s : State) (k : Nat) : (takeKeys s k).sysfp = s.sysfp := rfl
@[simp] theorem takeKeys_mem (s : State) (k : Nat) : (takeKeys s k).mem = s.mem := rfl
@[simp] theorem takeKeys_discs (s : State) (k : Nat) : (takeKeys s k).discs = s.discs := rfl
@[simp] theorem takeKeys_tapes (s : State) (k : Nat) : (takeKeys s k).tapes = s.tapes := rfl
@[simp] theorem takeKeys_keyboard (s : State) (k : Nat) : (takeKeys s k).keyboard = s.keyboard.drop k := rfl
@[simp] theorem takeKeys_screen (s : State) (k : Nat) : (takeKeys s k).screen = s.screen := rfl
@[simp] theorem takeKeys_files (s : State) (k : Nat) : (takeKeys s k).files = s.files := rfl
@[simp] theorem takeKeys_running (s : State) (k : Nat) : (takeKeys s k).running = s.running := rfl
@[simp] theorem takeKeys_params (s : State) (k : Nat) : (takeKeys s k).params = s.params := rfl
@[simp] theorem takeKeys_arrivals (s : State) (k : Nat) : (takeKeys s k).arrivals = s.arrivals := rfl
@[simp] theorem takeKeys_answers (s : State) (k : Nat) : (takeKeys s k).answers = s.answers := rfl
@[simp] theorem takeKeys_clock (s : State) (k : Nat) : (takeKeys s k).clock = s.clock := rfl
@[simp] theorem takeKeys_draws (s : State) (k : Nat) : (takeKeys s k).draws = s.draws := rfl
@[simp] theorem takeKeys_retired (s : State) (k : Nat) : (takeKeys s k).retired = s.retired := rfl

/-! ### `setReg` -/

@[simp] theorem setReg_flags (s : State) (r : Reg) (v : Word) : (setReg s r v).flags = s.flags := by
  rcases r with _ | _ | _ | _ <;> simp only [setReg] <;> try (split <;> rfl)
@[simp] theorem setReg_pdbr (s : State) (r : Reg) (v : Word) : (setReg s r v).pdbr = s.pdbr := by
  rcases r with _ | _ | _ | _ <;> simp only [setReg] <;> try (split <;> rfl)
@[simp] theorem setReg_intvec (s : State) (r : Reg) (v : Word) : (setReg s r v).intvec = s.intvec := by
  rcases r with _ | _ | _ | _ <;> simp only [setReg] <;> try (split <;> rfl)
@[simp] theorem setReg_cgbr (s : State) (r : Reg) (v : Word) : (setReg s r v).cgbr = s.cgbr := by
  rcases r with _ | _ | _ | _ <;> simp only [setReg] <;> try (split <;> rfl)
@[simp] theorem setReg_cglen (s : State) (r : Reg) (v : Word) : (setReg s r v).cglen = s.cglen := by
  rcases r with _ | _ | _ | _ <;> simp only [setReg] <;> try (split <;> rfl)
@[simp] theorem setReg_debug (s : State) (r : Reg) (v : Word) : (setReg s r v).debug = s.debug := by
  rcases r with _ | _ | _ | _ <;> simp only [setReg] <;> try (split <;> rfl)
@[simp] theorem setReg_timer (s : State) (r : Reg) (v : Word) : (setReg s r v).timer = s.timer := by
  rcases r with _ | _ | _ | _ <;> simp only [setReg] <;> try (split <;> rfl)
@[simp] theorem setReg_mem (s : State) (r : Reg) (v : Word) : (setReg s r v).mem = s.mem := by
  rcases r with _ | _ | _ | _ <;> simp only [setReg] <;> try (split <;> rfl)
@[simp] theorem setReg_discs (s : State) (r : Reg) (v : Word) : (setReg s r v).discs = s.discs := by
  rcases r with _ | _ | _ | _ <;> simp only [setReg] <;> try (split <;> rfl)
@[simp] theorem setReg_tapes (s : State) (r : Reg) (v : Word) : (setReg s r v).tapes = s.tapes := by
  rcases r with _ | _ | _ | _ <;> simp only [setReg] <;> try (split <;> rfl)
@[simp] theorem setReg_keyboard (s : State) (r : Reg) (v : Word) : (setReg s r v).keyboard = s.keyboard := by
  rcases r with _ | _ | _ | _ <;> simp only [setReg] <;> try (split <;> rfl)
@[simp] theorem setReg_screen (s : State) (r : Reg) (v : Word) : (setReg s r v).screen = s.screen := by
  rcases r with _ | _ | _ | _ <;> simp only [setReg] <;> try (split <;> rfl)
@[simp] theorem setReg_files (s : State) (r : Reg) (v : Word) : (setReg s r v).files = s.files := by
  rcases r with _ | _ | _ | _ <;> simp only [setReg] <;> try (split <;> rfl)
@[simp] theorem setReg_running (s : State) (r : Reg) (v : Word) : (setReg s r v).running = s.running := by
  rcases r with _ | _ | _ | _ <;> simp only [setReg] <;> try (split <;> rfl)
@[simp] theorem setReg_params (s : State) (r : Reg) (v : Word) : (setReg s r v).params = s.params := by
  rcases r with _ | _ | _ | _ <;> simp only [setReg] <;> try (split <;> rfl)
@[simp] theorem setReg_arrivals (s : State) (r : Reg) (v : Word) : (setReg s r v).arrivals = s.arrivals := by
  rcases r with _ | _ | _ | _ <;> simp only [setReg] <;> try (split <;> rfl)
@[simp] theorem setReg_answers (s : State) (r : Reg) (v : Word) : (setReg s r v).answers = s.answers := by
  rcases r with _ | _ | _ | _ <;> simp only [setReg] <;> try (split <;> rfl)
@[simp] theorem setReg_clock (s : State) (r : Reg) (v : Word) : (setReg s r v).clock = s.clock := by
  rcases r with _ | _ | _ | _ <;> simp only [setReg] <;> try (split <;> rfl)
@[simp] theorem setReg_draws (s : State) (r : Reg) (v : Word) : (setReg s r v).draws = s.draws := by
  rcases r with _ | _ | _ | _ <;> simp only [setReg] <;> try (split <;> rfl)
@[simp] theorem setReg_retired (s : State) (r : Reg) (v : Word) : (setReg s r v).retired = s.retired := by
  rcases r with _ | _ | _ | _ <;> simp only [setReg] <;> try (split <;> rfl)

/-! ### `setSpecial` -/

@[simp] theorem setSpecial_gpr (s : State) (n : SpecialReg) (v : Word) :
    (setSpecial s n v).gpr = s.gpr := by cases n <;> rfl
@[simp] theorem setSpecial_usp (s : State) (n : SpecialReg) (v : Word) :
    (setSpecial s n v).usp = s.usp := by cases n <;> rfl
@[simp] theorem setSpecial_ufp (s : State) (n : SpecialReg) (v : Word) :
    (setSpecial s n v).ufp = s.ufp := by cases n <;> rfl
@[simp] theorem setSpecial_pc (s : State) (n : SpecialReg) (v : Word) :
    (setSpecial s n v).pc = s.pc := by cases n <;> rfl
@[simp] theorem setSpecial_mem (s : State) (n : SpecialReg) (v : Word) :
    (setSpecial s n v).mem = s.mem := by cases n <;> rfl
@[simp] theorem setSpecial_discs (s : State) (n : SpecialReg) (v : Word) :
    (setSpecial s n v).discs = s.discs := by cases n <;> rfl
@[simp] theorem setSpecial_tapes (s : State) (n : SpecialReg) (v : Word) :
    (setSpecial s n v).tapes = s.tapes := by cases n <;> rfl
@[simp] theorem setSpecial_keyboard (s : State) (n : SpecialReg) (v : Word) :
    (setSpecial s n v).keyboard = s.keyboard := by cases n <;> rfl
@[simp] theorem setSpecial_screen (s : State) (n : SpecialReg) (v : Word) :
    (setSpecial s n v).screen = s.screen := by cases n <;> rfl
@[simp] theorem setSpecial_files (s : State) (n : SpecialReg) (v : Word) :
    (setSpecial s n v).files = s.files := by cases n <;> rfl
@[simp] theorem setSpecial_running (s : State) (n : SpecialReg) (v : Word) :
    (setSpecial s n v).running = s.running := by cases n <;> rfl
@[simp] theorem setSpecial_params (s : State) (n : SpecialReg) (v : Word) :
    (setSpecial s n v).params = s.params := by cases n <;> rfl
@[simp] theorem setSpecial_arrivals (s : State) (n : SpecialReg) (v : Word) :
    (setSpecial s n v).arrivals = s.arrivals := by cases n <;> rfl
@[simp] theorem setSpecial_answers (s : State) (n : SpecialReg) (v : Word) :
    (setSpecial s n v).answers = s.answers := by cases n <;> rfl
@[simp] theorem setSpecial_clock (s : State) (n : SpecialReg) (v : Word) :
    (setSpecial s n v).clock = s.clock := by cases n <;> rfl
@[simp] theorem setSpecial_draws (s : State) (n : SpecialReg) (v : Word) :
    (setSpecial s n v).draws = s.draws := by cases n <;> rfl
@[simp] theorem setSpecial_retired (s : State) (n : SpecialReg) (v : Word) :
    (setSpecial s n v).retired = s.retired := by cases n <;> rfl
@[simp] theorem setSpecial_flags (s : State) (n : SpecialReg) (v : Word) :
    (setSpecial s n v).flags = if n = .flags then Flags.ofWord v else s.flags := by cases n <;> rfl
@[simp] theorem setSpecial_pdbr (s : State) (n : SpecialReg) (v : Word) :
    (setSpecial s n v).pdbr = if n = .pdbr then v else s.pdbr := by cases n <;> rfl
@[simp] theorem setSpecial_intvec (s : State) (n : SpecialReg) (v : Word) :
    (setSpecial s n v).intvec = if n = .intvec then v else s.intvec := by cases n <;> rfl
@[simp] theorem setSpecial_cgbr (s : State) (n : SpecialReg) (v : Word) :
    (setSpecial s n v).cgbr = if n = .cgbr then v else s.cgbr := by cases n <;> rfl
@[simp] theorem setSpecial_cglen (s : State) (n : SpecialReg) (v : Word) :
    (setSpecial s n v).cglen = if n = .cglen then v else s.cglen := by cases n <;> rfl
@[simp] theorem setSpecial_debug (s : State) (n : SpecialReg) (v : Word) :
    (setSpecial s n v).debug = if n = .debug then v else s.debug := by cases n <;> rfl
@[simp] theorem setSpecial_timer (s : State) (n : SpecialReg) (v : Word) :
    (setSpecial s n v).timer = if n = .timer then v else s.timer := by cases n <;> rfl
@[simp] theorem setSpecial_syssp (s : State) (n : SpecialReg) (v : Word) :
    (setSpecial s n v).syssp = if n = .syssp then v else s.syssp := by cases n <;> rfl
@[simp] theorem setSpecial_sysfp (s : State) (n : SpecialReg) (v : Word) :
    (setSpecial s n v).sysfp = if n = .sysfp then v else s.sysfp := by cases n <;> rfl

end Sys2Proof.Machine
end

