-- ==== Sys2Proof/Laws/Memory.lean ====
section
/-! SUPPORT. The laws of memory: what is read after a write, and that every operation over memory keeps its
canonical form (`Memory.wf`). -/

namespace Sys2Proof.Machine

/-! ### Sparse stores -/

@[simp] theorem Sparse.find_nil {α : Type} (a : Nat) : Sparse.find ([] : Sparse α) a = none := rfl

/-- A key listed by `put` reads as listed, and every other key as before, whatever the store. -/
theorem Sparse.find_put {α : Type} (m : Sparse α) (a b : Nat) (v : α) :
    Sparse.find (Sparse.put m a v) b = if b = a then some v else Sparse.find m b := by
  induction m with
  | nil => simp [Sparse.put, Sparse.find, eq_comm]
  | cons c rest ih =>
    obtain ⟨k, w⟩ := c
    simp only [Sparse.put]
    split
    · simp [Sparse.find, eq_comm]
    · split
      · next h => subst h; by_cases hb : a = b <;> simp [Sparse.find, hb, eq_comm]
      · next h => by_cases hk : k = b <;> simp_all [Sparse.find, eq_comm]

/-- A key taken out reads as unlisted, and every other key as before. -/
theorem Sparse.find_remove {α : Type} (m : Sparse α) (a b : Nat) :
    Sparse.find (Sparse.remove m a) b = if b = a then none else Sparse.find m b := by
  induction m with
  | nil => simp [Sparse.remove, Sparse.find]
  | cons c rest ih =>
    obtain ⟨k, w⟩ := c
    simp only [Sparse.remove] at ih ⊢
    by_cases hk : k = a
    · subst hk; by_cases hb : b = k <;> simp_all [Sparse.find, eq_comm]
    · by_cases hb : k = b <;> simp_all [Sparse.find]

/-- What `put` lists. -/
theorem Sparse.mem_put {α : Type} {m : Sparse α} {a : Nat} {v : α} {c : Nat × α}
    (h : c ∈ Sparse.put m a v) : c = (a, v) ∨ c ∈ m := by
  induction m with
  | nil => simpa [Sparse.put] using h
  | cons d rest ih =>
    obtain ⟨k, w⟩ := d
    simp only [Sparse.put] at h
    split at h
    · simpa using h
    · split at h <;> simp only [List.mem_cons] at h ⊢ <;> tauto

/-- `put` keeps the keys rising. -/
theorem Sparse.sorted_put {α : Type} {m : Sparse α} (a : Nat) (v : α) (h : Sparse.sorted m) :
    Sparse.sorted (Sparse.put m a v) := by
  induction m with
  | nil => simp [Sparse.put, Sparse.sorted]
  | cons d rest ih =>
    obtain ⟨k, w⟩ := d
    obtain ⟨hk, hr⟩ := List.pairwise_cons.mp h
    simp only [Sparse.put]
    split
    · next hlt =>
      refine List.pairwise_cons.mpr ⟨fun c hc => ?_, h⟩
      rcases List.mem_cons.mp hc with rfl | hc
      · exact hlt
      · exact lt_trans hlt (hk c hc)
    · split
      · next _ he => subst he; exact List.pairwise_cons.mpr ⟨hk, hr⟩
      · next h1 h2 =>
        refine List.pairwise_cons.mpr ⟨fun c hc => ?_, ih hr⟩
        rcases Sparse.mem_put hc with rfl | hc
        · exact lt_of_le_of_ne (not_lt.mp h1) (Ne.symm h2)
        · exact hk c hc

/-- `remove` keeps the keys rising. -/
theorem Sparse.sorted_remove {α : Type} {m : Sparse α} (a : Nat) (h : Sparse.sorted m) :
    Sparse.sorted (Sparse.remove m a) := h.filter _

/-! ### Memory -/

/-- A content that counts as unlisted is the word an unlisted address holds. -/
theorem isUnlisted_eq {c : Content} (h : isUnlisted c = true) : c = .word unlistedWord := by
  cases c <;> simp_all [isUnlisted]

/-- The content of memory after a write. -/
theorem Memory.content_put (m : Memory) (p q : Word) (c : Content) :
    (m.put p c).content q = if q = p then c else m.content q := by
  simp only [Memory.put, Memory.content]
  split
  · next h =>
    rw [Sparse.find_remove, isUnlisted_eq h]
    by_cases hq : q = p <;> simp [hq, BitVec.toNat_inj]
  · rw [Sparse.find_put]
    by_cases hq : q = p <;> simp [hq, BitVec.toNat_inj]

/-- What a word of memory reads as after a write: the first law of memory. -/
theorem Memory.read_put (m : Memory) (p q : Word) (c : Content) :
    (m.put p c).read q = if q = p then contentWord c else m.read q := by
  simp only [Memory.read, Memory.content_put]; split <;> rfl

@[simp] theorem Memory.read_put_same (m : Memory) (p : Word) (c : Content) :
    (m.put p c).read p = contentWord c := by simp [Memory.read_put]

theorem Memory.read_put_other (m : Memory) {p q : Word} (c : Content) (h : q ≠ p) :
    (m.put p c).read q = m.read q := by simp [Memory.read_put, h]

@[simp] theorem contentWord_word (w : Word) : contentWord (.word w) = w := rfl

/-- An address that memory lists after a write was listed before or is the one written. -/
theorem Memory.mem_put {m : Memory} {p : Word} {c : Content} {e : Nat × Content}
    (h : e ∈ m.put p c) : e.1 = p.toNat ∨ e ∈ m := by
  simp only [Memory.put] at h
  split at h
  · exact .inr (List.mem_of_mem_filter h)
  · rcases Sparse.mem_put h with rfl | h
    · exact .inl rfl
    · exact .inr h

/-- A write keeps the canonical form. -/
theorem Memory.wf_put {m : Memory} (p : Word) (c : Content) (h : m.wf) : (m.put p c).wf := by
  simp only [Memory.put]
  split
  · exact ⟨Sparse.sorted_remove _ h.1, fun e he => h.2 e (List.mem_of_mem_filter he)⟩
  · next hc =>
    refine ⟨Sparse.sorted_put _ _ h.1, fun e he => ?_⟩
    rcases Sparse.mem_put he with rfl | he
    · simpa using hc
    · exact h.2 e he

/-! ### The operations of the state over memory -/

/-- The start-up state's memory is canonical. -/
theorem reset_memory_wf : State.reset.mem.wf := by simp [Memory.wf, Sparse.sorted, State.reset]

/-- What a physical write can do: the word exists, and memory holds the content there. -/
theorem physPut_ok {s t : State} {p : Word} {c : Content} (h : physPut s p c = .ok t) :
    present s p = true ∧ t = { s with mem := s.mem.put p c } := by
  simp only [physPut] at h
  split at h
  · next hp => exact ⟨hp, (Except.ok.inj h).symm⟩
  · simp [raised] at h

/-- Why a physical write fails. -/
theorem physPut_error {s : State} {p : Word} {c : Content} {e : Abort}
    (h : physPut s p c = .error e) :
    present s p = false ∧ e = .raise (interruptAt .memory p) := by
  simp only [physPut] at h
  split at h
  · simp at h
  · next hp => exact ⟨by simpa using hp, by simpa [raised] using h.symm⟩

/-- What a physical read can do. -/
theorem physRead_ok {s : State} {p w : Word} (h : physRead s p = .ok w) :
    present s p = true ∧ w = s.mem.read p := by
  simp only [physRead] at h
  split at h
  · next hp => exact ⟨hp, (Except.ok.inj h).symm⟩
  · simp [raised] at h

/-- A physical write keeps memory canonical. -/
theorem physPut_wf {s t : State} {p : Word} {c : Content} (hs : s.mem.wf)
    (h : physPut s p c = .ok t) : t.mem.wf := by
  obtain ⟨-, rfl⟩ := physPut_ok h
  exact Memory.wf_put p c hs

/-- What `writeWord` can do: the address translates to a word that exists, and that word changes. -/
theorem writeWord_ok {s t : State} {a v : Word} (h : writeWord s a v = .ok t) :
    ∃ p, translate s a = .ok p ∧ present s p = true ∧
      t = { s with mem := s.mem.put p (.word v) } := by
  simp only [writeWord, physWrite] at h
  cases hp : translate s a with
  | error e => simp [hp, Except.bind] at h
  | ok p => rw [hp] at h; exact ⟨p, rfl, physPut_ok h⟩

/-- `writeWord` keeps memory canonical. -/
theorem writeWord_wf {s t : State} {a v : Word} (hs : s.mem.wf) (h : writeWord s a v = .ok t) :
    t.mem.wf := by
  obtain ⟨p, -, -, rfl⟩ := writeWord_ok h
  exact Memory.wf_put p _ hs

/-- `scramble` changes memory and the counter of free values only. -/
theorem scramble_frame (ps : List Word) (s : State) :
    scramble s ps = { s with mem := (scramble s ps).mem, draws := (scramble s ps).draws } := by
  induction ps generalizing s with
  | nil => rfl
  | cons p ps ih => rw [scramble, ih]

/-- `scramble` keeps memory canonical. -/
theorem scramble_wf (ps : List Word) (s : State) (hs : s.mem.wf) : (scramble s ps).mem.wf := by
  induction ps generalizing s with
  | nil => exact hs
  | cons p ps ih => exact ih _ (Memory.wf_put p (.free s.draws) hs)

/-- `scramble` leaves every word that it does not list as it was. -/
theorem scramble_read (ps : List Word) (s : State) {q : Word} (h : q ∉ ps) :
    (scramble s ps).mem.read q = s.mem.read q := by
  induction ps generalizing s with
  | nil => rfl
  | cons p ps ih =>
    simp only [List.mem_cons, not_or] at h
    rw [scramble, ih _ h.2, Memory.read_put_other _ _ h.1]

/-- What `scramble` lists was listed before, or is one of its addresses. -/
theorem scramble_mem (ps : List Word) (s : State) {e : Nat × Content}
    (h : e ∈ (scramble s ps).mem) : (∃ p ∈ ps, e.1 = p.toNat) ∨ e ∈ s.mem := by
  induction ps generalizing s with
  | nil => exact .inr h
  | cons p ps ih =>
    rcases ih _ h with ⟨q, hq, he⟩ | he
    · exact .inl ⟨q, List.mem_cons_of_mem _ hq, he⟩
    · rcases Memory.mem_put (m := s.mem) (p := p) (c := .free s.draws) he with he | he
      · exact .inl ⟨p, List.mem_cons_self, he⟩
      · exact .inr he

/-- Every store of a sequence keeps memory canonical. -/
theorem storeAll_wf (xs : List (Word × Content)) (s t : State) (ws us : List Word) (hs : s.mem.wf)
    (h : storeAll s ws xs = .done t us) : t.mem.wf := by
  induction xs generalizing s ws with
  | nil => cases h; exact hs
  | cons x rest ih =>
    obtain ⟨a, c⟩ := x
    simp only [storeAll] at h
    split at h <;> try cases h
    split at h <;> try cases h
    next hp => exact ih _ _ (physPut_wf hs hp) h

/-- A sequence of stores changes memory only. -/
theorem storeAll_frame (xs : List (Word × Content)) (s t : State) (ws us : List Word)
    (h : storeAll s ws xs = .done t us) : t = { s with mem := t.mem } := by
  induction xs generalizing s ws with
  | nil => cases h; rfl
  | cons x rest ih =>
    obtain ⟨a, c⟩ := x
    simp only [storeAll] at h
    split at h <;> try cases h
    split at h <;> try cases h
    next hp =>
      have ht := ih _ _ h
      obtain ⟨-, rfl⟩ := physPut_ok hp
      exact ht

/-- Every address that a sequence of stores reports exists. -/
theorem storeAll_done_present (xs : List (Word × Content)) (s t : State) (ws us : List Word)
    (hw : ∀ p ∈ ws, present s p = true) (h : storeAll s ws xs = .done t us) :
    ∀ p ∈ us, present s p = true := by
  induction xs generalizing s ws with
  | nil => cases h; exact hw
  | cons x rest ih =>
    obtain ⟨a, c⟩ := x
    simp only [storeAll] at h
    split at h <;> try cases h
    split at h <;> try cases h
    next p _ _ _ hp =>
      obtain ⟨hpr, rfl⟩ := physPut_ok hp
      exact ih { s with mem := s.mem.put p c } _ (fun q hq => (List.mem_cons.mp hq).elim (fun e => e ▸ hpr) (hw q)) h

/-- The same where the sequence fails part-way. -/
theorem storeAll_failed_present (xs : List (Word × Content)) (s : State) (i : Interrupt)
    (ws us : List Word) (hw : ∀ p ∈ ws, present s p = true)
    (h : storeAll s ws xs = .failed i us) : ∀ p ∈ us, present s p = true := by
  induction xs generalizing s ws with
  | nil => cases h
  | cons x rest ih =>
    obtain ⟨a, c⟩ := x
    simp only [storeAll] at h
    split at h <;> try cases h
    · exact hw
    split at h <;> try cases h
    · exact hw
    next p _ _ _ hp =>
      obtain ⟨hpr, rfl⟩ := physPut_ok hp
      exact ih { s with mem := s.mem.put p c } _ (fun q hq => (List.mem_cons.mp hq).elim (fun e => e ▸ hpr) (hw q)) h

/-- A sequence of stores leaves every word that it does not report as it was. -/
theorem storeAll_read (xs : List (Word × Content)) (s t : State) (ws us : List Word)
    (h : storeAll s ws xs = .done t us) {q : Word} (hq : q ∉ us) :
    t.mem.read q = s.mem.read q ∧ ∀ p ∈ ws, p ∈ us := by
  induction xs generalizing s ws with
  | nil => cases h; exact ⟨rfl, fun p hp => hp⟩
  | cons x rest ih =>
    obtain ⟨a, c⟩ := x
    simp only [storeAll] at h
    split at h <;> try cases h
    split at h <;> try cases h
    next p _ _ _ hp =>
      obtain ⟨h1, h2⟩ := ih _ _ h
      obtain ⟨-, rfl⟩ := physPut_ok hp
      have hne : q ≠ p := fun e => hq (e ▸ h2 p List.mem_cons_self)
      exact ⟨by rw [h1, Memory.read_put_other _ _ hne], fun r hr => h2 r (List.mem_cons_of_mem _ hr)⟩

/-- Placing a word at PC keeps memory canonical. -/
theorem placeAtPc_wf (s : State) (w : Word) (hs : s.mem.wf) : (placeAtPc s w).mem.wf := by
  simp only [placeAtPc]
  split
  · exact Memory.wf_put _ _ hs
  · exact hs

/-- Popping reads memory and changes SP only. -/
theorem pop_ok {s t : State} {v : Word} (h : pop s = .ok (v, t)) :
    readWord s (getReg s .sp) = .ok v ∧ t = setReg s .sp (getReg s .sp + 1) := by
  simp only [pop] at h
  cases hr : readWord s (getReg s .sp) with
  | error e => simp [hr, Except.map] at h
  | ok w => simp [hr, Except.map] at h; exact ⟨by simp [h.1], by simp [h.2]⟩

/-- Pushing changes one word of memory and SP. -/
theorem push_ok {s t : State} {v : Word} (h : push s v = .ok t) :
    ∃ p, translate s (getReg s .sp - 1) = .ok p ∧ present s p = true ∧
      t = setReg { s with mem := s.mem.put p (.word v) } .sp (getReg s .sp - 1) := by
  simp only [push] at h
  cases hw : writeWord s (getReg s .sp - 1) v with
  | error e => rw [hw] at h; simp [Except.map] at h
  | ok u =>
    obtain ⟨p, h1, h2, rfl⟩ := writeWord_ok hw
    rw [hw] at h
    exact ⟨p, h1, h2, (Except.ok.inj h).symm⟩

end Sys2Proof.Machine
end

