-- ==== Sys2Proof/Laws/Registers.lean ====
section
/-! SUPPORT. The laws of the registers, the flags word and the special registers. -/

namespace Sys2Proof.Machine

/-! ### Regular registers -/

/-- A register reads as what was written to it, whatever register it is. -/
@[simp] theorem getReg_setReg_same (s : State) (r : Reg) (v : Word) :
    getReg (setReg s r v) r = v := by
  cases r with
  | r i => simp [getReg, setReg]
  | sp => by_cases h : s.flags.sys <;> simp [getReg, setReg, h]
  | fp => by_cases h : s.flags.sys <;> simp [getReg, setReg, h]
  | pc => rfl

/-- Every other register reads as before. -/
theorem getReg_setReg_other (s : State) {r q : Reg} (v : Word) (h : q ≠ r) :
    getReg (setReg s r v) q = getReg s q := by
  cases r with
  | r i =>
    cases q with
    | r j =>
      have hij : (i : Nat) ≠ j := fun e => h (by rw [Fin.ext e])
      simp [getReg, setReg, hij]
    | sp => rfl
    | fp => rfl
    | pc => rfl
  | sp => cases q <;> by_cases hs : s.flags.sys <;> simp_all [getReg, setReg]
  | fp => cases q <;> by_cases hs : s.flags.sys <;> simp_all [getReg, setReg]
  | pc => cases q <;> first | rfl | exact absurd rfl h

@[simp] theorem getReg_pc (s : State) : getReg s .pc = s.pc := rfl

/-- PC aside, moving PC on changes no register. -/
theorem getReg_advance (s : State) {q : Reg} (h : q ≠ .pc) : getReg (advance s) q = getReg s q := by
  cases q <;> first | rfl | exact absurd rfl h

theorem getReg_jump (s : State) (t : Word) {q : Reg} (h : q ≠ .pc) :
    getReg (jump s t) q = getReg s q := by
  cases q <;> first | rfl | exact absurd rfl h

/-- PC is the only register whose writing moves PC. -/
theorem setReg_pc_of_ne (s : State) {r : Reg} (v : Word) (h : r ≠ .pc) :
    (setReg s r v).pc = s.pc := by
  cases r <;> simp_all [setReg] <;> split <;> rfl

/-- Writing a register does not reach the other mode's SP and FP. -/
theorem dormantBank_setReg (s : State) (r : Reg) (v : Word) :
    dormantBank (setReg s r v) = dormantBank s := by
  cases r <;> by_cases hs : s.flags.sys <;> simp [dormantBank, setReg, hs]

/-- The frame of "one register, then PC one on". -/
theorem onlyRegister_advance (s : State) (r : Reg) (v : Word) :
    OnlyRegister s (advance (setReg s r v)) r where
  mode := by simp
  others q hq hpc := by rw [getReg_advance _ hpc, getReg_setReg_other _ _ hq]
  dormant := by rw [← dormantBank_setReg s r v]; rfl

theorem registerOnly_advance (s : State) (r : Reg) (v : Word) :
    RegisterOnly s (advance (setReg s r v)) where
  flags := by simp
  specials := ⟨by simp, by simp, by simp, by simp, by simp, by simp⟩
  memory q := by simp
  devices := ⟨by simp, by simp, by simp, by simp, by simp⟩
  host := ⟨by simp, by simp, by simp, by simp, by simp⟩

/-- A destination that is not PC is let through. -/
theorem guardDestination_of_ne {r : Reg} (h : r ≠ .pc) : guardDestination r = .ok () := by
  cases r <;> simp_all [guardDestination]

@[simp] theorem guardDestination_pc : guardDestination .pc = refused .pcAsDestination := rfl

/-! ### The flags word -/

/-- The bits of the flags word (10_state.md R25). -/
theorem Flags.toWord_bits (f : Flags) :
    ∀ i, i < 32 → f.toWord.getLsbD i =
      [f.r, f.z, f.n, f.err, f.sys, f.ip, f.vm].getD i false := by
  intro i hi
  by_cases h : i < 7
  · obtain ⟨r, z, n, err, sys, ip, vm⟩ := f
    interval_cases i <;> revert r z n err sys ip vm <;> decide
  · have h7 : 7 ≤ i := by omega
    simp [Flags.toWord, h7]

/-- A flags word read back from its flags: bits 31..7 are gone (10_state.md R25, D7). -/
theorem Flags.toWord_ofWord (w : Word) : (Flags.ofWord w).toWord = w &&& 127 := by
  have h127 : ∀ i, i < 32 → (127 : Word).getLsbD i = decide (i < 7) := by decide
  apply BitVec.eq_of_getLsbD_eq
  intro i hi
  rw [Flags.toWord_bits _ _ hi, BitVec.getLsbD_and, h127 i hi]
  by_cases h : i < 7
  · interval_cases i <;> simp [Flags.ofWord]
  · simp [h]

/-- Flags written as a word and read again. -/
@[simp] theorem Flags.ofWord_toWord (f : Flags) : Flags.ofWord f.toWord = f := by
  obtain ⟨r, z, n, err, sys, ip, vm⟩ := f
  revert r z n err sys ip vm; decide

/-- Bit `j` of the flags word is the flag with number `j`. -/
theorem Flags.toWord_bit (f : Flags) (name : FlagName) :
    f.toWord.getLsbD (flagNumber name) = f.get name := by
  obtain ⟨r, z, n, err, sys, ip, vm⟩ := f
  revert r z n err sys ip vm; cases name <;> decide

@[simp] theorem Flags.get_set_same (f : Flags) (name : FlagName) (b : Bool) :
    (f.set name b).get name = b := by cases name <;> rfl

theorem Flags.get_set_other (f : Flags) {name other : FlagName} (b : Bool) (h : other ≠ name) :
    (f.set name b).get other = f.get other := by
  cases name <;> cases other <;> simp_all [Flags.get, Flags.set]

/-- A flag's number names it. -/
theorem flagOfNumber_flagNumber (name : FlagName) :
    flagOfNumber (BitVec.ofNat 32 (flagNumber name)) = some name := by cases name <;> rfl

/-! ### Special registers -/

/-- A special register other than FLAGS reads as what was written to it. -/
theorem getSpecial_setSpecial_same (s : State) {n : SpecialReg} (v : Word) (h : n ≠ .flags) :
    getSpecial (setSpecial s n v) n = v := by
  cases n <;> simp_all [getSpecial]

theorem getSpecial_setSpecial_flags (s : State) (v : Word) :
    getSpecial (setSpecial s .flags v) .flags = v &&& 127 := Flags.toWord_ofWord v

theorem getSpecial_setSpecial_other (s : State) {n m : SpecialReg} (v : Word) (h : m ≠ n) :
    getSpecial (setSpecial s n v) m = getSpecial s m := by
  cases n <;> cases m <;> simp_all [getSpecial]

end Sys2Proof.Machine
end

