-- ==== Sys2Proof/Laws/Ops.lean ====
section
/-! SUPPORT. For each shared operation, once, everything it can do: completing an instruction, interrupt
entry and return, translation, operands. The proofs about instructions cite these and unfold none of them. -/

namespace Sys2Proof.Machine

/-! ### Completing an instruction -/

@[simp] theorem finish_ok (s t : State) : finish s (.ok t) = .next { t with retired := true } := rfl

@[simp] theorem finish_raised (s : State) (i : Interrupt) :
    finish s (raised i) = takeInterrupt i s := rfl

@[simp] theorem finish_refused (s : State) (r : Refusal) : finish s (refused r) = .refused r := rfl

/-- How an instruction comes to a next state: it completed, or the interrupt it raised was taken. -/
theorem finish_next {s t : State} {x : Access State} (h : finish s x = .next t) :
    (∃ u, x = .ok u ∧ t = { u with retired := true }) ∨
      ∃ i, x = raised i ∧ takeInterrupt i s = .next t := by
  rcases x with (i | r) | u
  · exact .inr ⟨i, rfl, h⟩
  · simp [finish] at h
  · exact .inl ⟨u, rfl, by simpa using h.symm⟩

/-- An instruction faults only through the interrupt that it raised. -/
theorem finish_fault {s : State} {x : Access State} {f : Fault} (h : finish s x = .fault f) :
    ∃ i, x = raised i ∧ takeInterrupt i s = .fault f := by
  rcases x with (i | r) | u
  · exact ⟨i, rfl, h⟩
  · simp [finish] at h
  · simp [finish] at h

@[simp] theorem bind_ok {α β : Type} (a : α) (f : α → Access β) :
    Except.bind (.ok a) f = f a := rfl

@[simp] theorem bind_raised {α β : Type} (i : Interrupt) (f : α → Access β) :
    Except.bind (raised i) f = raised i := rfl

@[simp] theorem bind_refused {α β : Type} (r : Refusal) (f : α → Access β) :
    Except.bind (refused r) f = refused r := rfl

@[simp] theorem map_ok {α β : Type} (a : α) (f : α → β) :
    Except.map f (.ok a : Access α) = .ok (f a) := rfl

@[simp] theorem map_raised {α β : Type} (i : Interrupt) (f : α → β) :
    Except.map f (raised i) = raised i := rfl

@[simp] theorem map_refused {α β : Type} (r : Refusal) (f : α → β) :
    Except.map f (refused r : Access α) = refused r := rfl

/-- What a sequence of two accesses needs to succeed. -/
theorem bind_eq_ok {α β : Type} {x : Access α} {f : α → Access β} {b : β}
    (h : Except.bind x f = .ok b) : ∃ a, x = .ok a ∧ f a = .ok b := by
  cases x with
  | error e => simp [Except.bind] at h
  | ok a => exact ⟨a, rfl, h⟩

/-- Why a sequence of two accesses raises an interrupt. -/
theorem bind_eq_raised {α β : Type} {x : Access α} {f : α → Access β} {i : Interrupt}
    (h : Except.bind x f = raised i) : x = raised i ∨ ∃ a, x = .ok a ∧ f a = raised i := by
  cases x with
  | error e => exact .inl (by simpa [Except.bind, raised] using h)
  | ok a => exact .inr ⟨a, rfl, h⟩

theorem map_eq_ok {α β : Type} {x : Access α} {f : α → β} {b : β}
    (h : Except.map f x = .ok b) : ∃ a, x = .ok a ∧ b = f a := by
  cases x with
  | error e => simp [Except.map] at h
  | ok a => exact ⟨a, rfl, by simpa [Except.map] using h.symm⟩

theorem map_eq_raised {α β : Type} {x : Access α} {f : α → β} {i : Interrupt}
    (h : Except.map f x = raised i) : x = raised i := by
  cases x with
  | error e => simpa [Except.map, raised] using h
  | ok a => simp [Except.map, raised] at h

@[simp] theorem privileged_system {s : State} (e : Access State) (h : s.flags.sys = true) :
    privileged s e = e := by simp [privileged, h]

@[simp] theorem privileged_user {s : State} (e : Access State) (h : s.flags.sys = false) :
    privileged s e = raised (interruptAt .privOp s.pc) := by simp [privileged, h]

/-! ### Translation -/

/-- 20_memory.md R44: with VM = 0 an address is physical. -/
theorem translate_of_vm_off {s : State} (a : Word) (h : s.flags.vm = false) :
    translate s a = .ok a := by simp [translate, h]

theorem readWord_of_vm_off {s : State} (a : Word) (h : s.flags.vm = false) :
    readWord s a = physRead s a := by simp [readWord, translate_of_vm_off a h]

theorem writeWord_of_vm_off {s : State} (a v : Word) (h : s.flags.vm = false) :
    writeWord s a v = physWrite s a v := by simp [writeWord, translate_of_vm_off a h]

theorem physRead_present {s : State} {p : Word} (h : present s p = true) :
    physRead s p = .ok (s.mem.read p) := by simp [physRead, h]

theorem physPut_present {s : State} {p : Word} (c : Content) (h : present s p = true) :
    physPut s p c = .ok { s with mem := s.mem.put p c } := by simp [physPut, h]

/-- What a word that could be read is: the word at a present physical address. -/
theorem readWord_ok {s : State} {a w : Word} (h : readWord s a = .ok w) :
    ∃ p, translate s a = .ok p ∧ present s p = true ∧ w = s.mem.read p := by
  obtain ⟨p, hp, hr⟩ := bind_eq_ok h
  exact ⟨p, hp, physRead_ok hr⟩

/-- A write to an address that translates to a present word succeeds. -/
theorem writeWord_present {s : State} {a p : Word} (v : Word) (ha : translate s a = .ok p)
    (hp : present s p = true) : writeWord s a v = .ok { s with mem := s.mem.put p (.word v) } := by
  simp [writeWord, ha, physWrite, physPut_present _ hp]

/-- 60_exceptions.md R200, R216: the interrupts that an access to memory can raise. -/
theorem translate_raises {s : State} {a : Word} {i : Interrupt} (h : translate s a = raised i) :
    i.code = .memory ∨ i.code = .pageFault ∨ i.code = .pagePriv := by
  have hphys : ∀ p j, physRead s p = raised j → j.code = .memory := fun p j hj => by
    simp only [physRead] at hj
    split at hj
    · simp [raised] at hj
    · simp only [raised, Except.error.injEq, Abort.raise.injEq] at hj; subst hj; rfl
  simp only [translate] at h
  split at h
  · simp [raised] at h
  split at h
  · simp [raised, refused] at h
  rcases bind_eq_raised h with h | ⟨table, -, h⟩
  · exact .inl (hphys _ _ h)
  split at h
  · simp only [raised, Except.error.injEq, Abort.raise.injEq] at h; subst h; exact .inr (.inl rfl)
  rcases bind_eq_raised h with h | ⟨entry, -, h⟩
  · exact .inl (hphys _ _ h)
  simp only [translateEntry] at h
  split at h
  · simp only [raised, Except.error.injEq, Abort.raise.injEq] at h; subst h; exact .inr (.inl rfl)
  split at h
  · simp only [raised, Except.error.injEq, Abort.raise.injEq] at h; subst h; exact .inr (.inr rfl)
  · simp [raised] at h

/-! ### Operands -/

/-- What writing to an operand can do: a register other than PC changes, or one word of memory. -/
theorem assignOperand_ok {s t : State} {op : Operand} {v : Word}
    (h : assignOperand s op v = .ok t) :
    (∃ r, op = .reg r ∧ r ≠ .pc ∧ t = setReg s r v) ∨
      ∃ a p, operandAddress s op = some a ∧ translate s a = .ok p ∧ present s p = true ∧
        t = { s with mem := s.mem.put p (.word v) } := by
  cases op with
  | imm n => simp [assignOperand, raised] at h
  | reg r =>
    refine .inl ⟨r, rfl, ?_⟩
    obtain ⟨u, hu, rfl⟩ := map_eq_ok h
    exact ⟨fun e => by subst e; simp [guardDestination, refused] at hu, rfl⟩
  | mem r n =>
    obtain ⟨p, h1, h2, h3⟩ := writeWord_ok h
    exact .inr ⟨_, p, rfl, h1, h2, h3⟩
  | memAt n =>
    obtain ⟨p, h1, h2, h3⟩ := writeWord_ok h
    exact .inr ⟨_, p, rfl, h1, h2, h3⟩

/-- The value of a memory operand is the word at its address. -/
theorem operandValue_of_address {s : State} {op : Operand} {a : Word}
    (h : operandAddress s op = some a) : operandValue s op = readWord s a := by
  cases op <;> simp_all [operandAddress, operandValue]

/-- Writing to a memory operand is writing the word at its address. -/
theorem assignOperand_of_address {s : State} {op : Operand} {a : Word} (v : Word)
    (h : operandAddress s op = some a) : assignOperand s op v = writeWord s a v := by
  cases op <;> simp_all [operandAddress, assignOperand]

/-! ### Taking an interrupt -/

@[simp] theorem frameWords_length (s : State) (c : IntCode) (addr info : Content) :
    (frameWords s c addr info).length = 21 := by simp [frameWords, savedRegisters]

@[simp] theorem stackStores_length (sp : Word) (cs : List Content) :
    (stackStores sp cs).length = cs.length := by
  induction cs generalizing sp with
  | nil => rfl
  | cons c cs ih => simp [stackStores, ih]

/-- The stores of a run of pushes: the `k`-th content, `k + 1` words below the stack pointer. -/
theorem stackStores_get (cs : List Content) (sp : Word) (k : Nat) :
    (stackStores sp cs)[k]? = cs[k]?.map fun c => (sp - 1 - BitVec.ofNat 32 k, c) := by
  induction cs generalizing sp k with
  | nil => simp [stackStores]
  | cons c cs ih =>
    cases k with
    | zero => simp [stackStores]
    | succ k =>
      have hk : sp - 1 - 1 - BitVec.ofNat 32 k = sp - 1 - BitVec.ofNat 32 (k + 1) := by
        have h1 : BitVec.ofNat 32 (k + 1) = BitVec.ofNat 32 k + 1 := BitVec.ofNat_add k 1
        rw [h1]; ring
      simp only [stackStores, List.getElem?_cons_succ, ih, hk]

/-- What `enter` does when it enters: the frame's stores have all been made, SP lies 21 words lower, PC
is the handler, and nothing else has changed. -/
theorem enter_entered {c : IntCode} {addr info : Content} {s t : State}
    (h : enter c addr info s = .entered t) :
    ∃ handler u ws, readWord (systemView s true) (s.intvec + codeWord c) = .ok handler ∧
      handler ≠ 0 ∧
      storeAll (systemView s true) [] (stackStores s.syssp (frameWords s c addr info)) =
        .done u ws ∧
      t = { systemView s true with
            mem := u.mem, syssp := s.syssp - BitVec.ofNat 32 21, pc := handler } := by
  simp only [enter, frameWords_length] at h
  split at h <;> try cases h
  next handler hr =>
    split at h <;> try cases h
    next hz =>
      split at h <;> try cases h
      next u ws hu =>
        refine ⟨handler, u, ws, hr, hz, hu, ?_⟩
        have hf := storeAll_frame _ _ _ _ _ hu
        generalize hm : u.mem = m at hf ⊢
        subst hf; rfl

/-- What `enter` does when it is abandoned: words at present addresses may hold free values. -/
theorem enter_invalid {c : IntCode} {addr info : Content} {s t : State}
    (h : enter c addr info s = .invalid t) :
    ∃ ws, t = scramble s ws ∧ ∀ p ∈ ws, present s p = true := by
  simp only [enter] at h
  split at h
  · cases h
  · cases h; exact ⟨[], rfl, by simp⟩
  next handler hr =>
    split at h <;> try cases h
    split at h <;> try cases h
    next i ws hu =>
      exact ⟨ws, rfl, storeAll_failed_present _ (systemView s true) i [] ws (by simp) hu⟩

/-- What an entered interrupt leaves: memory, the counter of free values, SYS and IP, SYSSP and PC have
changed, nothing else; PC is not 0; memory stays canonical. -/
theorem raise_entered {i : Interrupt} {s t : State} (h : raise i s = .entered t) :
    t = { s with mem := t.mem, draws := t.draws,
                 flags := { s.flags with sys := true, ip := true },
                 syssp := s.syssp - BitVec.ofNat 32 21, pc := t.pc } ∧
      t.pc ≠ 0 ∧ (s.mem.wf → t.mem.wf) := by
  have key : ∀ (c : IntCode) (addr info : Content) (u : State),
      u = { s with mem := u.mem, draws := u.draws } → (s.mem.wf → u.mem.wf) →
      enter c addr info u = .entered t →
      t = { s with mem := t.mem, draws := t.draws,
                   flags := { s.flags with sys := true, ip := true },
                   syssp := s.syssp - BitVec.ofNat 32 21, pc := t.pc } ∧
        t.pc ≠ 0 ∧ (s.mem.wf → t.mem.wf) := by
    intro c addr info u hu hw he
    obtain ⟨handler, v, ws, -, hz, hv, rfl⟩ := enter_entered he
    refine ⟨?_, hz, fun hs => storeAll_wf _ (systemView u true) v _ _ (hw hs) hv⟩
    generalize u.mem = m at hu
    generalize u.draws = d at hu
    subst hu
    simp [systemView]
  have fail : ∀ (addr : Content) (u : State), u = { s with mem := u.mem, draws := u.draws } →
      (s.mem.wf → u.mem.wf) → failEntry i.code addr u = .entered t →
      t = { s with mem := t.mem, draws := t.draws,
                   flags := { s.flags with sys := true, ip := true },
                   syssp := s.syssp - BitVec.ofNat 32 21, pc := t.pc } ∧
        t.pc ≠ 0 ∧ (s.mem.wf → t.mem.wf) := by
    intro addr u hu hw hf
    simp only [failEntry] at hf
    split at hf <;> try cases hf
    next he => exact key _ _ _ u hu hw he
  simp only [raise] at h
  split at h
  · split at h
    · cases h
    · exact fail _ { s with draws := s.draws + 2 } rfl id h
  · split at h
    · next he =>
      cases h
      exact key _ _ _ { s with draws := s.draws + 2 } rfl id he
    · split at h <;> cases h
    · next u he =>
      obtain ⟨ws, rfl, -⟩ := enter_invalid he
      exact fail _ (scramble { s with draws := s.draws + 2 } ws)
        (scramble_frame ws { s with draws := s.draws + 2 })
        (scramble_wf ws { s with draws := s.draws + 2 }) h
    · cases h

/-- Only a notification is ever dropped. -/
theorem raise_dropped {i : Interrupt} {s : State} (h : raise i s = .dropped) :
    isNotification i.code = true := by
  have hfail : ∀ addr u, failEntry i.code addr u ≠ .dropped := by
    intro addr u hf
    simp only [failEntry] at hf
    split at hf <;> cases hf
  simp only [raise] at h
  split at h
  · split at h
    · assumption
    · exact absurd h (hfail _ _)
  · split at h
    · cases h
    · split at h
      · assumption
      · cases h
    · exact absurd h (hfail _ _)
    · cases h

/-- A run that stops names the interrupt that stopped it, and keeps everything but memory and the counter
of free values. -/
theorem raise_stopped {i : Interrupt} {s last : State} {c : IntCode} {a : Word}
    (h : raise i s = .stopped c a last) :
    c = i.code ∧ last = { s with mem := last.mem, draws := last.draws } := by
  have hfail : ∀ addr u, u = { s with mem := u.mem, draws := u.draws } →
      failEntry i.code addr u = .stopped c a last →
      c = i.code ∧ last = { s with mem := last.mem, draws := last.draws } := by
    intro addr u hu hf
    simp only [failEntry] at hf
    split at hf <;> try cases hf
    · exact ⟨rfl, hu⟩
    next he =>
      obtain ⟨ws, rfl, -⟩ := enter_invalid he
      refine ⟨rfl, ?_⟩
      rw [scramble_frame]
      generalize (scramble u ws).mem = m
      generalize (scramble u ws).draws = d
      rw [hu]
  simp only [raise] at h
  split at h
  · split at h
    · cases h
    · exact hfail _ { s with draws := s.draws + 2 } rfl h
  · split at h
    · cases h
    · split at h <;> cases h
      exact ⟨rfl, rfl⟩
    · next u he =>
      obtain ⟨ws, rfl, -⟩ := enter_invalid he
      exact hfail _ _ (scramble_frame ws { s with draws := s.draws + 2 }) h
    · cases h

/-- Everything that taking an interrupt can do where it ends in a next state: an entry, or, for a
notification, nothing. -/
theorem takeInterrupt_next {i : Interrupt} {s t : State} (h : takeInterrupt i s = .next t) :
    (isNotification i.code = true ∧ t = { s with retired := false }) ∨
      t = { s with mem := t.mem, draws := t.draws,
                   flags := { s.flags with sys := true, ip := true },
                   syssp := s.syssp - BitVec.ofNat 32 21, pc := t.pc, retired := false } ∧
        t.pc ≠ 0 ∧ (s.mem.wf → t.mem.wf) := by
  simp only [takeInterrupt] at h
  split at h <;> try cases h
  · next u hu =>
    obtain ⟨he, hz, hw⟩ := raise_entered hu
    refine .inr ⟨?_, hz, hw⟩
    generalize u.mem = m at he ⊢
    generalize u.draws = d at he ⊢
    generalize u.pc = p at he ⊢
    subst he; rfl
  · next hd => exact .inl ⟨raise_dropped hd, rfl⟩

/-- Taking an interrupt faults only by stopping the run, under the interrupt's code. -/
theorem takeInterrupt_fault {i : Interrupt} {s : State} {f : Fault}
    (h : takeInterrupt i s = .fault f) :
    ∃ a last, raise i s = .stopped i.code a last ∧
      f = .stopped i.code a { last with retired := false } := by
  simp only [takeInterrupt] at h
  split at h <;> try cases h
  next c a last hs =>
    obtain ⟨rfl, -⟩ := raise_stopped hs
    exact ⟨a, last, hs, rfl⟩

/-! ### Returning from an interrupt -/

/-- What returning from an interrupt needs, and what it restores. -/
theorem returnFromInterrupt_ok {s t : State} (h : returnFromInterrupt s = .ok t) :
    ∃ oldFlags saved, readWord s s.syssp = .ok frameMarker ∧
      readWord s (s.syssp + 1) = .ok oldFlags ∧ readRun s (s.syssp + 5) 16 = .ok saved ∧
      t = restoreFrame s oldFlags saved := by
  simp only [returnFromInterrupt] at h
  obtain ⟨marker, hm, h⟩ := bind_eq_ok h
  obtain ⟨oldFlags, hf, h⟩ := bind_eq_ok h
  split at h
  · simp [refused] at h
  · next hk =>
    obtain ⟨saved, hs, rfl⟩ := map_eq_ok h
    have hk : marker = frameMarker := not_not.mp hk
    exact ⟨oldFlags, saved, hk ▸ hm, hf, hs, rfl⟩

/-- Reading a run of words, from the readings of its words. -/
theorem readRun_eq (s : State) (n : Nat) (a : Word) (w : Nat → Word)
    (h : ∀ k, k < n → readWord s (a + BitVec.ofNat 32 k) = .ok (w k)) :
    readRun s a n = .ok ((List.range n).map w) := by
  induction n generalizing a w with
  | zero => rfl
  | succ n ih =>
    have h0 := h 0 (Nat.succ_pos n)
    have hrest := ih (a + 1) (fun k => w (k + 1)) fun k hk => by
      have hk' := h (k + 1) (Nat.succ_lt_succ hk)
      have h1 : BitVec.ofNat 32 (k + 1) = BitVec.ofNat 32 k + 1 := BitVec.ofNat_add k 1
      rw [h1] at hk'
      rw [← hk']; congr 1; ring
    have ha : a + BitVec.ofNat 32 0 = a := by simp
    rw [ha] at h0
    rw [readRun, h0, bind_ok, hrest, map_ok, List.range_succ_eq_map, List.map_cons, List.map_map]
    rfl

end Sys2Proof.Machine
end

