-- ==== Sys2Proof/Laws/Cycle.lean ====
section
/-! SUPPORT. What a step can do, said once: the environment, the instruction, the timer. -/

namespace Sys2Proof.Machine

/-- The environment changes the keyboard buffer, RUNNING, the host files and its own script, nothing
else (70_reset_and_hazards.md R245). -/
theorem environment_frame (s : State) :
    environment s =
      { s with keyboard := (environment s).keyboard, running := (environment s).running,
               files := (environment s).files, arrivals := (environment s).arrivals } := by
  have key : ∀ (es : List HostEvent) (u : State),
      es.foldl applyEvent u =
        { u with keyboard := (es.foldl applyEvent u).keyboard,
                 running := (es.foldl applyEvent u).running,
                 files := (es.foldl applyEvent u).files } := by
    intro es
    induction es with
    | nil => intro u; rfl
    | cons e es ih =>
      intro u
      rw [List.foldl_cons, ih (applyEvent u e)]
      cases e with
      | key c => by_cases h : u.running <;> simp [applyEvent, h]
      | setRunning b => rfl
      | putFile f => rfl
  simp only [environment]
  split
  · rfl
  · next es rest _ => rw [key es s]

/-- With nothing to come, the environment does nothing. -/
theorem environment_of_none {s : State} (h : s.arrivals = []) : environment s = s := by
  simp [environment, h]

/-- A halted machine stays as it is (60_exceptions.md R236). -/
@[simp] theorem stepWith_halted (dec : Word → Option Instr) {s : State} (h : s.flags.r = false) :
    stepWith dec s = .next s := by simp [stepWith, h]

theorem settle_next {o : Host.Outcome State Fault Refusal} {t : State} (h : settle o = .next t) :
    ∃ u, o = .next u ∧ t = { u with retired := false } := by
  cases o <;> simp_all [settle]

/-- What counting the timer can do. -/
theorem countDown_next {s t : State} (h : countDown s = .next t) :
    t = s ∨ (s.retired = true ∧ s.flags.r = true ∧ s.timer ≠ 0 ∧
      (t = { s with timer := s.timer - 1 } ∨
        takeInterrupt (notification .timer) { s with timer := s.timer - 1 } = .next t)) := by
  simp only [countDown] at h
  split at h
  · next hc =>
    simp only [Bool.and_eq_true, bne_iff_ne, ne_eq] at hc
    refine .inr ⟨hc.1.1, hc.1.2, hc.2, ?_⟩
    split at h
    · exact .inr h
    · exact .inl (by simpa using h.symm)
  · exact .inl (by simpa using h.symm)

/-- What fetching, decoding and executing can do. -/
theorem runInstruction_next {dec : Word → Option Instr} {s t : State}
    (h : runInstruction dec s = .next t) :
    (∃ i, takeInterrupt i s = .next t) ∨
      ∃ w i, fetch s = .ok w ∧ dec w = some i ∧ exec i s = .next t := by
  simp only [runInstruction] at h
  split at h
  · exact .inl ⟨_, h⟩
  · split at h
    · exact .inl ⟨_, h⟩
    · cases h
    · next w hw =>
      split at h
      · exact .inl ⟨_, h⟩
      · next i hi => exact .inr ⟨w, i, hw, hi, h⟩

/-- Everything a step can do where it ends in a next state: nothing, in a halted machine; the entry of
KEYBD; or an instruction (or the interrupt before it) and then the count of the timer. -/
theorem stepWith_next {dec : Word → Option Instr} {s t : State} (h : stepWith dec s = .next t) :
    (s.flags.r = false ∧ t = s) ∨
      ∃ u, t = { u with retired := false } ∧
        (raise (notification .keybd) (environment s) = .entered u ∨
          ∃ v, runInstruction dec (environment s) = .next v ∧ countDown v = .next u) := by
  have run : ∀ e u, instructionAndTimer dec e = .next u →
      ∃ v, runInstruction dec e = .next v ∧ countDown v = .next u := by
    intro e u hu
    simp only [instructionAndTimer] at hu
    split at hu
    · next v hv => exact ⟨v, hv, hu⟩
    · cases hu
    · cases hu
  simp only [stepWith] at h
  split at h
  · next hr => exact .inl ⟨hr, by simpa using h.symm⟩
  · obtain ⟨u, hu, rfl⟩ := settle_next h
    refine .inr ⟨u, rfl, ?_⟩
    simp only [boundary] at hu
    split at hu
    · split at hu
      · next v hv => cases hu; exact .inl hv
      · exact .inr (run _ _ hu)
      · cases hu
      · cases hu
    · exact .inr (run _ _ hu)

end Sys2Proof.Machine
end

