-- ==== Sys2Proof/Laws/Devices.lean ====
section
/-! SUPPORT. What the shared parts of the PERI operations can do. -/

namespace Sys2Proof.Machine

@[simp] theorem orFail_ok {α : Type} (a : α) (failed : PeriResult) (k : α → PeriResult) :
    orFail (.ok a) failed k = k a := rfl

@[simp] theorem orFail_raised {α : Type} (i : Interrupt) (failed : PeriResult)
    (k : α → PeriResult) : orFail (raised i) failed k = failed := rfl

@[simp] theorem orFail_refused {α : Type} (r : Refusal) (failed : PeriResult)
    (k : α → PeriResult) : orFail (refused r) failed k = .refused r := rfl

/-- How an operation with a device access in it ends done: the access succeeded and the rest ended so, or
it failed and the failure ended so. -/
theorem orFail_done {α : Type} {x : Access α} {failed : PeriResult} {k : α → PeriResult} {t : State}
    {code : Word} (h : orFail x failed k = .done t code) :
    (∃ a, x = .ok a ∧ k a = .done t code) ∨ (∃ i, x = raised i ∧ failed = .done t code) := by
  rcases x with (i | r) | a
  · exact .inr ⟨i, rfl, h⟩
  · simp [orFail] at h
  · exact .inl ⟨a, rfl, h⟩

/-- What a transfer into memory can do: every word stored, or the failure code with the words that could
have been written at free values. -/
theorem deliver_done {s t : State} {a failCode code : Word} {words : List Content}
    {k : State → List Word → PeriResult} (h : deliver s a words failCode k = .done t code) :
    (∃ u ws, storeAll s [] ((addressRun a words.length).zip words) = .done u ws ∧
      k u ws = .done t code) ∨
    (∃ ps, t = scramble s ps ∧ (∀ p ∈ ps, present s p = true) ∧ code = failCode) := by
  simp only [deliver] at h
  split at h <;> try cases h
  · next u ws hu => exact .inl ⟨u, ws, hu, h⟩
  · next i ws hu =>
    refine .inr ⟨_, rfl, fun p hp => ?_, rfl⟩
    rcases List.mem_append.mp hp with hp | hp
    · simp only [reachable, List.mem_filterMap] at hp
      obtain ⟨b, -, hb⟩ := hp
      split at hb
      · split at hb
        · next hpr => cases hb; exact hpr
        · cases hb
      · cases hb
    · exact storeAll_failed_present _ s i [] ws (by simp) hu p hp

/-- Every address that `reachable` lists exists. -/
theorem reachable_present (s : State) (addrs : List Word) :
    ∀ p ∈ reachable s addrs, present s p = true := by
  intro p hp
  simp only [reachable, List.mem_filterMap] at hp
  obtain ⟨b, -, hb⟩ := hp
  split at hb
  · split at hb
    · next hpr => cases hb; exact hpr
    · cases hb
  · cases hb

/-- The host's answer changes the queue of answers or the counter of free values, nothing else. -/
theorem hostAnswer_frame (s : State) :
    (hostAnswer s).2 =
      { s with answers := (hostAnswer s).2.answers, draws := (hostAnswer s).2.draws } := by
  simp only [hostAnswer]; split <;> rfl

/-- A clock reading changes the queue of readings or the counter of free values, nothing else. -/
theorem readClock_frame (s : State) :
    (readClock s).2 = { s with clock := (readClock s).2.clock, draws := (readClock s).2.draws } := by
  simp only [readClock]; split <;> rfl

/-- Characters read by count: their number, where the reading succeeded. -/
theorem scanCount_done (ch : Nat → Access Byte) (n i : Nat) (cs : List Byte)
    (h : ∀ j, j < n → ch (i + j) = .ok (cs.getD j 0)) (hl : cs.length = n) :
    scanCount ch n i = .done cs := by
  induction n generalizing i cs with
  | zero => simp_all [scanCount]
  | succ n ih =>
    cases cs with
    | nil => simp at hl
    | cons c cs =>
      have h0 : ch i = .ok c := by simpa using h 0 (Nat.succ_pos n)
      have hr := ih (i + 1) cs (fun j hj => by
        have := h (j + 1) (Nat.succ_lt_succ hj)
        simpa [Nat.add_assoc, Nat.add_comm 1 j] using this) (by simpa using hl)
      simp only [scanCount, h0, hr, scanCons]

/-- Characters read up to a zero character. -/
theorem scanToZero_done (ch : Nat → Access Byte) (cs : List Byte) (fuel i : Nat)
    (hf : cs.length < fuel) (h : ∀ j, j < cs.length → ch (i + j) = .ok (cs.getD j 0))
    (hz : ch (i + cs.length) = .ok 0) (hn : (0 : Byte) ∉ cs) :
    scanToZero ch fuel i = .done cs := by
  induction cs generalizing fuel i with
  | nil =>
    cases fuel with
    | zero => simp at hf
    | succ fuel => simp_all [scanToZero]
  | cons c cs ih =>
    cases fuel with
    | zero => simp at hf
    | succ fuel =>
      have h0 : ch i = .ok c := by simpa using h 0 (Nat.succ_pos _)
      have hr := ih fuel (i + 1) (by simpa using hf)
        (fun j hj => by
          have := h (j + 1) (Nat.succ_lt_succ hj)
          simpa [Nat.add_assoc, Nat.add_comm 1 j] using this)
        (by simpa [Nat.add_assoc, Nat.add_comm 1] using hz)
        (fun hm => hn (List.mem_cons_of_mem _ hm))
      have hc : c ≠ 0 := fun e => hn (e ▸ List.mem_cons_self)
      simp only [scanToZero, h0, hc, if_false, hr, scanCons]

/-- 44_peri_disc_tape.md R142: distinct codes name one operation each. -/
theorem periOpOf_periCodeOf {p : Params} (h : p.wellFormed = true) (k : PeriOp) :
    periOpOf p (periCodeOf p k) = some k := by
  have hn : p.periCode.toList.Nodup := by
    simp only [Params.wellFormed, Bool.and_eq_true, decide_eq_true_eq] at h; exact h.1
  have hinj : ∀ j, periCodeOf p j = periCodeOf p k → j = k := by
    intro j hj
    have hlen : p.periCode.toList.length = 16 := by simp
    have hget : ∀ x : Fin 16, p.periCode[x] = p.periCode.toList[x.val]'(by simp) := fun x => by
      simp
    simp only [periCodeOf, hget] at hj
    have hidx : (periIndex j).val = (periIndex k).val := (hn.getElem_inj_iff).mp hj
    revert hidx; cases j <;> cases k <;> decide
  simp only [periOpOf]
  cases hfind : allPeriOps.find? (fun op => periCodeOf p op == periCodeOf p k) with
  | none =>
    have := List.find?_eq_none.mp hfind k (by cases k <;> decide)
    simp at this
  | some j => rw [hinj j (by simpa using List.find?_some hfind)]

/-! ### Disc words -/

/-- Writing words to a disc does not change its size. -/
@[simp] theorem writeDiscWords_size (ws : List Content) (disc : Disc) (k : Nat) :
    (writeDiscWords disc k ws).size = disc.size := by
  induction ws generalizing disc k with
  | nil => rfl
  | cons w ws ih => rw [writeDiscWords, ih]

/-- Writing words to a disc keeps its list in order. -/
theorem writeDiscWords_sorted (ws : List Content) (disc : Disc) (k : Nat)
    (h : Sparse.sorted disc.written) : Sparse.sorted (writeDiscWords disc k ws).written := by
  induction ws generalizing disc k with
  | nil => exact h
  | cons w ws ih => exact ih _ _ (Sparse.sorted_put k w h)

/-- The positions that a disc lists after words are written. -/
theorem writeDiscWords_mem (ws : List Content) (disc : Disc) (k : Nat) {e : Nat × Content}
    (h : e ∈ (writeDiscWords disc k ws).written) :
    (k ≤ e.1 ∧ e.1 < k + ws.length) ∨ e ∈ disc.written := by
  induction ws generalizing disc k with
  | nil => exact .inr h
  | cons w ws ih =>
    rcases ih _ _ h with ⟨h1, h2⟩ | he
    · exact .inl ⟨by omega, by simp only [List.length_cons]; omega⟩
    · rcases Sparse.mem_put he with rfl | he
      · exact .inl ⟨le_rfl, by simp⟩
      · exact .inr he

/-- What a disc holds after words are written from position `k` on. -/
theorem writeDiscWords_find (ws : List Content) (disc : Disc) (k p : Nat) :
    Sparse.find (writeDiscWords disc k ws).written p =
      if k ≤ p ∧ p < k + ws.length then ws[p - k]? else Sparse.find disc.written p := by
  induction ws generalizing disc k with
  | nil =>
    rw [if_neg (by simp only [List.length_nil]; omega)]; rfl
  | cons w ws ih =>
    rw [writeDiscWords, ih]
    by_cases h1 : k + 1 ≤ p ∧ p < k + 1 + ws.length
    · rw [if_pos h1, if_pos (by simp only [List.length_cons]; omega),
        show p - k = (p - (k + 1)) + 1 by omega, List.getElem?_cons_succ]
    · rw [if_neg h1, Sparse.find_put]
      by_cases h2 : p = k
      · subst h2; simp
      · rw [if_neg h2, if_neg (by simp only [List.length_cons]; omega)]

end Sys2Proof.Machine
end

