-- ==== Sys2Proof/Laws/Entry.lean ====
section
/-! SUPPORT. The stores of an interrupt frame, said once: with translation off or on they are made in
physical words that no two pushes share, or the first push that fails ends them. -/

namespace Sys2Proof.Machine

@[simp] theorem duringEntry_mem (s : State) (m : Memory) : (duringEntry s m).mem = m := rfl

@[simp] theorem duringEntry_syssp (s : State) (m : Memory) : (duringEntry s m).syssp = s.syssp := rfl

@[simp] theorem duringEntry_params (s : State) (m : Memory) :
    (duringEntry s m).params = s.params := rfl

@[simp] theorem duringEntry_flags (s : State) (m : Memory) :
    (duringEntry s m).flags = { s.flags with sys := true, ip := true } := by
  simp [duringEntry, systemView]

theorem duringEntry_self (s : State) : duringEntry s s.mem = systemView s true := rfl

theorem pushedInto_self (s : State) (slot : Fin 21 → Word) (n : Nat) :
    PushedInto s slot n s.mem := fun _ _ => rfl

/-- 20_memory.md R49: a translation keeps the place in the page. -/
theorem translate_pageOffset {s : State} {a p : Word} (h : translate s a = .ok p) :
    pageOffset p = pageOffset a := by
  simp only [translate] at h
  split at h
  · cases h; rfl
  split at h
  · cases h
  obtain ⟨table, -, h⟩ := bind_eq_ok h
  split at h
  · cases h
  obtain ⟨entry, -, h⟩ := bind_eq_ok h
  simp only [translateEntry] at h
  split at h
  · cases h
  split at h
  · cases h
  · cases h
    simp only [pageOffset, frameOf]
    have hd : (entry &&& 0xFFFFF800) &&& (a &&& 0x7FF) = 0 := by
      rw [show (entry &&& 0xFFFFF800) &&& (a &&& 0x7FF) =
        (entry &&& a) &&& (0xFFFFF800 &&& 0x7FF) by ac_rfl]
      simp
    have hm : (entry &&& 0xFFFFF800) &&& 0x7FF = 0 := by
      rw [BitVec.and_assoc]; simp
    rw [BitVec.add_eq_or_of_and_eq_zero _ _ hd, BitVec.and_or_distrib_right, hm,
      BitVec.and_assoc a, BitVec.and_self]
    exact BitVec.zero_or

/-- Two addresses fewer than 2048 words apart have different places in their pages. -/
theorem frameAddress_pageOffset (s : State) {i j : Fin 21}
    (h : pageOffset (frameAddress s i) = pageOffset (frameAddress s j)) : i = j := by
  have h' := congrArg BitVec.toNat h
  simp only [pageOffset, frameAddress, BitVec.toNat_and, BitVec.toNat_sub, BitVec.toNat_ofNat] at h'
  rw [show BitVec.toNat (2047 : Word) = 2 ^ 11 - 1 from rfl, Nat.and_two_pow_sub_one_eq_mod,
    Nat.and_two_pow_sub_one_eq_mod] at h'
  have hone : BitVec.toNat (1 : Word) = 1 := rfl
  rw [hone] at h'
  apply Fin.ext
  omega

/-- No two words of a frame are pushed to one physical word. -/
theorem PushesReach.slot_injective {s : State} {slot : Fin 21 → Word} {n : Nat}
    (h : PushesReach s slot n) {i j : Fin 21} (hi : i.val < n) (hj : j.val < n)
    (he : slot i = slot j) : i = j := by
  refine frameAddress_pageOffset s ?_
  have h1 := translate_pageOffset (h.maps _ (pushedInto_self s slot n) i hi)
  have h2 := translate_pageOffset (h.maps _ (pushedInto_self s slot n) j hj)
  rw [← h1, ← h2, he]

/-- The address of the next store of a frame, and what the stores after it start from. -/
theorem stackStores_frame (s : State) (j : Fin 21) (c : Content) (cs : List Content) :
    stackStores (s.syssp - BitVec.ofNat 32 j.val) (c :: cs) =
      (frameAddress s j, c) :: stackStores (s.syssp - BitVec.ofNat 32 (j.val + 1)) cs := by
  have h1 : BitVec.ofNat 32 (j.val + 1) = BitVec.ofNat 32 j.val + 1 := BitVec.ofNat_add j.val 1
  have h2 : s.syssp - BitVec.ofNat 32 j.val - 1 = frameAddress s j := by
    simp only [frameAddress]; ring
  have h3 : s.syssp - BitVec.ofNat 32 (j.val + 1) = frameAddress s j := by
    rw [h1]; simp only [frameAddress]; ring
  rw [stackStores, h2, h3]

/-- One store of a frame: the physical word takes the content, and memory still differs in words of the
frame alone. -/
theorem PushesReach.store {s : State} {slot : Fin 21 → Word} {n : Nat} (h : PushesReach s slot n)
    {m : Memory} (hm : PushedInto s slot n m) {j : Fin 21} (hj : j.val < n) (c : Content) :
    physPut (duringEntry s m) (slot j) c = .ok (duringEntry s (m.put (slot j) c)) ∧
      PushedInto s slot n (m.put (slot j) c) :=
  ⟨physPut_present _ (h.present j hj),
    fun q hq => by rw [Memory.read_put_other _ _ (hq j hj)]; exact hm q hq⟩

/-- A run of pushes within the words that can be pushed: the contents lie in their physical words, and
nothing else has changed. -/
theorem PushesReach.storeAll_done {s : State} {slot : Fin 21 → Word} {n : Nat}
    (h : PushesReach s slot n) (hn : n ≤ 21) (cs : List Content) (j : Nat) (m : Memory)
    (ws : List Word) (hj : j + cs.length = n) (hm : PushedInto s slot n m) :
    ∃ m' us, storeAll (duringEntry s m) ws (stackStores (s.syssp - BitVec.ofNat 32 j) cs) =
        .done (duringEntry s m') us ∧
      (∀ q, (∀ k : Fin 21, j ≤ k.val → k.val < n → q ≠ slot k) → m'.content q = m.content q) ∧
      ∀ k : Fin 21, j ≤ k.val → k.val < n → some (m'.content (slot k)) = cs[k.val - j]? := by
  induction cs generalizing j m ws with
  | nil =>
    exact ⟨m, ws, rfl, fun _ _ => rfl, fun k h1 h2 => by simp only [List.length_nil] at hj; omega⟩
  | cons c cs ih =>
    simp only [List.length_cons] at hj
    let k0 : Fin 21 := ⟨j, by omega⟩
    have hk0 : k0.val < n := by simp only [k0]; omega
    obtain ⟨hput, hm'⟩ := h.store hm hk0 c
    obtain ⟨m', us, hrun, hout, hin⟩ :=
      ih (j + 1) (m.put (slot k0) c) (slot k0 :: ws) (by omega) hm'
    refine ⟨m', us, ?_, fun q hq => ?_, fun k h1 h2 => ?_⟩
    · rw [stackStores_frame s k0 c cs, storeAll, h.maps m hm k0 hk0]
      simp only [hput]
      exact hrun
    · rw [hout q fun k h1 h2 => hq k (by omega) h2, Memory.content_put,
        if_neg (hq k0 (Nat.le_refl _) hk0)]
    · by_cases hkj : k.val = j
      · have hk : k = k0 := Fin.ext hkj
        rw [hk, hout _ fun l h3 h4 he => by
          have := congrArg Fin.val (h.slot_injective hk0 h4 he); simp only [k0] at this; omega]
        simp [Memory.content_put, k0]
      · have := hin k (by omega) h2
        rw [this, show k.val - j = (k.val - (j + 1)) + 1 by omega, List.getElem?_cons_succ]

/-- A run of pushes up to one that fails: it fails there, and only words of the frame before it have been
stored to. -/
theorem PushFails.storeAll_failed {s : State} {slot : Fin 21 → Word} {n : Fin 21}
    (h : PushFails s slot n) (cs : List Content) (j : Nat) (m : Memory) (ws : List Word)
    (hj : j + cs.length = 21) (hjn : j ≤ n.val) (hm : PushedInto s slot n.val m)
    (hws : ∀ p ∈ ws, ∃ k : Fin 21, k.val < n.val ∧ p = slot k) :
    ∃ i us, storeAll (duringEntry s m) ws (stackStores (s.syssp - BitVec.ofNat 32 j) cs) =
        .failed i us ∧ ∀ p ∈ us, ∃ k : Fin 21, k.val < n.val ∧ p = slot k := by
  induction cs generalizing j m ws with
  | nil => simp only [List.length_nil] at hj; omega
  | cons c cs ih =>
    simp only [List.length_cons] at hj
    let k0 : Fin 21 := ⟨j, by omega⟩
    by_cases hk0 : k0.val < n.val
    · obtain ⟨hput, hm'⟩ := h.reached.store hm hk0 c
      have hstep : storeAll (duringEntry s m) ws
          (stackStores (s.syssp - BitVec.ofNat 32 j) (c :: cs)) =
          storeAll (duringEntry s (m.put (slot k0) c)) (slot k0 :: ws)
            (stackStores (s.syssp - BitVec.ofNat 32 (j + 1)) cs) := by
        rw [stackStores_frame s k0 c cs, storeAll, h.reached.maps m hm k0 hk0]
        simp only [hput]
        rfl
      rw [hstep]
      refine ih (j + 1) _ _ (by omega) (by simp only [k0] at hk0; omega) hm' fun p hp => ?_
      rcases List.mem_cons.mp hp with rfl | hp
      · exact ⟨k0, hk0, rfl⟩
      · exact hws p hp
    · have hkn : k0 = n := Fin.ext (by simp only [k0] at hk0 ⊢; omega)
      obtain ⟨i, hi⟩ := h.fails m hm
      refine ⟨i, ws, ?_, hws⟩
      rw [stackStores_frame s k0 c cs, storeAll, hkn]
      rcases bind_eq_raised hi with hi | ⟨p, hp, hi⟩
      · rw [hi]; rfl
      · have hpr : present (duringEntry s m) p = false := by
          simp only [physRead] at hi
          split at hi
          · simp [raised] at hi
          · next hn => simpa using hn
        have hii : i = interruptAt .memory p := by
          simp only [physRead, hpr] at hi
          simpa [raised] using hi.symm
        rw [hp]
        simp [physPut, hpr, hii, raised]

/-! ### A run that stops -/

/-- Stores that fail have reached, with translation off, the words they were addressed to. -/
theorem storeAll_failed_addressed (stores : List (Word × Content)) (s : State) (i : Interrupt)
    (ws us : List Word) (hv : s.flags.vm = false) (h : storeAll s ws stores = .failed i us) :
    ∀ p ∈ us, p ∈ ws ∨ ∃ c, (p, c) ∈ stores := by
  induction stores generalizing s ws with
  | nil => cases h
  | cons e es ih =>
    obtain ⟨a, c⟩ := e
    simp only [storeAll, translate_of_vm_off _ hv] at h
    split at h
    · cases h; exact fun p hp => .inl hp
    · cases h
    · next t ht =>
      intro p hp
      rcases ih t (a :: ws) (by rw [(physPut_ok ht).2]; exact hv) h p hp with hp | ⟨c', hp⟩
      · rcases List.mem_cons.mp hp with rfl | hp
        · exact .inr ⟨c, by simp⟩
        · exact .inl hp
      · exact .inr ⟨c', by simp [hp]⟩

/-- The memory that abandoned entries from state `s` leave: that of `s`, but for words that their pushes may
have reached. -/
structure PushesAbandoned (s : State) (m : Memory) : Prop where
  pushed : ∀ slot n, PushFails s slot n → PushedInto s slot n.val m
  plain : s.flags.vm = false →
    ∀ q, (∀ k, q ≠ frameAddress s k) → m.read q = s.mem.read q

theorem pushesAbandoned_self (s : State) : PushesAbandoned s s.mem :=
  ⟨fun _ _ _ _ _ => rfl, fun _ _ _ => rfl⟩

/-- An abandoned entry spoils no word but those. -/
theorem PushesAbandoned.enter {c : IntCode} {addr info : Content} {s t : State} {m : Memory} {d : Nat}
    (hm : PushesAbandoned s m)
    (h : enter c addr info { s with mem := m, draws := d } = .invalid t) :
    PushesAbandoned s t.mem := by
  generalize hu : { s with mem := m, draws := d } = u at h
  have hum : u.mem = m := by rw [← hu]
  have hlen := frameWords_length u c addr info
  have hsp : s.syssp - BitVec.ofNat 32 0 = u.syssp := by rw [← hu]; simp
  simp only [Machine.enter] at h
  split at h
  · cases h
  · cases h; rwa [hum]
  split at h <;> try cases h
  split at h <;> try cases h
  next i ws hf =>
    refine ⟨fun slot n hp q hq => ?_, fun hv q hq => ?_⟩
    · have hp' : PushFails { s with draws := d } slot n :=
        ⟨⟨hp.reached.present, hp.reached.maps⟩, hp.fails⟩
      obtain ⟨j, us, hs, hus⟩ := hp'.storeAll_failed (frameWords u c addr info) 0 m [] (by omega)
        (Nat.zero_le _) (hm.pushed slot n hp) (by simp)
      have he : storeAll (duringEntry { s with draws := d } m) []
          (stackStores (s.syssp - BitVec.ofNat 32 0) (frameWords u c addr info)) =
          .failed i ws := by rw [hsp, ← hf, ← hu]; rfl
      obtain ⟨rfl, rfl⟩ := StoreRun.failed.inj (hs.symm.trans he)
      rw [scramble_read _ _ fun hmem => by obtain ⟨k, hk, rfl⟩ := hus q hmem; exact hq k hk rfl, hum]
      exact hm.pushed slot n hp q hq
    · have hv' : (systemView u true).flags.vm = false := by rw [← hu]; exact hv
      rw [scramble_read _ _ fun hmem => ?_, hum]
      · exact hm.plain hv q hq
      · rcases storeAll_failed_addressed _ _ _ _ _ hv' hf q hmem with hq' | ⟨c', hq'⟩
        · simp at hq'
        · obtain ⟨k, hk, hget⟩ := List.mem_iff_getElem.mp hq'
          have hk' := List.getElem?_eq_getElem hk
          rw [stackStores_get, hget] at hk'
          have hk21 : k < 21 := by rw [stackStores_length] at hk; omega
          obtain ⟨x, -, hx⟩ := Option.map_eq_some_iff.mp hk'
          refine hq ⟨k, hk21⟩ ?_
          rw [← (Prod.mk.inj hx).1, ← hu]
          rfl

/-- A run that stops keeps the state in which the interrupt was raised, but for the words of abandoned
pushes (60_exceptions.md R210, R205 (e)). -/
theorem raise_stoppedIn {i : Interrupt} {s last : State} {c : IntCode} {a : Word}
    (h : raise i s = .stopped c a last) : StoppedIn s { last with retired := false } := by
  obtain ⟨-, hstate⟩ := raise_stopped h
  suffices hm : PushesAbandoned s last.mem by
    refine ⟨?_, fun slot n hp q hq => hm.pushed slot n hp q fun k hk he => hq ⟨k, hk, he⟩,
      fun hv q hq => hm.plain hv q fun k he => hq ⟨k, he⟩⟩
    generalize last.mem = m at hstate ⊢
    generalize last.draws = d at hstate ⊢
    subst hstate; rfl
  have hfail : ∀ addr m d, PushesAbandoned s m →
      failEntry i.code addr { s with mem := m, draws := d } = .stopped c a last →
      PushesAbandoned s last.mem := by
    intro addr m d hm hf
    simp only [failEntry] at hf
    split at hf <;> try cases hf
    · exact hm
    · next he => exact hm.enter he
  simp only [raise] at h
  split at h
  · split at h
    · cases h
    · exact hfail _ s.mem _ (pushesAbandoned_self s) h
  · split at h
    · cases h
    · split at h <;> cases h
      exact pushesAbandoned_self s
    · next u he =>
      obtain ⟨ws, hu, -⟩ := enter_invalid he
      have hu : u = { s with mem := u.mem, draws := u.draws } := by rw [hu, scramble_frame]
      exact hfail _ u.mem u.draws ((pushesAbandoned_self s).enter he) (hu ▸ h)
    · cases h

/-- Taking an interrupt faults only by stopping the run under the interrupt's code, in the state in which it
was raised, but for the words of abandoned pushes. -/
theorem takeInterrupt_stoppedIn {i : Interrupt} {s : State} {f : Fault}
    (h : takeInterrupt i s = .fault f) :
    ∃ a last, f = .stopped i.code a last ∧ StoppedIn s last := by
  obtain ⟨a, last, hs, rfl⟩ := takeInterrupt_fault h
  exact ⟨a, _, rfl, raise_stoppedIn hs⟩

end Sys2Proof.Machine
end

