-- ==== Sys2Proof/Laws/PerInstr.lean ====
section
/-! SUPPORT. The fields of an assembled word, and the family `OpcodeField`: the operation code can be read
back from the word of every instruction. -/

namespace Sys2Proof

/-! ### The fields of an assembled word -/

/-- The bits of an assembled word, from the right. -/
theorem assemble_bit (o : BitVec 6) (f : BitVec 2) (m x : BitVec 4) (n : BitVec 16) (i : Nat) :
    (assemble o f m x n).getLsbD i =
      if i < 16 then n.getLsbD i
      else if i - 16 < 4 then x.getLsbD (i - 16)
      else if i - 16 - 4 < 4 then m.getLsbD (i - 16 - 4)
      else if i - 16 - 4 - 4 < 2 then f.getLsbD (i - 16 - 4 - 4)
      else o.getLsbD (i - 16 - 4 - 4 - 2) := by
  change (o ++ f ++ m ++ x ++ n).getLsbD i = _
  simp only [BitVec.getLsbD_append]

theorem opcodeField_assemble (o : BitVec 6) (f : BitVec 2) (m x : BitVec 4) (n : BitVec 16) :
    opcodeField (assemble o f m x n) = o := by
  apply BitVec.eq_of_getLsbD_eq; intro i hi
  simp only [opcodeField, BitVec.getLsbD_extractLsb', hi, decide_true, Bool.true_and, assemble_bit]
  repeat (rw [if_neg (by omega)])
  congr 1; omega

theorem formField_assemble (o : BitVec 6) (f : BitVec 2) (m x : BitVec 4) (n : BitVec 16) :
    formField (assemble o f m x n) = f := by
  apply BitVec.eq_of_getLsbD_eq; intro i hi
  simp only [formField, BitVec.getLsbD_extractLsb', hi, decide_true, Bool.true_and, assemble_bit]
  repeat (rw [if_neg (by omega)])
  rw [if_pos (by omega)]
  congr 1; omega

theorem mainField_assemble (o : BitVec 6) (f : BitVec 2) (m x : BitVec 4) (n : BitVec 16) :
    mainField (assemble o f m x n) = m := by
  apply BitVec.eq_of_getLsbD_eq; intro i hi
  simp only [mainField, BitVec.getLsbD_extractLsb', hi, decide_true, Bool.true_and, assemble_bit]
  repeat (rw [if_neg (by omega)])
  rw [if_pos (by omega)]
  congr 1; omega

theorem indexField_assemble (o : BitVec 6) (f : BitVec 2) (m x : BitVec 4) (n : BitVec 16) :
    indexField (assemble o f m x n) = x := by
  apply BitVec.eq_of_getLsbD_eq; intro i hi
  simp only [indexField, BitVec.getLsbD_extractLsb', hi, decide_true, Bool.true_and, assemble_bit]
  repeat (rw [if_neg (by omega)])
  rw [if_pos (by omega)]
  congr 1; omega

theorem numberField_assemble (o : BitVec 6) (f : BitVec 2) (m x : BitVec 4) (n : BitVec 16) :
    numberField (assemble o f m x n) = n := by
  apply BitVec.eq_of_getLsbD_eq; intro i hi
  simp only [numberField, BitVec.getLsbD_extractLsb', hi, decide_true, Bool.true_and, assemble_bit]
  rw [if_pos (by omega)]
  congr 1; omega

/-- A register's number names it. -/
@[simp] theorem Reg.ofNumber_number (r : Reg) : Reg.ofNumber r.number = r := by
  cases r with
  | r i => revert i; decide
  | sp => rfl
  | fp => rfl
  | pc => rfl

@[simp] theorem Reg.number_ofNumber (n : BitVec 4) : (Reg.ofNumber n).number = n := by
  revert n; decide

theorem opcodeField_assembleOperand (o : BitVec 6) (m : BitVec 4) (op : Operand) :
    opcodeField (assembleOperand o m op) = o := by
  cases op <;> exact opcodeField_assemble _ _ _ _ _

namespace Laws.OpcodeField

/-- The operation-code field of an instruction's word is the instruction's operation code. -/
def Statement (i : Instr) : Prop := opcodeField (encode i) = i.opcode

theorem getsr (reg : Reg) (op : Operand) : Statement (.getsr reg op) :=
  opcodeField_assembleOperand _ _ _

theorem setsr (reg : Reg) (op : Operand) : Statement (.setsr reg op) :=
  opcodeField_assembleOperand _ _ _

theorem getfl (reg : Reg) (op : Operand) : Statement (.getfl reg op) :=
  opcodeField_assembleOperand _ _ _

theorem setfl (reg : Reg) (op : Operand) : Statement (.setfl reg op) :=
  opcodeField_assembleOperand _ _ _

theorem flagsj (reg : Reg) (op : Operand) : Statement (.flagsj reg op) :=
  opcodeField_assembleOperand _ _ _

theorem sbit (reg : Reg) (op : Operand) : Statement (.sbit reg op) :=
  opcodeField_assembleOperand _ _ _

theorem cbit (reg : Reg) (op : Operand) : Statement (.cbit reg op) :=
  opcodeField_assembleOperand _ _ _

theorem exbr (reg : Reg) (op : Operand) : Statement (.exbr reg op) :=
  opcodeField_assembleOperand _ _ _

theorem dpbr (reg : Reg) (op : Operand) : Statement (.dpbr reg op) :=
  opcodeField_assembleOperand _ _ _

theorem exbrv (reg : Reg) (op : Operand) : Statement (.exbrv reg op) :=
  opcodeField_assembleOperand _ _ _

theorem dpbrv (reg : Reg) (op : Operand) : Statement (.dpbrv reg op) :=
  opcodeField_assembleOperand _ _ _

theorem load (reg : Reg) (op : Operand) : Statement (.load reg op) :=
  opcodeField_assembleOperand _ _ _

theorem store (reg : Reg) (op : Operand) : Statement (.store reg op) :=
  opcodeField_assembleOperand _ _ _

theorem inc (op : Operand) : Statement (.inc op) :=
  opcodeField_assembleOperand _ _ _

theorem push (op : Operand) : Statement (.push op) :=
  opcodeField_assembleOperand _ _ _

theorem call (op : Operand) : Statement (.call op) :=
  opcodeField_assembleOperand _ _ _

theorem ret : Statement (.ret) :=
  opcodeField_assemble _ _ _ _ _

theorem comp (reg : Reg) (op : Operand) : Statement (.comp reg op) :=
  opcodeField_assembleOperand _ _ _

theorem compz (reg : Reg) (op : Operand) : Statement (.compz reg op) :=
  opcodeField_assembleOperand _ _ _

theorem jcond (cond : Cond) (op : Operand) : Statement (.jcond cond op) :=
  opcodeField_assembleOperand _ _ _

theorem halt : Statement (.halt) :=
  opcodeField_assemble _ _ _ _ _

theorem syscall (op : Operand) : Statement (.syscall op) :=
  opcodeField_assembleOperand _ _ _

theorem iret : Statement (.iret) :=
  opcodeField_assemble _ _ _ _ _

theorem phload (reg : Reg) (op : Operand) : Statement (.phload reg op) :=
  opcodeField_assembleOperand _ _ _

theorem phstore (reg : Reg) (op : Operand) : Statement (.phstore reg op) :=
  opcodeField_assembleOperand _ _ _

theorem peri (reg : Reg) (op : Operand) : Statement (.peri reg op) :=
  opcodeField_assembleOperand _ _ _

end Laws.OpcodeField

end Sys2Proof
end

