-- ==== Sys2Proof/Tests/Slice0.lean ====
section
/-! SUPPORT. The model's own tests: ill-formed terms refused, words of the model's format decoded, the
vectors of 95_test_vectors.md (V-..., S..., P...; the number stands in each comment), and for each
statement with hypotheses a state and operands that meet them (`witness_...`). -/

namespace Sys2Proof.Tests

open Sys2Proof.Machine

/-! ### Helpers -/

/-- Launch parameters with every OPEN one fixed. -/
def testParams : Params where
  physWords := 0x20000
  periCode := Vector.ofFn fun i => BitVec.ofNat 32 (0x70 + i.val)
  exbrRoles := ⟨.fixed (.r 1), .main, false⟩
  dpbrRoles := ⟨.fixed (.r 1), .main⟩
  exbrvRoles := ⟨.fixed (.r 1), .main, false⟩
  dpbrvRoles := ⟨.fixed (.r 1), .main⟩
  compzTests := .mainRegister
  syscallTrailer := [.const 5, .index]
  syscallSetsIP := true
  compWraps := false

/-- Start-up with those parameters, PC at 200, SP at 1000, DEBUG out of the way. -/
def base : State :=
  { State.reset with params := testParams, pc := 200, syssp := 1000, debug := 0xFFFFFFFF }

/-- The same in user mode with IP = 0, a vector at 200 and user SP 700. -/
def user : State :=
  { base with flags := Flags.ofWord 1, intvec := 200, usp := 700, pc := 151,
              mem := [(203, .word 330), (204, .word 360), (208, .word 300), (210, .word 370)] }

/-- The tables of V-VM, system mode. -/
def paged : State :=
  { base with
    flags := Flags.ofWord 113
    pdbr := 0x2000
    mem :=
      [(0x2000, .word 0x3000), (0x2001, .word 0x3801), (0x2002, .word 0x30000),
        (0x2003, .word 0x3000), (0x3000, .word 0xA003), (0x3001, .word 0xB801),
        (0x3002, .word 0xC000), (0x3003, .word 0x7F801), (0x3805, .word 0x10003),
        (0xB805, .word 0x1234)] }

/-- The same in user mode. -/
def pagedUser : State := { paged with flags := Flags.ofWord 65 }

/-- A control structure at 120: operation `k` of the test codes, then the given words. -/
def control (k : Nat) (ws : List Nat) : Memory :=
  let words := (0x70 + k) :: ws
  words.zipIdx.foldl (fun m w => m.put (BitVec.ofNat 32 (120 + w.2)) (.word (BitVec.ofNat 32 w.1))) []

/-- The same with more words of memory. -/
def controlAnd (k : Nat) (ws : List Nat) (more : List (Nat × Nat)) : Memory :=
  more.foldl (fun m w => m.put (BitVec.ofNat 32 w.1) (.word (BitVec.ofNat 32 w.2))) (control k ws)

/-- One PERI into R3 over the control structure at 120. -/
def peri : Instr := .peri (.r 3) (.imm 120)

def withMem (s : State) (m : Memory) : State := { s with mem := m }

/-- Drive 1 of 6000 blocks, nothing written. -/
def disc : State := { base with discs := base.discs.set 0 (some { size := 6000, written := [] }) }

/-- Unit 1 loaded with a known file. -/
def tapeState (mode : TapeMode) (position : Nat) (bytes : List Byte) : State :=
  { base with
    tapes := base.tapes.set 0 (some { file := [65], mode := mode, position := position })
    files := [{ name := [65], known := bytes, unknownTail := none }] }

def nextOf {α : Type} (o : Host.Outcome State Fault Refusal) (f : State → α) : Option α :=
  match o with
  | .next t => some (f t)
  | .fault _ => none
  | .refused _ => none

/-- The code of a run that stops, and what is asked of its address and the state it keeps. -/
def stopOf {α : Type} (o : Host.Outcome State Fault Refusal) (f : Word → State → α) :
    Option (IntCode × α) :=
  match o with
  | .next _ => none
  | .fault (.stopped c addr last) => some (c, f addr last)
  | .fault .neverEnds => none
  | .refused _ => none

def stoppedAt (addr : Word) (last : State) : Word × Word := (addr, last.pc)

def refusalOf (o : Host.Outcome State Fault Refusal) : Option Refusal :=
  match o with
  | .next _ => none
  | .fault _ => none
  | .refused r => some r

theorem nextOf_some {α : Type} {o : Host.Outcome State Fault Refusal} {f : State → α} {a : α}
    (h : nextOf o f = some a) : ∃ t, o = .next t ∧ f t = a := by
  cases o with
  | next t => exact ⟨t, rfl, by simpa [nextOf] using h⟩
  | fault r => simp [nextOf] at h
  | refused r => simp [nextOf] at h

/-! ### Ill-formed terms -/

theorem test_number_above_range : (Operand.imm 0x8000).wellFormed = false := by decide
theorem test_number_below_range : (Operand.imm 0xFFFF7FFF).wellFormed = false := by decide
theorem test_index_above_range : (Operand.mem (.r 2) 0x8000).wellFormed = false := by decide
theorem test_address_above_range : (Operand.memAt 0x8000).wellFormed = false := by decide
theorem test_number_limits : (Operand.imm 0x7FFF).wellFormed = true ∧
    (Operand.imm 0xFFFF8000).wellFormed = true := by decide
theorem test_condition_code_of_err : (Cond.other 3).wellFormed = false := by decide
theorem test_instruction_ill_formed : (Instr.load (.r 1) (.imm 0x8000)).wellFormed = false ∧
    (Instr.jcond (.other 3) (.imm 0)).wellFormed = false := by decide
theorem test_equal_codes :
    ({ testParams with periCode := Vector.replicate 16 0 } : Params).wellFormed = false := by decide
theorem test_too_much_memory :
    ({ testParams with physWords := 2 ^ 32 + 1 } : Params).wellFormed = false := by decide
theorem test_params_well_formed : testParams.wellFormed = true := by decide

/-! ### Words of the model's format (log 1), written out field by field -/

theorem test_decode_getsr :
    decode 0b000001_00_0001_0000_0000000000000111#32 = some (.getsr (.r 1) (.imm 7)) := by decide
theorem test_decode_setsr :
    decode 0b000010_01_0001_0010_0000000000000000#32 = some (.setsr (.r 1) (.reg (.r 2))) := by
  decide
theorem test_decode_getfl :
    decode 0b000011_00_0010_0000_0000000000000100#32 = some (.getfl (.r 2) (.imm 4)) := by decide
theorem test_decode_setfl :
    decode 0b000100_00_0001_0000_0000000000000101#32 = some (.setfl (.r 1) (.imm 5)) := by decide
theorem test_decode_flagsj :
    decode 0b000101_00_0001_0000_0000000000010101#32 = some (.flagsj (.r 1) (.imm 21)) := by decide
theorem test_decode_sbit :
    decode 0b000110_00_1100_0000_0000000000011111#32 = some (.sbit (.r 12) (.imm 31)) := by decide
theorem test_decode_cbit :
    decode 0b000111_00_0001_0000_0000000000000100#32 = some (.cbit (.r 1) (.imm 4)) := by decide
theorem test_decode_exbr :
    decode 0b001000_01_0011_0100_0000000000000000#32 = some (.exbr (.r 3) (.reg (.r 4))) := by decide
theorem test_decode_dpbr :
    decode 0b001001_10_0011_0000_0000000000001000#32 = some (.dpbr (.r 3) (.memAt 8)) := by decide
theorem test_decode_exbrv :
    decode 0b001010_00_0011_0000_0000000001100100#32 = some (.exbrv (.r 3) (.imm 100)) := by decide
theorem test_decode_dpbrv :
    decode 0b001011_11_0011_1110_0000000000000010#32 = some (.dpbrv (.r 3) (.mem .fp 2)) := by decide
theorem test_decode_load :
    decode 0b001100_00_0001_0000_1111111111111111#32 = some (.load (.r 1) (.imm 0xFFFFFFFF)) := by
  decide
theorem test_decode_store :
    decode 0b001101_11_0001_0010_0000000000000001#32 = some (.store (.r 1) (.mem (.r 2) 1)) := by
  decide
theorem test_decode_inc :
    decode 0b001110_01_0000_0100_0000000000000000#32 = some (.inc (.reg (.r 4))) := by decide
theorem test_decode_push :
    decode 0b001111_01_0000_1110_0000000000000000#32 = some (.push (.reg .fp)) := by decide
theorem test_decode_call :
    decode 0b010000_00_0000_0000_0000001100100000#32 = some (.call (.imm 800)) := by decide
theorem test_decode_ret : decode 0b010001_00_0000_0000_0000000000000000#32 = some .ret := by decide
theorem test_decode_comp :
    decode 0b010010_00_0001_0000_0000000000000101#32 = some (.comp (.r 1) (.imm 5)) := by decide
theorem test_decode_compz :
    decode 0b010011_01_0001_0010_0000000000000000#32 = some (.compz (.r 1) (.reg (.r 2))) := by
  decide
theorem test_decode_jcond :
    decode 0b010100_00_0011_0000_0000000000111100#32 = some (.jcond .err (.imm 60)) ∧
    decode 0b010100_00_0100_0000_0000000000111100#32 = some (.jcond (.other 4) (.imm 60)) := by
  decide
theorem test_decode_halt : decode 0b010101_00_0000_0000_0000000000000000#32 = some .halt := by decide
theorem test_decode_syscall :
    decode 0b010110_00_0000_0000_0000000000000111#32 = some (.syscall (.imm 7)) := by decide
theorem test_decode_iret : decode 0b010111_00_0000_0000_0000000000000000#32 = some .iret := by decide
theorem test_decode_phload :
    decode 0b011000_00_0001_0000_0011000000000000#32 = some (.phload (.r 1) (.imm 0x3000)) := by
  decide
theorem test_decode_phstore :
    decode 0b011001_01_0001_1101_0000000000000000#32 = some (.phstore (.r 1) (.reg .sp)) := by decide
theorem test_decode_peri :
    decode 0b011010_00_0011_0000_0000000001111000#32 = some (.peri (.r 3) (.imm 120)) := by decide

/-- 30_encoding.md R79: words that are no instruction: codes 0, 27 and 63, and a HALT with a used bit. -/
theorem test_decode_rejects :
    decode 0 = none ∧ decode 0b011011_00_0000_0000_0000000000000000#32 = none ∧
    decode 0xFFFFFFFF = none ∧ decode 0b010101_00_0000_0000_0000000000000001#32 = none := by decide

/-- The decoder names why it rejects. -/
theorem test_decode_rejects_by_name :
    decodeWord 0 = .error (.unassignedOpcode 0) ∧
    decodeWord 0b001100_00_0001_0001_0000000000000000#32 =
      .error (.unusedFieldNotZero 0b001100_00_0001_0001_0000000000000000#32) := by decide

/-! ### Special registers and flags (V-SR) -/

/-- V-SR 1; V-SR 4 (user mode reads SYSSP). -/
theorem test_getsr_flags :
    nextOf (exec (.getsr (.r 1) (.imm 0)) base) (fun t => getReg t (.r 1)) = some 49 := by decide
theorem test_getsr_dormant_syssp :
    nextOf (exec (.getsr (.r 2) (.imm 7)) user) (fun t => (getReg t (.r 2), t.pc)) =
      some (1000, 152) := by decide

/-- V-SR 7; V-SR 6 with V-INT 1. -/
theorem test_setsr_flags :
    nextOf (exec (.setsr (.r 1) (.imm 0)) { base with gpr := base.gpr.set 1 0xFFFFFF91 })
      (fun t => t.flags.toWord) = some 17 := by decide
theorem test_setsr_user_enters_handler :
    nextOf (exec (.setsr (.r 1) (.imm 6)) user)
      (fun t => ((t.pc, t.syssp, t.flags.toWord),
        [979, 980, 981, 982, 984, 985, 986].map t.mem.read)) =
      some ((300, 979, 49), [38, 1, 8, 151, 151, 0, 700]) := by decide

/-- V-SR 10. -/
theorem test_getfl_sys :
    nextOf (exec (.getfl (.r 2) (.imm 4)) base) (fun t => getReg t (.r 2)) = some 1 := by decide

/-- V-SR 12; V-SR 14. -/
theorem test_setfl_any_nonzero :
    nextOf (exec (.setfl (.r 1) (.imm 1)) { base with gpr := base.gpr.set 1 0xFFFF0000 })
      (fun t => t.flags.toWord) = some 51 := by decide
theorem test_setfl_user_ip :
    nextOf (exec (.setfl (.r 1) (.imm 5)) user) (fun t => (t.pc, t.mem.read 981)) =
      some (300, 8) := by decide

/-- V-SR 16. -/
theorem test_flagsj :
    nextOf (exec (.flagsj (.r 1) (.imm 0x15)) { base with gpr := base.gpr.set 1 97 })
      (fun t => (t.flags.toWord, t.pc)) = some (97, 0x15) := by decide

/-! ### Bits (V-BIT) -/

/-- V-BIT 3; V-BIT 6. -/
theorem test_sbit_31 :
    nextOf (exec (.sbit (.r 1) (.imm 31)) base) (fun t => getReg t (.r 1)) = some 0x80000000 := by
  decide
theorem test_sbit_32_refused :
    refusalOf (exec (.sbit (.r 1) (.imm 32)) base) = some (.bitNumber 32) := by decide

/-- V-BIT 4. -/
theorem test_cbit_0 :
    nextOf (exec (.cbit (.r 1) (.imm 0)) { base with gpr := base.gpr.set 1 0xFFFFFFFF })
      (fun t => getReg t (.r 1)) = some 0xFFFFFFFE := by decide

/-- V-BIT 7 to 10 and 17. -/
theorem test_field :
    [bitField 0xDEADBEEF 0, bitField 0xDEADBEEF 0x88, bitField 0xDEADBEEF 0x3E1,
      bitField 0xDEADBEEF 0xD6B, bitField 0xA003 0x175] = [0xDEADBEEF, 0xEE, 1, 0x5B7, 0x14] := by
  decide

/-- V-BIT 12 to 15. -/
theorem test_deposit :
    [deposit 0xDEADBEEF 0x88 0x12, deposit 0 0x3E1 1, deposit 0xFFFFFFFF 0 0x1234,
      deposit 0 0x88 0x1FF] = [0xDEADB12F, 0x80000000, 0x1234, 0xFF0] := by decide

/-- V-BIT 8 through EXBR, with the descriptor in R1 (the test's roles); V-BIT 16. -/
theorem test_exbr :
    nextOf (exec (.exbr (.r 3) (.reg (.r 4)))
      { base with gpr := (base.gpr.set 1 0x88).set 4 0xDEADBEEF })
      (fun t => getReg t (.r 3)) = some 0xEE := by decide
theorem test_exbr_past_bit_31 :
    refusalOf (exec (.exbr (.r 3) (.imm 0)) { base with gpr := base.gpr.set 1 0x3E2 }) =
      some (.rangePastBit31 0x3E2) := by decide

/-- V-BIT 12 through DPBR, in memory. -/
theorem test_dpbr :
    nextOf (exec (.dpbr (.r 3) (.memAt 600))
      { base with gpr := (base.gpr.set 1 0x88).set 3 0x12, mem := [(600, .word 0xDEADBEEF)] })
      (fun t => t.mem.read 600) = some 0xDEADB12F := by decide

/-- V-BIT 10: the word at base + 3. -/
theorem test_exbrv :
    nextOf (exec (.exbrv (.r 3) (.imm 600))
      { base with gpr := base.gpr.set 1 0xD6B, mem := [(603, .word 0xDEADBEEF)] })
      (fun t => getReg t (.r 3)) = some 0x5B7 := by decide

/-- V-BIT 12 with SKIP = 3. -/
theorem test_dpbrv :
    nextOf (exec (.dpbrv (.r 3) (.imm 600))
      { base with gpr := (base.gpr.set 1 0xC88).set 3 0x12, mem := [(603, .word 0xDEADBEEF)] })
      (fun t => t.mem.read 603) = some 0xDEADB12F := by decide

/-! ### Data and control (V-DATA) -/

/-- V-DATA 2; V-DATA 3. -/
theorem test_load_memory :
    nextOf (exec (.load (.r 1) (.mem (.r 2) 1))
      { base with gpr := base.gpr.set 2 600, mem := [(601, .word 77)] })
      (fun t => (getReg t (.r 1), t.pc)) = some (77, 201) := by decide
theorem test_load_fp_sp :
    nextOf (exec (.load .fp (.reg .sp)) base) (fun t => (t.sysfp, t.ufp)) = some (1000, 0) := by
  decide

/-- V-DATA 5; V-DATA 6 (with IP = 1: the INTRFAULT path, V-INT 5). -/
theorem test_store_address :
    nextOf (exec (.store (.r 1) (.memAt 209)) { base with gpr := base.gpr.set 1 300 })
      (fun t => t.mem.read 209) = some 300 := by decide
theorem test_store_number :
    nextOf (exec (.store (.r 1) (.imm 72)) { base with pc := 40, mem := [(13, .word 350)] })
      (fun t => (t.pc, [979, 980, 981, 982, 983, 984].map t.mem.read)) =
      some (350, [38, 49, 13, 40, 6, 40]) := by decide

/-- V-DATA 8; V-DATA 9. -/
theorem test_inc_wraps :
    nextOf (exec (.inc (.reg (.r 4))) { base with gpr := base.gpr.set 4 0xFFFFFFFF })
      (fun t => getReg t (.r 4)) = some 0 := by decide
theorem test_inc_memory :
    nextOf (exec (.inc (.mem (.r 2) 0))
      { base with gpr := base.gpr.set 2 600, mem := [(600, .word 9)] })
      (fun t => t.mem.read 600) = some 10 := by decide

/-- V-DATA 11; V-DATA 13 (IP = 1 and no INTRFAULT handler: stopped). -/
theorem test_push_sp :
    nextOf (exec (.push (.reg .sp)) base) (fun t => (t.mem.read 999, t.syssp)) =
      some (1000, 999) := by decide
theorem test_push_wraps :
    stopOf (exec (.push (.reg (.r 0))) { base with syssp := 0 }) (fun a t => (a, t.syssp)) =
      some (.memory, 0xFFFFFFFF, 0) := by decide

/-- V-DATA 14. -/
theorem test_call :
    nextOf (exec (.call (.imm 800)) base) (fun t => (t.mem.read 999, t.syssp, t.pc)) =
      some (201, 999, 800) := by decide

/-- V-DATA 15. -/
theorem test_ret :
    nextOf (exec .ret { base with syssp := 999, mem := [(999, .word 201)] })
      (fun t => (t.pc, t.syssp)) = some (201, 1000) := by decide

/-- V-DATA 18; V-DATA 17. -/
theorem test_comp_signed :
    nextOf (exec (.comp (.r 1) (.imm 1)) { base with gpr := base.gpr.set 1 0x80000000 })
      (fun t => (t.flags.z, t.flags.n)) = some (false, true) := by decide
theorem test_comp_equal :
    nextOf (exec (.comp (.r 1) (.imm 5)) { base with gpr := base.gpr.set 1 5 })
      (fun t => (t.flags.z, t.flags.n)) = some (true, false) := by decide

/-- V-DATA 20. -/
theorem test_compz :
    nextOf (exec (.compz (.r 1) (.imm 0)) { base with gpr := base.gpr.set 1 0x80000000 })
      (fun t => (t.flags.z, t.flags.n)) = some (false, true) := by decide

/-- V-DATA 21; V-DATA 22. -/
theorem test_jcond_taken :
    nextOf (exec (.jcond .err (.imm 60)) { base with pc := 10, flags := Flags.ofWord 57 }) State.pc =
      some 60 := by decide
theorem test_jcond_not_taken :
    nextOf (exec (.jcond .err (.imm 60)) { base with pc := 10 }) State.pc = some 11 := by decide

/-! ### System instructions (V-SYS) -/

/-- V-SYS 1; V-SYS 2. -/
theorem test_halt :
    nextOf (exec .halt base) (fun t => t.flags.toWord) = some 48 := by decide
theorem test_halt_user :
    nextOf (exec .halt { user with pc := 77 })
      (fun t => (t.pc, t.flags.r, [981, 982, 984].map t.mem.read)) =
      some (360, true, [4, 77, 77]) := by decide

/-- V-SYS 3 (through the handler of code 10); a gate entered (R131, with the test's trailer). -/
theorem test_syscall_bad_index :
    nextOf (exec (.syscall (.imm 7)) { user with cglen := 4, pc := 500 })
      (fun t => (t.pc, [981, 982, 983, 984].map t.mem.read)) =
      some (370, [10, 500, 7, 500]) := by decide
theorem test_syscall_gate :
    nextOf (exec (.syscall (.imm 3))
      { user with cglen := 4, cgbr := 400, mem := user.mem ++ [(403, .word 900)] })
      (fun t => ((t.pc, t.syssp, t.flags.toWord), [980, 981, 982, 983, 984].map t.mem.read)) =
      some ((900, 980, 49), [38, 1, 3, 5, 152]) := by decide

/-- P4: the IRET over the frame of the handler at 300; V-SYS 9. -/
theorem test_iret :
    nextOf (exec .iret
      { base with
        syssp := 979
        mem := [(979, .word 38), (980, .word 17), (981, .word 7), (984, .word 112),
          (985, .word 55), (986, .word 1000), (996, .word 11), (997, .word 10), (998, .word 3)] })
      (fun t => ((t.pc, t.syssp, t.sysfp, t.flags.toWord),
        [getReg t (.r 0), getReg t (.r 1), getReg t (.r 2), getReg t (.r 3)])) =
      some ((112, 1000, 55, 17), [0, 3, 10, 11]) := by decide
theorem test_iret_marker :
    refusalOf (exec .iret { base with mem := [(1000, .word 201)] }) = some (.frameMarker 201) := by
  decide

/-- V-SYS 11: translation is on. -/
theorem test_phload :
    nextOf (exec (.phload (.r 1) (.imm 0x3000)) paged) (fun t => getReg t (.r 1)) =
      some 0xA003 := by decide

/-- V-SYS 12. -/
theorem test_phstore :
    nextOf (exec (.phstore (.r 1) (.imm 0x3001)) { paged with gpr := base.gpr.set 1 0xB803 })
      (fun t => t.mem.read 0x3001) = some 0xB803 := by decide

/-! ### Translation (V-VM) -/

/-- V-VM 2, 4, 7 and 15, system mode. -/
theorem test_translate_system :
    [0x7FF, 0x805, 0x402FFF, 0xC00068].map (translate paged) =
      [.ok 0xA7FF, .ok 0xB805, .ok 0x107FF, .ok 0xA068] := by decide

/-- V-VM 1, 4, 5, 9 and 11, user mode. -/
theorem test_translate_user :
    [0x68, 0x805, 0x1000, 0x1000000, 0x800000].map (translate pagedUser) =
      [raised (interruptAt .pagePriv 0x68), .ok 0xB805, raised (interruptAt .pageFault 0x1000),
        raised (interruptAt .pageFault 0x1000000), raised (interruptAt .memory 0x30000)] := by decide

/-- V-VM 12. -/
theorem test_translate_frame_absent :
    readWord paged 0x1805 = raised (interruptAt .memory 0x7F805) := by decide

/-! ### Strings (V-STR) -/

/-- "Hello": the string layout, and the same bytes as a tape delivers them. -/
theorem test_string_hello :
    stringLayout [0x48, 0x65, 0x6C, 0x6C, 0x6F] = [0x6C6C6548, 0x6F] ∧ stringLayout [] = [0] ∧
      stringLayout [0x41, 0x42, 0x43, 0x44] = [0x44434241, 0] := by decide

/-! ### The step (V-INT, V-TIMER, S1) -/

/-- The state of `user` with an instruction at its PC. -/
def stepping (s : State) (i : Instr) : State := s.withFetchWord 32 (encode i).toNat

/-- V-INT 8: the timer expires with a zero entry: dropped. -/
theorem test_timer_dropped :
    nextOf (step (stepping { user with timer := 1, pc := 50 } (.load (.r 1) (.imm 5))))
      (fun t => (t.timer, t.pc, getReg t (.r 1))) = some (0, 51, 5) := by decide

/-- V-INT 9: the timer expires with a handler. -/
theorem test_timer_enters :
    nextOf (step (stepping { base with flags := Flags.ofWord 17, intvec := 200, timer := 1,
                                       pc := 111, mem := [(207, .word 300)] }
        (.load (.r 3) (.imm 11))))
      (fun t => (t.pc, [980, 981, 984, 996].map t.mem.read)) = some (300, [17, 7, 112, 11]) := by
  decide

/-- S1: the SETSR that loads TIMER is itself counted. -/
theorem test_setsr_timer_counted :
    nextOf (step (stepping { base with gpr := base.gpr.set 1 100 } (.setsr (.r 1) (.imm 6))))
      State.timer = some 99 := by decide

/-- V-INT 10 (and 12, for the other key). -/
theorem test_keyboard_first :
    nextOf (step { user with keyboard := [97], pc := 60,
                             mem := [(209, .word 320)] })
      (fun t => (t.pc, t.keyboard, [981, 984].map t.mem.read)) = some (320, [97], [9, 60]) := by
  decide

/-- V-INT 14. -/
theorem test_debug_trap :
    nextOf (step { user with debug := 500, pc := 500, mem := [(212, .word 340)] })
      (fun t => (t.pc, [981, 982, 984].map t.mem.read)) = some (340, [12, 500, 500]) := by decide

/-- V-INT 17. -/
theorem test_unimplemented :
    nextOf (step { user with pc := 70 }) (fun t => (t.pc, [981, 982, 984].map t.mem.read)) =
      some (330, [3, 70, 70]) := by decide

/-- V-INT 2; V-INT 3; V-INT 4. -/
theorem test_stopped :
    [stopOf (exec (.setsr (.r 1) (.imm 6)) { user with mem := [] }) stoppedAt,
      stopOf (exec (.setsr (.r 1) (.imm 6)) { user with intvec := 0x20000 }) stoppedAt,
      stopOf (exec (.setsr (.r 1) (.imm 6)) { user with syssp := 10 }) stoppedAt] =
      List.replicate 3 (some (.privOp, 151, 151)) := by
  decide

/-- 60_exceptions.md R210, R224: a TIMER that stops the run keeps what the instruction before it did, and
the TIMER's own zero. -/
theorem test_stopped_by_timer :
    stopOf (step { stepping user (.load (.r 1) (.imm 5)) with timer := 1, intvec := 0x20000 })
      (fun _ t => (getReg t (.r 1), t.pc, t.timer)) = some (.timer, 5, 152, 0) := by decide

/-- 60_exceptions.md R210, R225: a KEYBD that stops the run keeps the character in the buffer. -/
theorem test_stopped_by_keyboard :
    stopOf (step { user with keyboard := [97], intvec := 0x20000 })
      (fun _ t => (t.pc, t.keyboard)) = some (.keybd, 151, [97]) := by decide

/-- Start-up with nothing placed: the word 0 is no instruction of the model's format (log 41). -/
theorem test_reset_runs_nothing :
    stopOf (step State.reset) stoppedAt = some (.unimpOp, 100, 100) := by decide

/-- The first instruction of a placed program. -/
theorem test_reset_runs_placed :
    nextOf (step (State.reset.withFetchWord 32
      0b001100_00_0001_0000_0001001110001000)) (fun t => (getReg t (.r 1), t.pc)) =
      some (5000, 101) := by decide

/-- The host asks for a row's bits. -/
theorem test_table_word :
    decodeTableWord 32 0b001100_01_1110_1101_0000000000000000 = some (.load .fp (.reg .sp)) := by
  decide

/-! ### PERI (V-PERI, V-TERM) -/

/-- V-PERI 1 and 3. -/
theorem test_disc_check :
    nextOf (exec peri (withMem disc (control 0 [1]))) (fun t => (getReg t (.r 3), t.flags.err)) =
      some (6000, false) ∧
    nextOf (exec peri (withMem disc (control 0 [9]))) (fun t => (getReg t (.r 3), t.flags.err)) =
      some (0xFFFFFFFD, true) := by decide

/-- V-PERI 8 and 4. -/
theorem test_disc_read_position :
    nextOf (exec peri (withMem disc (control 1 [1, 6000, 1, 0x4000])))
      (fun t => getReg t (.r 3)) = some 0xFFFFFFFC ∧
    nextOf (exec peri (withMem disc (control 16 []))) (fun t => getReg t (.r 3)) =
      some 0xFFFFFFFF := by decide

/-- V-PERI 14 (with the string "A"): the host opens the file. -/
theorem test_tape_load :
    nextOf (exec peri { base with answers := [true],
                                  mem := controlAnd 5 [1, 300, 82] [(300, 0x41)] })
      (fun t => (getReg t (.r 3), t.tapes[0])) =
      some (1, some { file := [65], mode := .read, position := 0 }) := by decide

/-- V-PERI 17, a short block: its number, and the words that carry it (the last one partly free). -/
theorem test_tape_read_short :
    nextOf (exec peri (withMem (tapeState .read 0 [0x48, 0x65, 0x6C, 0x6C, 0x6F])
      (control 7 [1, 300]))) (fun t => getReg t (.r 3)) = some 5 ∧
    blockWords base [0x48, 0x65, 0x6C, 0x6C, 0x6F] = [.word 0x6C6C6548, .freeAbove 0 0x6F 8] := by
  decide

/-- V-PERI 25. -/
theorem test_tape_write :
    nextOf (exec peri
      { tapeState .write 0 [] with
        answers := [true]
        mem := controlAnd 8 [1, 300, 5] [(300, 0x6C6C6548), (301, 0x6F)] })
      (fun t => (getReg t (.r 3), t.files.map HostFile.known)) =
      some (5, [[0x48, 0x65, 0x6C, 0x6C, 0x6F]]) := by decide

/-- V-TERM 2. -/
theorem test_termin_string :
    nextOf (exec peri { base with keyboard := [0x41, 0x42, 0x43, 0x44, 0x45],
                                  mem := controlAnd 9 [4, 300] [(301, 7)] })
      (fun t => (getReg t (.r 3), t.mem.read 300, t.mem.read 301, t.keyboard)) =
      some (4, 0x44434241, 0, [0x45]) := by decide

/-- V-TERM 5. -/
theorem test_termin_words :
    nextOf (exec peri { base with keyboard := [0x48, 0x69],
                                  mem := controlAnd 11 [10, 300] [(302, 7)] })
      (fun t => (getReg t (.r 3), [300, 301, 302].map t.mem.read)) = some (2, [0x48, 0x69, 7]) := by
  decide

/-- V-TERM 6 and 8. -/
theorem test_termout :
    nextOf (exec peri (withMem base (controlAnd 10 [0, 300] [(300, 0x00216948)])))
      (fun t => (getReg t (.r 3), t.screen)) = some (3, [0x48, 0x69, 0x21]) ∧
    nextOf (exec peri (withMem base (controlAnd 10 [4, 300] [(300, 0x00410042)])))
      (fun t => (getReg t (.r 3), t.screen)) = some (4, [0x42, 0, 0x41, 0]) := by decide

/-- V-TERM 9. -/
theorem test_termout_words :
    nextOf (exec peri (withMem base (controlAnd 12 [2, 300] [(300, 0x48), (301, 0x69)])))
      (fun t => (getReg t (.r 3), t.screen)) = some (2, [0x48, 0x69]) := by decide

/-- V-TERM 10 and 11. -/
theorem test_clock :
    nextOf (exec peri { base with clock := [⟨847497600, 0⟩], mem := control 13 [] })
      (fun t => getReg t (.r 3)) = some 847497600 ∧
    nextOf (exec peri { base with clock := [⟨12, 250000⟩], mem := control 14 [0, 0] })
      (fun t => (t.mem.read 121, t.mem.read 122)) = some (12, 250000) := by decide

/-- V-TERM 12 to 16. -/
theorem test_civil :
    [0, 31626061, 847497600, 86399, 5097600].map civil =
      [[2000, 1, 1, 6, 0, 0, 0], [2001, 1, 1, 1, 1, 1, 1], [2026, 11, 9, 1, 0, 0, 0],
        [2000, 1, 1, 6, 23, 59, 59], [2000, 2, 29, 2, 0, 0, 0]] := by decide

/-- U8: a write into the unknown rest of a file leaves what follows unknown anew; one inside the known
bytes leaves the rest as it was. -/
theorem test_write_into_unknown_rest :
    writeFileBytes 7 1 [66] ⟨[65], [72], some 3⟩ = ⟨[65], [72, 66], some 7⟩ ∧
    writeFileBytes 7 0 [66] ⟨[65], [72], some 3⟩ = ⟨[65], [66], some 3⟩ := by decide

/-! ### Witnesses: a state and operands that meet the hypotheses of each statement, clause by clause -/

theorem witness_DecodeOfEncode :
    (Instr.load (.r 1) (.mem .pc 0xFFFF8000)).wellFormed = true ∧
    (Instr.jcond (.other 15) (.imm 0x7FFF)).wellFormed = true := by decide

theorem witness_EncodeOfDecode :
    decode 0b001101_11_0001_0010_0000000000000001#32 = some (.store (.r 1) (.mem (.r 2) 1)) := by
  decide

/-- VM off; then with VM on: a misaligned PDBR, the directory just past memory, a zero directory entry, a
table past memory, an entry not resident, a system page in user mode, a user page in user mode, a system
page in system mode; then a word that exists, one that does not, an address that does not translate. -/
theorem witness_TranslationWalk :
    base.flags.vm = false ∧
    ({ paged with pdbr := 0x2001 }.flags.vm = true ∧ (0x2001 : Word).toNat % 1024 ≠ 0) ∧
    ({ paged with pdbr := 0x20000 }.flags.vm = true ∧
      (0x20000 : Word).toNat % 1024 = 0 ∧ present paged 0x20000 = false) ∧
    (present paged 0x2004 = true ∧ paged.mem.read 0x2004 = 0) ∧
    (paged.mem.read 0x2002 ≠ 0 ∧ present paged 0x30000 = false) ∧
    (paged.mem.read 0x2000 ≠ 0 ∧ present paged 0x3002 = true ∧
      (paged.mem.read 0x3002).toNat % 2 = 0) ∧
    ((pagedUser.mem.read 0x3000).toNat % 4 = 3 ∧ pagedUser.flags.vm = true ∧
      pagedUser.flags.sys = false) ∧
    (pagedUser.mem.read 0x3001).toNat % 4 = 1 ∧
    ((paged.mem.read 0x3000).toNat % 2 = 1 ∧ paged.flags.sys = true) ∧
    (translate base 0x1FFFF = .ok 0x1FFFF ∧ present base 0x1FFFF = true) ∧
    (translate base 0x20000 = .ok 0x20000 ∧ present base 0x20000 = false) ∧
    translate pagedUser 0x68 = raised (interruptAt .pagePriv 0x68) := by decide

theorem witness_TranslationHasNoMemory :
    ({ paged with pc := 7 }.flags.vm = paged.flags.vm ∧
      { paged with pc := 7 }.pdbr = paged.pdbr) ∧ SameMemory paged { paged with pc := 7 } :=
  ⟨by decide, fun _ => rfl⟩

/-- An operand that faults, in system and in user mode: the clause that O8 to O13, O16 to O18, O20 to O22,
O24 to O26, O28 and O30 have in common. The roles and COMPZ's tested value as those statements want them. -/
theorem witness_faulting_operand :
    operandValue base (.memAt 0x20000) = raised (interruptAt .memory 0x20000) ∧
    base.flags.sys = true ∧
    operandValue user (.memAt 0x20000) = raised (interruptAt .memory 0x20000) ∧
    Reg.r 3 ≠ Reg.pc ∧ roleReg (.r 3) base.params.exbrRoles.result ≠ .pc ∧
    roleReg (.r 3) base.params.exbrvRoles.result ≠ .pc ∧
    (let s := { base with params := { testParams with compzTests := .operand } }
     s.params.compzTests = .operand ∧
      operandValue s (.memAt 0x20000) = raised (interruptAt .memory 0x20000)) ∧
    readWord base (0x20000 + rangeSkip (getReg base (.r 1))) =
      raised (interruptAt .memory 0x20000) := by decide

/-- Numbers 0 and 8; number 9; an operand that faults. -/
theorem witness_GetsrReadsSpecialRegister :
    (operandValue base (.imm 0) = .ok 0 ∧ specialOfNumber 0 = some .flags) ∧
    (operandValue base (.imm 8) = .ok 8 ∧ specialOfNumber 8 = some .sysfp) ∧
    8 < (9 : Word).toNat ∧
    operandValue base (.memAt 0x20000) = raised (interruptAt .memory 0x20000) ∧
    Reg.sp ≠ Reg.pc := by decide

theorem witness_SetsrWritesSpecialRegister :
    (base.flags.sys = true ∧ operandValue base (.imm 0) = .ok 0 ∧
      specialOfNumber 0 = some .flags) ∧
    (operandValue base (.imm 8) = .ok 8 ∧ specialOfNumber 8 = some .sysfp) ∧
    (operandValue base (.imm 9) = .ok 9 ∧ 8 < (9 : Word).toNat) ∧ user.flags.sys = false := by decide

theorem witness_GetflReadsOneFlag :
    operandValue base (.imm 6) = .ok 6 ∧ (6 : Word).toNat ≤ 6 ∧
    operandValue base (.imm 7) = .ok 7 ∧ 6 < (7 : Word).toNat := by decide

/-- System mode, flag 6; user mode, flags 1 and 3; user mode, flags 0 and 4; number 7. -/
theorem witness_SetflSetsOneFlag :
    (operandValue base (.imm 6) = .ok 6 ∧ base.flags.sys = true) ∧
    (operandValue user (.imm 1) = .ok 1 ∧ operandValue user (.imm 3) = .ok 3 ∧
      1 ≤ (1 : Word).toNat ∧ (3 : Word).toNat ≤ 3) ∧
    (operandValue user (.imm 0) = .ok 0 ∧ operandValue user (.imm 4) = .ok 4 ∧
      user.flags.sys = false) ∧
    6 < (7 : Word).toNat := by decide

theorem witness_FlagsjSetsFlagsAndJumps :
    (base.flags.sys = true ∧ operandValue base (.imm 21) = .ok 21) ∧ user.flags.sys = false := by
  decide

theorem witness_SbitCbitChangeOneBit :
    operandValue base (.imm 31) = .ok 31 ∧ (31 : Word).toNat < 32 ∧
    operandValue base (.imm 32) = .ok 32 ∧ 32 ≤ (32 : Word).toNat := by decide

/-- A range that ends at bit 31; the last bit of the word; bits inside and outside the range. -/
theorem witness_DepositBits :
    rangeRight 0x175 + rangeLength 0x175 ≤ 32 ∧ 31 < 32 ∧
    rangeRight 0x175 ≤ 31 ∧ 31 < rangeRight 0x175 + rangeLength 0x175 ∧ ¬ rangeRight 0x175 ≤ 10 := by
  decide

theorem witness_DescriptorParts :
    2 ^ 22 - 1 < 2 ^ 22 ∧ (31 : Nat) < 32 ∧ (0 : Nat) < 32 := by decide

/-- The descriptor 0x175 in R1 (a range up to bit 31), then 0x3E2 (one past it). -/
def described (d : Word) : State :=
  { base with gpr := (base.gpr.set 1 d).set 3 5, mem := [(600, .word 0xDEADBEEF)] }

theorem witness_ExtractInstructionsDeliverField :
    roleReg (.r 3) (described 0x175).params.exbrRoles.result ≠ .pc ∧
    roleReg (.r 3) (described 0x175).params.exbrvRoles.result ≠ .pc ∧
    operandValue (described 0x175) (.imm 600) = .ok 600 ∧
    rangeRight (getReg (described 0x175) (.r 1)) + rangeLength (getReg (described 0x175) (.r 1)) = 32 ∧
    readWord (described 0x175) (600 + rangeSkip 0x175) = .ok 0xDEADBEEF ∧
    32 < rangeRight (getReg (described 0x3E2) (.r 1)) + rangeLength (getReg (described 0x3E2) (.r 1)) ∧
    readWord (described 0x3E2) (600 + rangeSkip 0x3E2) = .ok 0xDEADBEEF := by decide

theorem witness_DepositInstructionsReplaceRange :
    rangeRight (getReg (described 0x175) (roleReg (.r 3) (.fixed (.r 1)))) +
      rangeLength (getReg (described 0x175) (.r 1)) ≤ 32 ∧ Reg.sp ≠ Reg.pc ∧
    operandAddress (described 0x175) (.memAt 600) = some 600 ∧
    translate (described 0x175) 600 = .ok 600 ∧ present (described 0x175) 600 = true ∧
    operandValue (described 0x175) (.imm 600) = .ok 600 ∧
    translate (described 0x175) (600 + rangeSkip 0x175) = .ok 600 ∧
    32 < rangeRight (getReg (described 0x3E2) (.r 1)) + rangeLength (getReg (described 0x3E2) (.r 1)) ∧
    operandValue (described 0x3E2) (.imm 600) = .ok 600 ∧
    translate (described 0x3E2) (600 + rangeSkip 0x3E2) = .ok 600 ∧
    present (described 0x3E2) 600 = true := by decide

theorem witness_LoadCopiesOperand :
    Reg.r 12 ≠ Reg.pc ∧ operandValue base (.memAt 0x1FFFF) = .ok 0 ∧
    operandValue base (.memAt 0x20000) = raised (interruptAt .memory 0x20000) := by decide

/-- The last present word, the first absent one, a system page in user mode, a register. -/
theorem witness_StoreCopiesRegister :
    (operandAddress base (.memAt 0x1FFFF) = some 0x1FFFF ∧
      translate base 0x1FFFF = .ok 0x1FFFF ∧ present base 0x1FFFF = true) ∧
    (translate base 0x20000 = .ok 0x20000 ∧ present base 0x20000 = false) ∧
    (operandAddress pagedUser (.memAt 0x68) = some 0x68 ∧
      translate pagedUser 0x68 = raised (interruptAt .pagePriv 0x68)) ∧ Reg.fp ≠ Reg.pc := by decide

theorem witness_IncAddsOne :
    (operandAddress base (.memAt 0x1FFFF) = some 0x1FFFF ∧
      translate base 0x1FFFF = .ok 0x1FFFF ∧ present base 0x1FFFF = true) ∧
    (operandAddress base (.memAt 0x20000) = some 0x20000 ∧
      readWord base 0x20000 = raised (interruptAt .memory 0x20000)) ∧ Reg.fp ≠ Reg.pc := by decide

theorem witness_PushStoresBelowStackPointer :
    operandValue base (.reg .sp) = .ok 1000 ∧
    (translate base (getReg base .sp - 1) = .ok 999 ∧ present base 999 = true) ∧
    writeWord { base with syssp := 0 } (0 - 1) 5 = raised (interruptAt .memory 0xFFFFFFFF) := by
  decide

theorem witness_CallPushesReturnAddress :
    operandValue base (.imm 800) = .ok 800 ∧
    (translate base (getReg base .sp - 1) = .ok 999 ∧ present base 999 = true) ∧
    writeWord { base with syssp := 0 } (0 - 1) 201 = raised (interruptAt .memory 0xFFFFFFFF) := by
  decide

theorem witness_RetPopsProgramCounter :
    readWord base (getReg base .sp) = .ok 0 ∧
    readWord { base with syssp := 0x20000 } 0x20000 = raised (interruptAt .memory 0x20000) := by
  decide

theorem witness_CompSetsZeroAndNegative :
    (operandValue base (.imm 0x80000000) = .ok 0x80000000 ∧ base.params.compWraps = false) ∧
    ({ base with params := { testParams with compWraps := true } }.params.compWraps = true) ∧
    operandValue base (.memAt 0x20000) = raised (interruptAt .memory 0x20000) := by decide

theorem witness_CompzTestsAgainstZero :
    (base.params.compzTests = .mainRegister ∧ getReg base (.r 1) = 0) ∧
    ({ base with params := { testParams with compzTests := .operand } }.params.compzTests =
        .operand ∧
      operandValue base (.imm 0x80000000) = .ok 0x80000000) := by decide

theorem witness_JcondJumpsOnErr :
    ({ base with flags := Flags.ofWord 57 }.flags.err = true ∧
      operandValue { base with flags := Flags.ofWord 57 } (.imm 60) = .ok 60) ∧
    base.flags.err = false ∧
    operandValue { base with flags := Flags.ofWord 57 } (.memAt 0x20000) =
      raised (interruptAt .memory 0x20000) := by decide

theorem witness_HaltStopsOrTraps : base.flags.sys = true ∧ user.flags.sys = false := by decide

/-- Index -1, index CGLEN; index CGLEN - 1 with a stack that has exactly the room. -/
theorem witness_SyscallEntersGateOrBadCall :
    (operandValue base (.imm 0xFFFFFFFF) = .ok 0xFFFFFFFF ∧ 2 ^ 31 ≤ (0xFFFFFFFF : Word).toNat) ∧
    ({ base with cglen := 4 }.cglen.toInt ≤ (4 : Word).toInt) ∧
    (let s := { user with cglen := 4, cgbr := 400, syssp := 20 }
     operandValue s (.imm 3) = .ok 3 ∧ (3 : Word).toNat < 2 ^ 31 ∧
      (3 : Word).toInt < s.cglen.toInt ∧ readWord s (s.cgbr + 3) = .ok 0 ∧ s.flags.vm = false ∧
      18 + s.params.syscallTrailer.length ≤ s.syssp.toNat ∧
      s.syssp.toNat ≤ s.params.physWords) := by decide

/-- A stack just past memory; one whose second word is; a frame of zeros but for its marker; such a frame
whose last word is past memory; another marker; user mode. -/
theorem witness_IretRestoresFrame :
    (base.flags.sys = true ∧
      readWord { base with syssp := 0x20000 } 0x20000 = raised (interruptAt .memory 0x20000)) ∧
    (readWord base 0x1FFFF = .ok 0 ∧
      readWord base (0x1FFFF + 1) = raised (interruptAt .memory 0x20000)) ∧
    (let s := { base with mem := [(1000, .word 38)] }
     readWord s (s.syssp + 1) = .ok 0 ∧ readWord s s.syssp = .ok 38 ∧
      ∀ k : Fin 16, readWord s (s.syssp + 5 + BitVec.ofNat 32 k.val) = .ok 0) ∧
    (let s := { base with syssp := 0x1FFEC, mem := [(0x1FFEC, .word 38)] }
     readWord s (s.syssp + 1) = .ok 0 ∧ readWord s s.syssp = .ok 38 ∧
      (∀ k : Fin 16, k < 15 → readWord s (s.syssp + 5 + BitVec.ofNat 32 k.val) = .ok 0) ∧
      readWord s (s.syssp + 5 + BitVec.ofNat 32 (15 : Fin 16).val) =
        raised (interruptAt .memory 0x20000)) ∧
    (readWord base base.syssp = .ok 0 ∧ (0 : Word) ≠ 38) ∧ user.flags.sys = false := by decide

theorem witness_PhloadPhstoreReachPhysicalWords :
    paged.flags.sys = true ∧ Reg.r 1 ≠ Reg.pc ∧ operandValue paged (.imm 0x1FFFF) = .ok 0x1FFFF ∧
    (0x1FFFF : Word).toNat < paged.params.physWords ∧
    paged.params.physWords ≤ (0x20000 : Word).toNat ∧ user.flags.sys = false := by decide

theorem witness_UserModePrivilegedOperations :
    user.flags.sys = false ∧ operandValue user (.imm 6) = .ok 6 := by decide

theorem witness_PcIsNoDestination :
    base.flags.sys = true ∧ roleReg .pc (.main) = .pc ∧
    rangeRight (getReg (described 0x175) (roleReg (.r 3) (described 0x175).params.dpbrRoles.descriptor)) +
      rangeLength (getReg (described 0x175) (.r 1)) ≤ 32 := by decide

/-- With translation off: a handler at 300 and 21 present words below the system stack pointer. -/
theorem canEnter_at (s : State) (c : IntCode) (h1 : s.flags.vm = false)
    (h2 : vectorEntry s c = .ok 300) (h3 : ∀ k, present s (frameAddress s k) = true) :
    CanEnter s c 300 (frameAddress s) :=
  ⟨h2, by decide, fun k _ => h3 k, fun m _ k _ => 
    translate_of_vm_off _ h1⟩

/-- A system stack with exactly the room for a frame. -/
def tight : State := { user with syssp := 21 }

/-- With translation on: the system stack and the vector in the system page at 0xA000, from user mode. -/
def pagedEntry : State :=
  { pagedUser with
    intvec := 0x700
    mem :=
      [(0x2000, .word 0x3000), (0x3000, .word 0xA003), (0xA708, .word 300), (0xA70D, .word 350)] }

theorem pagedEntry_canEnter :
    CanEnter pagedEntry .privOp 300 fun k => 0xA000 + frameAddress pagedEntry k := by
  refine ⟨by decide, by decide, by decide, fun m hm k _ => ?_⟩
  have h1 : m.read 0x2000 = 0x3000 := hm 0x2000 (by decide)
  have h2 : m.read 0x3000 = 0xA003 := hm 0x3000 (by decide)
  have h3 : ∀ k, pageTableNumber (frameAddress pagedEntry k) = 0 ∧
      pageNumber (frameAddress pagedEntry k) = 0 ∧
      frameOf 0xA003 + pageOffset (frameAddress pagedEntry k) =
        0xA000 + frameAddress pagedEntry k := by decide
  obtain ⟨a1, a2, a3⟩ := h3 k
  have t1 : physRead (duringEntry pagedEntry m) 0x2000 = .ok 0x3000 := by
    rw [← h1]; rfl
  have t2 : physRead (duringEntry pagedEntry m) 0x3000 = .ok 0xA003 := by
    rw [← h2]; rfl
  have hv : (duringEntry pagedEntry m).flags.vm = true := rfl
  have hp : (duringEntry pagedEntry m).pdbr = 0x2000 := rfl
  have he : translateEntry (duringEntry pagedEntry m) (frameAddress pagedEntry k) 0xA003 =
      .ok (frameOf 0xA003 + pageOffset (frameAddress pagedEntry k)) := rfl
  have hd : ((0x2000 : Word) &&& 0xFFFFFC00) + 0 = 0x2000 := by decide
  have hf : frameOf 0x3000 + 0 = 0x3000 := by decide
  rw [Machine.translate, hv, hp, if_neg (by decide), if_neg (by decide), a1, hd, t1, bind_ok,
    if_neg (by decide), a2, hf, t2, bind_ok, he, a3]

/-- Three words below the system stack pointer; the fourth push is to an absent word. -/
def shallow : State := { user with syssp := 3 }

theorem shallow_pushFails : PushFails shallow (frameAddress shallow) 3 :=
  ⟨⟨by decide, fun _ _ _ _ => rfl⟩,
    fun _ _ => ⟨interruptAt .memory 0xFFFFFFFF, rfl⟩⟩

/-- A handler, with translation off and on; INTRFAULT for a fatal interrupt while IP = 1, and for one
whose vector entry lies past memory (the vector wraps); a push that fails, with IP = 0 and IP = 1. -/
theorem witness_InterruptEntersHandler :
    (tight.flags.ip = false ∧ CanEnter tight .privOp 300 (frameAddress tight)) ∧
    (pagedEntry.flags.ip = false ∧ pagedEntry.flags.vm = true ∧
      CanEnter pagedEntry .privOp 300 fun k => 0xA000 + frameAddress pagedEntry k) ∧
    (let s := { base with mem := [(13, .word 300)] }
     s.flags.ip = true ∧ isNotification .unwrOp = false ∧
      CanEnter s .intrFault 300 (frameAddress s)) ∧
    (let s := { tight with intvec := 0xFFFFFFF7, mem := [(4, .word 300)] }
     s.flags.ip = false ∧ vectorEntry s .privOp = raised (interruptAt .memory 0xFFFFFFFF) ∧
      CanEnter s .intrFault 300 (frameAddress s)) ∧
    (shallow.flags.ip = false ∧ vectorEntry shallow .privOp = .ok 300 ∧
      PushFails shallow (frameAddress shallow) 3) :=
  ⟨⟨by decide, canEnter_at _ _ (by decide) (by decide) (by decide)⟩,
    ⟨by decide, by decide, pagedEntry_canEnter⟩,
    ⟨by decide, by decide, canEnter_at _ _ (by decide) (by decide) (by decide)⟩,
    ⟨by decide, by decide, canEnter_at _ _ (by decide) (by decide) (by decide)⟩,
    ⟨by decide, by decide, shallow_pushFails⟩⟩

/-- 60_exceptions.md R208: with a vector entry past memory INTRFAULT takes the interrupt. -/
theorem test_unreadable_vector :
    nextOf (takeInterrupt (interruptAt .privOp 151)
      { tight with intvec := 0xFFFFFFF7, mem := [(4, .word 300)] })
      (fun t => (t.pc, [2, 3, 4].map t.mem.read)) = some (300, [13, 151, 8]) := by decide

/-- 60_exceptions.md R208, R210: with a stack too short the run stops, with SP as it was. -/
theorem test_stack_too_short :
    stopOf (takeInterrupt (interruptAt .privOp 151) shallow)
      (fun a t => (a, t.syssp, t.flags.sys, t.mem.read 203)) = some (.privOp, 151, 3, false, 330) := by decide

/-- A fatal interrupt and a notification with a zero entry; IP = 1; an unreadable entry and INTRFAULT's
zero; both unreadable. -/
theorem witness_DeclinedInterruptStopsOrIsDropped :
    (user.flags.ip = false ∧ vectorEntry user .unwrOp = .ok 0 ∧
      isNotification .unwrOp = false) ∧
    (vectorEntry user .timer = .ok 0 ∧ isNotification .timer = true) ∧ base.flags.ip = true ∧
    (let s := { user with intvec := 0xFFFFFFF7 }
     vectorEntry s .privOp = raised (interruptAt .memory 0xFFFFFFFF) ∧
      vectorEntry s .intrFault = .ok 0) ∧
    (let s := { user with intvec := 0x20000 }
     vectorEntry s .privOp = raised (interruptAt .memory 0x20008) ∧
      vectorEntry s .intrFault = raised (interruptAt .memory 0x2000D)) := by decide

theorem witness_IretUndoesEntry :
    tight.flags.ip = false ∧ CanEnter tight .privOp 300 (frameAddress tight) ∧
    ∃ t, takeInterrupt (interruptAt .privOp 151) tight = .next t ∧ t.pc = 300 :=
  ⟨by decide, canEnter_at _ _ (by decide) (by decide) (by decide),
    nextOf_some (by decide)⟩

/-- An entry with translation off, on a stack with room for one frame, and entries with translation on. -/
theorem witness_InterruptsArePrecise :
    (∃ t, exec (.setsr (.r 1) (.imm 6)) tight = .next t ∧ t.retired = false) ∧
    tight.flags.vm = false ∧ PushesReach tight (frameAddress tight) 21 ∧
    (∃ t, exec .iret pagedEntry = .next t ∧ t.retired = false) ∧
    PushesReach pagedEntry (fun k => 0xA000 + frameAddress pagedEntry k) 21 :=
  ⟨nextOf_some (by decide), by decide,
    (canEnter_at tight .privOp (by decide) (by decide) (by decide)).stack,
    nextOf_some (by decide), pagedEntry_canEnter.stack⟩

/-- An instruction that stops; a step that stops by an unreadable KEYBD entry, and by a TIMER one. -/
theorem witness_FaultsAreFatalInterrupts :
    (stopOf (exec (.setsr (.r 1) (.imm 6)) { user with mem := [] }) stoppedAt).isSome = true ∧
    (stopOf (step { user with keyboard := [97], intvec := 0x20000 }) stoppedAt).isSome = true ∧
    (stopOf (step { stepping user (.load (.r 1) (.imm 5)) with
      timer := 1, intvec := 0x20000 }) stoppedAt).isSome = true := by decide

/-! #### PERI -/

theorem periStarts_at (s : State) (k : PeriOp) (h1 : s.flags.sys = true)
    (h2 : s.params = testParams) (h3 : readWord s 120 = .ok (periCodeOf s.params k)) :
    PeriStarts s (.r 3) (.imm 120) 120 k :=
  ⟨h1, by decide, rfl, by rw [h2]; decide, h3⟩

/-- A faulting operand; a code that is no operation's; a control structure just past memory; one whose
second word is. -/
theorem witness_PeriRejectsBadCode :
    (base.flags.sys = true ∧ Reg.r 3 ≠ Reg.pc ∧ operandValue base (.imm 120) = .ok 120) ∧
    operandValue base (.memAt 0x20000) = raised (interruptAt .memory 0x20000) ∧
    (readWord (withMem base (control 16 [])) 120 = .ok 0x80 ∧
      ∀ k, periCodeOf base.params k ≠ 0x80) ∧
    readWord base 0x20000 = raised (interruptAt .memory 0x20000) ∧
    (let s := { disc with mem := [(0x1FFFF, .word 0x70)] }
     PeriStarts s (.r 3) (.imm 0x1FFFF) 0x1FFFF .discCheck ∧
      readWord s (0x1FFFF + 1) = raised (interruptAt .memory 0x20000)) :=
  ⟨by decide, by decide, ⟨by decide, fun k => by cases k <;> decide⟩, by decide,
    ⟨⟨by decide, by decide, by decide, by decide, by decide⟩, by decide⟩⟩

/-- Drives 9, 0, 8 (not configured) and 1. -/
theorem witness_DiscCheckReportsSize :
    PeriStarts (withMem disc (control 0 [1])) (.r 3) (.imm 120) 120 .discCheck ∧
    readWord (withMem disc (control 0 [1])) (120 + 1) = .ok 1 ∧
    (8 < (9 : Word).toInt ∧ (0 : Word).toInt < 1 ∧ (8 : Word).toNat = (7 : Fin 8).val + 1 ∧
      disc.discs[(7 : Fin 8)] = none ∧ (1 : Word).toNat = (0 : Fin 8).val + 1 ∧
      disc.discs[(0 : Fin 8)] = some { size := 6000, written := [] } ∧ 6000 < 2 ^ 31) :=
  ⟨periStarts_at _ _ (by decide) (by decide) (by decide), by decide, by decide⟩

/-- Drive 1 of 2^31 blocks. -/
theorem witness_DiscReadDeliversBlocks_large :
    let s := { withMem base (control 0 [1]) with
      discs := base.discs.set 0 (some { size := 2 ^ 31, written := [] }) }
    PeriStarts s (.r 3) (.imm 120) 120 .discCheck ∧ readWord s (120 + 1) = .ok 1 ∧
    s.discs[(0 : Fin 8)] = some { size := 2 ^ 31, written := [] } :=
  ⟨periStarts_at _ _ (by decide) (by decide) (by decide), by decide, by decide⟩

/-- Drives 9, 0 and 8 (not configured), of both disc operations. -/
theorem witness_no_drive : ∀ d ∈ [9, 0, 8],
    (let s := withMem disc (control 1 [d, 0, 1, 300])
     PeriStarts s (.r 3) (.imm 120) 120 .discRead ∧
      readWord s (120 + 1) = .ok (BitVec.ofNat 32 d) ∧ readWord s (120 + 2) = .ok 0 ∧
      readWord s (120 + 3) = .ok 1 ∧ readWord s (120 + 4) = .ok 300) ∧
    (let s := withMem disc (control 2 [d, 0, 1, 300])
     PeriStarts s (.r 3) (.imm 120) 120 .discWrite ∧
      readWord s (120 + 1) = .ok (BitVec.ofNat 32 d) ∧ readWord s (120 + 2) = .ok 0 ∧
      readWord s (120 + 3) = .ok 1 ∧ readWord s (120 + 4) = .ok 300) ∧
    ((BitVec.ofNat 32 d).toInt < 1 ∨ 8 < (BitVec.ofNat 32 d).toInt ∨
      ∃ i : Fin 8, (BitVec.ofNat 32 d).toNat = i.val + 1 ∧ disc.discs[i] = none) := by
  intro d hd
  simp only [List.mem_cons, List.not_mem_nil, or_false] at hd
  rcases hd with rfl | rfl | rfl <;>
    exact ⟨⟨periStarts_at _ _ (by decide) (by decide) (by decide), by decide⟩,
      ⟨periStarts_at _ _ (by decide) (by decide) (by decide), by decide⟩, by decide⟩

/-- Units 9, 0, 8 (unloaded) and 1 (loaded in the other mode), of both tape operations. -/
theorem witness_no_unit : ∀ u ∈ [9, 0, 8, 1],
    (let s := withMem (tapeState .write 0 []) (control 7 [u, 300])
     PeriStarts s (.r 3) (.imm 120) 120 .tapeRead ∧
      readWord s (120 + 1) = .ok (BitVec.ofNat 32 u) ∧ readWord s (120 + 2) = .ok 300) ∧
    (let s := withMem (tapeState .read 0 []) (control 8 [u, 300, 1])
     PeriStarts s (.r 3) (.imm 120) 120 .tapeWrite ∧
      readWord s (120 + 1) = .ok (BitVec.ofNat 32 u) ∧ readWord s (120 + 2) = .ok 300 ∧
      readWord s (120 + 3) = .ok 1) ∧
    ∀ mode : TapeMode,
      ((BitVec.ofNat 32 u).toInt < 1 ∨ 8 < (BitVec.ofNat 32 u).toInt ∨
        ∃ i : Fin 8, (BitVec.ofNat 32 u).toNat = i.val + 1 ∧
          ((tapeState mode 0 []).tapes[i] = none ∨
            ∃ tape, (tapeState mode 0 []).tapes[i] = some tape ∧ tape.mode = mode)) := by
  intro u hu
  simp only [List.mem_cons, List.not_mem_nil, or_false] at hu
  rcases hu with rfl | rfl | rfl | rfl <;>
    refine ⟨⟨periStarts_at _ _ (by decide) (by decide) (by decide), by decide⟩,
      ⟨periStarts_at _ _ (by decide) (by decide) (by decide), by decide⟩, fun mode => ?_⟩
  · exact .inr (.inl (by decide))
  · exact .inl (by decide)
  · exact .inr (.inr ⟨7, by decide, .inl rfl⟩)
  · exact .inr (.inr ⟨0, by decide, .inr ⟨_, rfl, rfl⟩⟩)

/-- The last block of the disc into the last words of memory; one block too far; a negative block. -/
theorem witness_DiscReadDeliversBlocks :
    let s := withMem disc (control 1 [1, 5999, 1, 0x1FF80])
    PeriStarts s (.r 3) (.imm 120) 120 .discRead ∧
    (readWord s (120 + 1) = .ok 1 ∧ readWord s (120 + 2) = .ok 5999 ∧
      readWord s (120 + 3) = .ok 1 ∧ readWord s (120 + 4) = .ok 0x1FF80 ∧
      (1 : Word).toNat = (0 : Fin 8).val + 1 ∧
      s.discs[(0 : Fin 8)] = some { size := 6000, written := [] } ∧ 0 < (1 : Word).toInt ∧
      (5999 : Word).toNat < 2 ^ 31 ∧ (5999 : Word).toNat + (1 : Word).toNat ≤ 6000) ∧
    PlainBuffer s 0x1FF80 (128 * (1 : Word).toNat) ∧
    (6000 < (6000 : Word).toNat + (1 : Word).toNat ∧ 2 ^ 31 ≤ (0xFFFFFFFF : Word).toNat) :=
  ⟨periStarts_at _ _ (by decide) (by decide) (by decide), by decide,
    ⟨by decide, by decide, by decide⟩, by decide⟩

theorem witness_DiscWriteStoresBlocks :
    let s := { disc with mem := control 2 [1, 5999, 1, 0x1FF80], answers := [true] }
    PeriStarts s (.r 3) (.imm 120) 120 .discWrite ∧
    (readWord s (120 + 1) = .ok 1 ∧ readWord s (120 + 2) = .ok 5999 ∧
      readWord s (120 + 3) = .ok 1 ∧ readWord s (120 + 4) = .ok 0x1FF80 ∧
      s.discs[(0 : Fin 8)] = some { size := 6000, written := [] } ∧ 0 < (1 : Word).toInt ∧
      (5999 : Word).toNat + (1 : Word).toNat ≤ 6000 ∧ s.answers = [true]) ∧
    PlainBuffer s 0x1FF80 (128 * (1 : Word).toNat) :=
  ⟨periStarts_at _ _ (by decide) (by decide) (by decide), by decide,
    ⟨by decide, by decide, by decide⟩⟩

/-- The second word past memory; units 9, 0, 8 (unloaded) and 1 (loaded). -/
theorem witness_TapeCheckReportsMode :
    PeriStarts (withMem (tapeState .read 0 []) (control 3 [1])) (.r 3) (.imm 120) 120 .tapeCheck ∧
    readWord (withMem (tapeState .read 0 []) (control 3 [1])) (120 + 1) = .ok 1 ∧
    (let s := { base with mem := [(0x1FFFF, .word 0x73)] }
     PeriStarts s (.r 3) (.imm 0x1FFFF) 0x1FFFF .tapeCheck ∧
      readWord s (0x1FFFF + 1) = raised (interruptAt .memory 0x20000)) ∧
    (8 < (9 : Word).toInt ∧ (0 : Word).toInt < 1 ∧ (8 : Word).toNat = (7 : Fin 8).val + 1 ∧
      (1 : Word).toNat = (0 : Fin 8).val + 1) :=
  ⟨periStarts_at _ _ (by decide) (by decide) (by decide), by decide,
    ⟨⟨by decide, by decide, by decide, by decide, by decide⟩, by decide⟩, by decide⟩

/-- The second word past memory; unit 9; unit 8 unloaded; unit 1 loaded for reading (both operations) and
for writing. -/
theorem witness_TapeRewindAndUnload :
    (let s := { base with mem := [(0x1FFFF, .word 0x74)] }
     PeriStarts s (.r 3) (.imm 0x1FFFF) 0x1FFFF .tapeRewind ∧
      readWord s (0x1FFFF + 1) = raised (interruptAt .memory 0x20000)) ∧
    (let s := withMem base (control 4 [9])
     PeriStarts s (.r 3) (.imm 120) 120 .tapeRewind ∧ readWord s (120 + 1) = .ok 9 ∧
      8 < (9 : Word).toInt) ∧
    (let s := withMem base (control 6 [8])
     PeriStarts s (.r 3) (.imm 120) 120 .tapeUnload ∧ s.tapes[(7 : Fin 8)] = none) ∧
    (let s := withMem (tapeState .read 3 []) (control 4 [1])
     PeriStarts s (.r 3) (.imm 120) 120 .tapeRewind ∧
      s.tapes[(0 : Fin 8)] = some { file := [65], mode := .read, position := 3 }) ∧
    (let s := withMem (tapeState .write 3 []) (control 4 [1])
     PeriStarts s (.r 3) (.imm 120) 120 .tapeRewind ∧
      s.tapes[(0 : Fin 8)] = some { file := [65], mode := .write, position := 3 }) ∧
    (let s := withMem (tapeState .write 3 []) (control 6 [1])
     PeriStarts s (.r 3) (.imm 120) 120 .tapeUnload ∧
      s.tapes[(0 : Fin 8)] = some { file := [65], mode := .write, position := 3 }) :=
  ⟨⟨⟨by decide, by decide, by decide, by decide, by decide⟩, by decide⟩,
    ⟨periStarts_at _ _ (by decide) (by decide) (by decide), by decide, by decide⟩,
    ⟨periStarts_at _ _ (by decide) (by decide) (by decide), by decide⟩,
    ⟨periStarts_at _ _ (by decide) (by decide) (by decide), by decide⟩,
    ⟨periStarts_at _ _ (by decide) (by decide) (by decide), by decide⟩,
    ⟨periStarts_at _ _ (by decide) (by decide) (by decide), by decide⟩⟩

/-- The name "A" at 300; the modes 'R', 'W' and another; the host's answer yes, then no. -/
theorem witness_TapeLoadAttachesFile :
    let s := { base with answers := [true], mem := controlAnd 5 [8, 300, 82] [(300, 0x41)] }
    PeriStarts s (.r 3) (.imm 120) 120 .tapeLoad ∧
    (readWord s (120 + 1) = .ok 8 ∧ readWord s (120 + 2) = .ok 300 ∧
      readWord s (120 + 3) = .ok 82 ∧ s.tapes[(7 : Fin 8)] = none ∧
      packedChar s 300 0 = .ok 65 ∧ packedChar s 300 1 = .ok 0 ∧ s.answers = [true]) ∧
    (readWord { base with answers := [false], mem := controlAnd 5 [8, 300, 87] [(300, 0x41)] }
        (120 + 3) = .ok 87 ∧ (88 : Word) ≠ 82 ∧ (88 : Word) ≠ 87) :=
  ⟨periStarts_at _ _ (by decide) (by decide) (by decide), by decide, by decide⟩

/-- One byte left; none left. -/
theorem witness_TapeReadDeliversNextBlock :
    (let s := withMem (tapeState .read 1 [72, 73]) (control 7 [1, 0x1FF80])
     PeriStarts s (.r 3) (.imm 120) 120 .tapeRead ∧ readWord s (120 + 1) = .ok 1 ∧
      readWord s (120 + 2) = .ok 0x1FF80 ∧
      s.tapes[(0 : Fin 8)] = some { file := [65], mode := .read, position := 1 } ∧
      (tapeBytes s { file := [65], mode := .read, position := 1 }).length - 1 = 1 ∧
      PlainBuffer s 0x1FF80 128) ∧
    (let s := withMem (tapeState .read 2 [72, 73]) (control 7 [1, 0x1FF80])
     PeriStarts s (.r 3) (.imm 120) 120 .tapeRead ∧
      (tapeBytes s { file := [65], mode := .read, position := 2 }).length - 2 = 0) :=
  ⟨⟨periStarts_at _ _ (by decide) (by decide) (by decide), by decide, by decide, by decide,
      by decide, ⟨by decide, by decide, by decide⟩⟩,
    ⟨periStarts_at _ _ (by decide) (by decide) (by decide), by decide⟩⟩

/-- One byte, and 512, after two that are known. -/
theorem witness_TapeWriteAppendsBytes :
    let s :=
      { tapeState .write 2 [72, 73] with mem := control 8 [1, 0x1FF80, 1], answers := [true] }
    PeriStarts s (.r 3) (.imm 120) 120 .tapeWrite ∧
    (readWord s (120 + 1) = .ok 1 ∧ readWord s (120 + 2) = .ok 0x1FF80 ∧
      readWord s (120 + 3) = .ok 1 ∧
      s.tapes[(0 : Fin 8)] = some { file := [65], mode := .write, position := 2 } ∧
      findFile s.files [65] = some { name := [65], known := [72, 73], unknownTail := none } ∧
      0 < (1 : Word).toNat ∧ (512 : Word).toNat ≤ 512 ∧ s.answers = [true]) ∧
    PlainBuffer s 0x1FF80 (((512 : Word).toNat + 3) / 4) :=
  ⟨periStarts_at _ _ (by decide) (by decide) (by decide), by decide,
    ⟨by decide, by decide, by decide⟩⟩

/-- One character wanted and there; the string in the last word of memory. -/
theorem witness_TermInDeliversCharacters :
    (let s := { base with keyboard := [120], mem := control 9 [1, 0x1FFFF] }
     PeriStarts s (.r 3) (.imm 120) 120 .termInC ∧
      (readWord s (120 + 1) = .ok 1 ∧ readWord s (120 + 2) = .ok 0x1FFFF ∧
        (1 : Word).toNat < 2 ^ 31) ∧
      PlainBuffer s 0x1FFFF (min 1 s.keyboard.length / 4 + 1)) ∧
    (let s := { base with keyboard := [120], mem := control 11 [1, 0x1FFFF] }
     PeriStarts s (.r 3) (.imm 120) 120 .termInW ∧
      PlainBuffer s 0x1FFFF (min 1 s.keyboard.length)) :=
  ⟨⟨periStarts_at _ _ (by decide) (by decide) (by decide), by decide,
      ⟨by decide, by decide, by decide⟩⟩,
    ⟨periStarts_at _ _ (by decide) (by decide) (by decide), ⟨by decide, by decide, by decide⟩⟩⟩

/-- A maximum of 0 with a character waiting, and an empty buffer: of both operations. -/
theorem witness_TermInDeliversCharacters_none :
    (let s := { base with keyboard := [120], mem := control 9 [0, 0x1FFFF] }
     PeriStarts s (.r 3) (.imm 120) 120 .termInC ∧ readWord s (120 + 1) = .ok 0 ∧
      readWord s (120 + 2) = .ok 0x1FFFF ∧ PlainBuffer s 0x1FFFF (min 0 s.keyboard.length / 4 + 1)) ∧
    (let s := { base with keyboard := [], mem := control 9 [1, 0x1FFFF] }
     PeriStarts s (.r 3) (.imm 120) 120 .termInC ∧
      PlainBuffer s 0x1FFFF (min 1 s.keyboard.length / 4 + 1)) ∧
    (let s := { base with keyboard := [120], mem := control 11 [0, 0x1FFFF] }
     PeriStarts s (.r 3) (.imm 120) 120 .termInW ∧ PlainBuffer s 0x1FFFF (min 0 s.keyboard.length)) ∧
    (let s := { base with keyboard := [], mem := control 11 [1, 0x1FFFF] }
     PeriStarts s (.r 3) (.imm 120) 120 .termInW ∧ PlainBuffer s 0x1FFFF (min 1 s.keyboard.length)) :=
  ⟨⟨periStarts_at _ _ (by decide) (by decide) (by decide), by decide, by decide,
      ⟨by decide, by decide, by decide⟩⟩,
    ⟨periStarts_at _ _ (by decide) (by decide) (by decide), ⟨by decide, by decide, by decide⟩⟩,
    ⟨periStarts_at _ _ (by decide) (by decide) (by decide), ⟨by decide, by decide, by decide⟩⟩,
    ⟨periStarts_at _ _ (by decide) (by decide) (by decide), ⟨by decide, by decide, by decide⟩⟩⟩

/-- One character printed by count; one before a zero; the same of an array. -/
theorem witness_TermOutPrintsCharacters :
    (let s := withMem base (controlAnd 10 [1, 300] [(300, 0x48)])
     PeriStarts s (.r 3) (.imm 120) 120 .termOutC ∧
      (readWord s (120 + 1) = .ok 1 ∧ readWord s (120 + 2) = .ok 300 ∧
        packedChar s 300 0 = .ok 72 ∧ 0 < (1 : Word).toInt ∧ packedChar s 300 1 = .ok 0 ∧
        (0 : Byte) ∉ [(72 : Byte)])) ∧
    (let s := withMem base (controlAnd 12 [0, 300] [(300, 0x48)])
     PeriStarts s (.r 3) (.imm 120) 120 .termOutW ∧
      (readWord s (120 + 1) = .ok 0 ∧ wideChar s 300 0 = .ok 72 ∧ wideChar s 300 1 = .ok 0)) :=
  ⟨⟨periStarts_at _ _ (by decide) (by decide) (by decide), by decide⟩,
    ⟨periStarts_at _ _ (by decide) (by decide) (by decide), by decide⟩⟩

theorem witness_ClockReadingsAreHandedOn :
    PeriStarts { base with clock := [⟨12, 0⟩], mem := control 13 [] } (.r 3) (.imm 120) 120
      .seconds ∧
    (let s := { base with clock := [⟨12, 999999⟩], mem := control 14 [] }
     PeriStarts s (.r 3) (.imm 120) 120 .useconds ∧ s.clock = [⟨12, 999999⟩] ∧
      999999 < 1000000 ∧ PlainBuffer s (120 + 1) 2) :=
  ⟨periStarts_at _ _ (by decide) (by decide) (by decide),
    periStarts_at _ _ (by decide) (by decide) (by decide), by decide, by decide,
    ⟨by decide, by decide, by decide⟩⟩

/-- The last time converted, and the first refused. -/
theorem witness_DateTimeWritesParts :
    (let s := withMem base (control 15 [0x7FFFFFFF])
     PeriStarts s (.r 3) (.imm 120) 120 .dateTime ∧ readWord s (120 + 1) = .ok 0x7FFFFFFF ∧
      (0x7FFFFFFF : Word).toNat < 2 ^ 31 ∧ PlainBuffer s (120 + 2) 7) ∧
    (let s := withMem base (control 15 [0x80000000])
     PeriStarts s (.r 3) (.imm 120) 120 .dateTime ∧ readWord s (120 + 1) = .ok 0x80000000 ∧
      2 ^ 31 ≤ (0x80000000 : Word).toNat) :=
  ⟨⟨periStarts_at _ _ (by decide) (by decide) (by decide), by decide, by decide,
      ⟨by decide, by decide, by decide⟩⟩,
    ⟨periStarts_at _ _ (by decide) (by decide) (by decide), by decide, by decide⟩⟩

theorem witness_CivilPartsCountBack : 2 ^ 31 - 1 < 2 ^ 31 := by decide

/-! #### The step -/

/-- A LOAD at PC that completes; a word that is no instruction, and a fetch past memory, each with its
handler. -/
theorem witness_StepRunsDecodedInstruction :
    (let s := stepping user (.load (.r 1) (.imm 5))
     s.flags.r = true ∧ environment s = s ∧ keyboardSignals s = false ∧ s.pc ≠ s.debug ∧
      (∃ w, fetch s = .ok w ∧ decode w = some (.load (.r 1) (.imm 5))) ∧
      ∃ t, exec (.load (.r 1) (.imm 5)) s = .next t ∧ t.pc = 152) ∧
    (fetch user = .ok 0 ∧ decode 0 = none ∧
      ∃ t, takeInterrupt (interruptAt .unimpOp user.pc) user = .next t ∧ t.pc = 330) ∧
    (let s := { user with pc := 0x20000, mem := [(201, .word 300)] }
     fetch s = raised (interruptAt .memory 0x20000) ∧
      ∃ t, takeInterrupt (interruptAt .memory 0x20000) s = .next t ∧ t.pc = 300) :=
  ⟨⟨by decide, by decide, by decide, by decide,
      ⟨encode (.load (.r 1) (.imm 5)), by decide, by decide⟩, nextOf_some (by decide)⟩,
    ⟨by decide, by decide, nextOf_some (by decide)⟩, ⟨by decide, nextOf_some (by decide)⟩⟩

/-- A TIMER of 2; of 1 with IP = 1; of 1 with IP = 0 and a handler; not completed. -/
theorem witness_TimerCountsCompletedInstructions :
    ({ base with retired := true, timer := 2 }.retired = true ∧ base.flags.r = true ∧
      1 < (2 : Word).toNat) ∧ base.flags.ip = true ∧
    (let s := { tight with retired := true, timer := 1, mem := [(207, .word 300)] }
     s.retired = true ∧ s.timer = 1 ∧ s.flags.ip = false ∧
      CanEnter s .timer 300 (frameAddress s)) ∧
    base.retired = false :=
  ⟨by decide, by decide,
    ⟨rfl, rfl, by decide,
      canEnter_at _ _ (by decide) (by decide) (by decide)⟩,
    rfl⟩

theorem witness_KeyboardAndDebugInterruptBeforeFetch :
    (let s := { tight with keyboard := [97], mem := [(209, .word 300)] }
     s.flags.r = true ∧ environment s = s ∧ s.flags.ip = false ∧ s.running = true ∧
      s.keyboard ≠ [] ∧ CanEnter s .keybd 300 (frameAddress s)) ∧
    (let s := { tight with debug := 151, mem := [(212, .word 300)] }
     keyboardSignals s = false ∧ s.pc = s.debug ∧ CanEnter s .debug 300 (frameAddress s)) :=
  ⟨⟨by decide, by decide, by decide, by decide, by decide,
      canEnter_at _ _ (by decide) (by decide) (by decide)⟩,
    ⟨by decide, by decide,
      canEnter_at _ _ (by decide) (by decide) (by decide)⟩⟩

theorem witness_HaltedIsFinal : { base with flags := Flags.ofWord 48 }.flags.r = false := by decide

/-- A RET at 100, over a stack of zeros: a step of a good memory that goes on. -/
theorem witness_StepKeepsMemoryGood :
    MemoryGood { base with pc := 100, mem := [(100, .word 0x44000000)] } ∧
    ∃ t, stepWith decode { base with pc := 100, mem := [(100, .word 0x44000000)] } = .next t ∧
      t.syssp = 1001 :=
  ⟨⟨⟨by simp [Sparse.sorted], by decide⟩, by decide⟩, nextOf_some (by decide)⟩

/-- The same RET with a disc that holds its last word. -/
theorem witness_StepKeepsDiscsGood :
    let s :=
      { base with
        mem := [(200, .word 0x44000000)]
        discs := base.discs.set 0 (some { size := 1, written := [(127, .word 5)] }) }
    DiscsGood s ∧ ∃ t, stepWith decode s = .next t ∧ t.syssp = 1001 := by
  refine ⟨?_, nextOf_some (by decide)⟩
  intro i d hd
  have hi : i = 0 ∨ i ≠ 0 := em _
  rcases hi with rfl | hi
  · have : d = { size := 1, written := [(127, .word 5)] } := (Option.some.inj hd).symm
    subst this
    exact ⟨by simp [Sparse.sorted], by decide⟩
  · have none_elsewhere : ∀ j : Fin 8, j ≠ 0 →
        (base.discs.set 0 (some { size := 1, written := [(127, .word 5)] }))[j] = none := by decide
    exact absurd (hd.symm.trans (none_elsewhere i hi)) (by simp)

theorem witness_UserStepKeepsSystemState :
    user.flags.sys = false ∧
    ∃ t, stepWith decode (stepping user (.load (.r 1) (.imm 5))) = .next t ∧ t.flags.sys = false :=
  ⟨by decide, nextOf_some (by decide)⟩

/-- A user-mode store through a user page. -/
theorem witness_UserStoresReachOnlyUserPages :
    pagedUser.flags.sys = false ∧
    ∃ t, exec (.store .sp (.memAt 0x805)) pagedUser = .next t ∧
      (t.retired, decide (t.mem.read 0xB805 ≠ pagedUser.mem.read 0xB805)) = (true, true) :=
  ⟨by decide, nextOf_some (by decide)⟩

/-- From user mode into system mode by an interrupt, and by a gate. -/
theorem witness_SystemModeOnlyByEntry :
    (user.flags.sys = false ∧
      ∃ t, exec .halt user = .next t ∧ (t.flags.sys, t.retired) = (true, false)) ∧
    ∃ t, exec (.syscall (.imm 3))
      { user with cglen := 4, cgbr := 400, mem := [(403, .word 900)] } = .next t ∧
      (t.flags.sys, t.retired) = (true, true) :=
  ⟨⟨by decide, nextOf_some (by decide)⟩, nextOf_some (by decide)⟩

end Sys2Proof.Tests
end

section
/-! PROOFS of the family 10_state.md: start-up and the disc invariant. -/

namespace Sys2Proof.Machine

/-! ### What every good end of an access, an operation or a step satisfies -/

/-- The state that an access ends in, where it succeeds, satisfies `P`. -/
def OkSatisfies (P : State → Prop) (x : Access State) : Prop := ∀ t, x = .ok t → P t

/-- The state that a PERI operation ends in, where it ends with a result code, satisfies `P`. -/
def DoneSatisfies (P : State → Prop) (r : PeriResult) : Prop := ∀ t code, r = .done t code → P t

section Satisfies

variable {P Q : State → Prop} {α : Type}

@[simp] theorem okSatisfies_ok {t : State} : OkSatisfies P (.ok t) ↔ P t :=
  ⟨fun h => h t rfl, fun h _ ht => Except.ok.inj ht ▸ h⟩

@[simp] theorem okSatisfies_raised (i : Interrupt) : OkSatisfies P (raised i) :=
  fun _ h => by cases h

@[simp] theorem okSatisfies_refused (r : Refusal) : OkSatisfies P (refused r) :=
  fun _ h => by cases h

theorem OkSatisfies.bind {x : Access α} {f : α → Access State} (h : ∀ a, OkSatisfies P (f a)) :
    OkSatisfies P (x.bind f) := fun t ht => by
  obtain ⟨a, -, ha⟩ := bind_eq_ok ht
  exact h a t ha

theorem OkSatisfies.map {x : Access α} {f : α → State} (h : ∀ a, P (f a)) :
    OkSatisfies P (x.map f) := fun t ht => by
  obtain ⟨a, -, rfl⟩ := map_eq_ok ht
  exact h a

theorem OkSatisfies.andThen {x : Access State} {f : State → State} (hx : OkSatisfies Q x)
    (hf : ∀ u, Q u → P (f u)) : OkSatisfies P (x.map f) := fun t ht => by
  obtain ⟨u, hu, rfl⟩ := map_eq_ok ht
  exact hf u (hx u hu)

theorem OkSatisfies.privileged {s : State} {x : Access State} (h : OkSatisfies P x) :
    OkSatisfies P (privileged s x) := by
  cases hs : s.flags.sys
  · rw [privileged_user x hs]; exact okSatisfies_raised _
  · rwa [privileged_system x hs]

@[simp] theorem doneSatisfies_done {t : State} {code : Word} :
    DoneSatisfies P (.done t code) ↔ P t :=
  ⟨fun h => h t code rfl, fun h _ _ ht => (PeriResult.done.inj ht).1 ▸ h⟩

@[simp] theorem doneSatisfies_refused (r : Refusal) : DoneSatisfies P (.refused r) :=
  fun _ _ h => by cases h

@[simp] theorem doneSatisfies_never : DoneSatisfies P .never := fun _ _ h => by cases h

theorem DoneSatisfies.imp {r : PeriResult} (h : DoneSatisfies P r) (hPQ : ∀ t, P t → Q t) :
    DoneSatisfies Q r := fun t code ht => hPQ t (h t code ht)

theorem doneSatisfies_orFail {x : Access α} {failed : PeriResult} {k : α → PeriResult}
    (hf : DoneSatisfies P failed) (hk : ∀ a, x = .ok a → DoneSatisfies P (k a)) :
    DoneSatisfies P (orFail x failed k) := fun t code h => by
  rcases orFail_done h with ⟨a, ha, h⟩ | ⟨-, -, h⟩
  · exact hk a ha t code h
  · exact hf t code h

/-- A transfer into memory touches memory and the counter of free values, whether it succeeds or not. -/
theorem doneSatisfies_deliver {s : State} {a code : Word} {words : List Content}
    {k : State → List Word → PeriResult} (hP : ∀ m d, P { s with mem := m, draws := d })
    (hk : ∀ m ws, DoneSatisfies P (k { s with mem := m } ws)) :
    DoneSatisfies P (deliver s a words code k) := fun t c h => by
  rcases deliver_done h with ⟨u, ws, hu, h⟩ | ⟨ps, rfl, -, -⟩
  · rw [storeAll_frame _ _ _ _ _ hu] at h
    exact hk _ _ t c h
  · rw [scramble_frame]
    exact hP _ _

end Satisfies

/-! ### Invariants of the step -/

/-- A predicate that every part of a step keeps: the environment, an interrupt's entry, the wire
`retired`, the count of the timer, and every instruction. -/
structure StepInvariant (P : State → Prop) : Prop where
  environment : ∀ s, P s → P (environment s)
  entered : ∀ i s t, P s → raise i s = .entered t → P t
  retired : ∀ s b, P s → P { s with retired := b }
  timer : ∀ s v, P s → P { s with timer := v }
  exec : ∀ i s t, P s → exec i s = .next t → P t

namespace StepInvariant

variable {P : State → Prop} (inv : StepInvariant P) {s t : State}
include inv

theorem takeInterrupt {i : Interrupt} (hs : P s) (h : takeInterrupt i s = .next t) : P t := by
  simp only [Machine.takeInterrupt] at h
  split at h <;> cases h
  case h_1 u hu => exact inv.retired u false (inv.entered i s u hs hu)
  case h_2 => exact inv.retired s false hs

theorem runInstruction {dec : Word → Option Instr} (hs : P s)
    (h : runInstruction dec s = .next t) : P t := by
  rcases runInstruction_next h with ⟨i, hi⟩ | ⟨w, i, -, -, hi⟩
  · exact inv.takeInterrupt hs hi
  · exact inv.exec i s t hs hi

theorem countDown (hs : P s) (h : countDown s = .next t) : P t := by
  rcases countDown_next h with rfl | ⟨-, -, -, rfl | hi⟩
  · exact hs
  · exact inv.timer s _ hs
  · exact inv.takeInterrupt (inv.timer s _ hs) hi

/-- What every part of a step keeps, the step keeps, under every decoder. -/
theorem stepWith {dec : Word → Option Instr} (hs : P s) (h : stepWith dec s = .next t) : P t := by
  have he := inv.environment s hs
  rcases stepWith_next h with ⟨-, rfl⟩ | ⟨u, rfl, hu | ⟨v, hv, hu⟩⟩
  · exact hs
  · exact inv.retired u false (inv.entered _ _ u he hu)
  · exact inv.retired u false (inv.countDown (inv.runInstruction he hv) hu)

end StepInvariant

/-! ### Instructions other than PERI leave the devices as they are -/

@[refl] theorem SameDevices.refl (s : State) : SameDevices s s := ⟨rfl, rfl, rfl, rfl, rfl⟩

theorem SameDevices.trans {s t u : State} (h : SameDevices s t) (k : SameDevices t u) :
    SameDevices s u where
  discs := k.discs.trans h.discs
  tapes := k.tapes.trans h.tapes
  keyboard := k.keyboard.trans h.keyboard
  screen := k.screen.trans h.screen
  files := k.files.trans h.files

theorem SameDevices.advance {s t : State} (h : SameDevices s t) : SameDevices s (advance t) :=
  h.trans ⟨rfl, rfl, rfl, rfl, rfl⟩

theorem SameDevices.jump {s t : State} (h : SameDevices s t) (a : Word) :
    SameDevices s (jump t a) := h.trans ⟨rfl, rfl, rfl, rfl, rfl⟩

theorem SameDevices.setReg {s t : State} (h : SameDevices s t) (r : Reg) (v : Word) :
    SameDevices s (setReg t r v) := h.trans ⟨by simp, by simp, by simp, by simp, by simp⟩

theorem sameDevices_setSpecial (s : State) (n : SpecialReg) (v : Word) :
    SameDevices s (setSpecial s n v) := ⟨by simp, by simp, by simp, by simp, by simp⟩

theorem sameDevices_restoreFrame (s : State) (oldFlags : Word) (saved : List Word) :
    SameDevices s (restoreFrame s oldFlags saved) := by
  refine SameDevices.jump (.setReg (.setReg ?_ .sp _) .fp _) _
  exact ⟨rfl, rfl, rfl, rfl, rfl⟩

theorem sameDevices_physWrite (s : State) (p v : Word) :
    OkSatisfies (SameDevices s) (physWrite s p v) := fun t h => by
  obtain ⟨-, rfl⟩ := physPut_ok h
  exact ⟨rfl, rfl, rfl, rfl, rfl⟩

theorem sameDevices_writeWord (s : State) (a v : Word) :
    OkSatisfies (SameDevices s) (writeWord s a v) := .bind fun p => sameDevices_physWrite s p v

theorem sameDevices_assignOperand (s : State) (op : Operand) (v : Word) :
    OkSatisfies (SameDevices s) (assignOperand s op v) := by
  cases op with
  | imm n => exact okSatisfies_raised _
  | reg r => exact .map fun _ => (SameDevices.refl s).setReg r v
  | mem r n => exact sameDevices_writeWord s _ v
  | memAt n => exact sameDevices_writeWord s n v

theorem sameDevices_push (s : State) (v : Word) : OkSatisfies (SameDevices s) (push s v) :=
  (sameDevices_writeWord s _ v).andThen fun _ h => h.setReg .sp _

theorem sameDevices_enterGate (s : State) (index gate : Word) :
    OkSatisfies (SameDevices s) (enterGate s index gate) := by
  simp only [enterGate]
  split
  · exact okSatisfies_refused _
  · exact okSatisfies_raised _
  · next u ws hu =>
    rw [okSatisfies_ok, storeAll_frame _ _ _ _ _ hu]
    exact ⟨rfl, rfl, rfl, rfl, rfl⟩

theorem sameDevices_returnFromInterrupt (s : State) :
    OkSatisfies (SameDevices s) (returnFromInterrupt s) := fun t h => by
  obtain ⟨oldFlags, saved, -, -, -, rfl⟩ := returnFromInterrupt_ok h
  exact sameDevices_restoreFrame s oldFlags saved

theorem sameDevices_raise {i : Interrupt} {s t : State} (h : raise i s = .entered t) :
    SameDevices s t := by
  rw [(raise_entered h).1]
  exact ⟨rfl, rfl, rfl, rfl, rfl⟩

theorem sameDevices_takeInterrupt {i : Interrupt} {s t : State}
    (h : takeInterrupt i s = .next t) : SameDevices s t := by
  rcases takeInterrupt_next h with ⟨-, rfl⟩ | ⟨ht, -, -⟩
  · exact ⟨rfl, rfl, rfl, rfl, rfl⟩
  · rw [ht]; exact ⟨rfl, rfl, rfl, rfl, rfl⟩

theorem sameDevices_finish {s t : State} {x : Access State} (hx : OkSatisfies (SameDevices s) x)
    (h : finish s x = .next t) : SameDevices s t := by
  rcases finish_next h with ⟨u, hu, rfl⟩ | ⟨i, -, hi⟩
  · exact (hx u hu).trans ⟨rfl, rfl, rfl, rfl, rfl⟩
  · exact sameDevices_takeInterrupt hi

/-- Only PERI reaches the devices. -/
theorem sameDevices_exec {i : Instr} {s t : State} (hi : ∀ reg op, i ≠ .peri reg op)
    (h : exec i s = .next t) : SameDevices s t := by
  have written (r : Reg) (v : Word) : SameDevices s (advance (setReg s r v)) :=
    (registerOnly_advance s r v).devices
  cases i with
  | getsr | getfl | sbit | cbit | exbr =>
    exact sameDevices_finish (.bind fun _ => .bind fun _ => .map fun _ => written _ _) h
  | exbrv =>
    exact sameDevices_finish
      (.bind fun _ => .bind fun _ => .bind fun _ => .map fun _ => written _ _) h
  | load => exact sameDevices_finish (.bind fun _ => .map fun _ => written _ _) h
  | phload =>
    exact sameDevices_finish
      (.privileged <| .bind fun _ => .bind fun _ => .map fun _ => written _ _) h
  | setsr =>
    exact sameDevices_finish
      (.privileged <| .bind fun _ => .map fun sr => (sameDevices_setSpecial s sr _).advance) h
  | setfl reg op =>
    refine sameDevices_finish (.bind fun n => .bind fun f => ?_) h
    split
    · exact okSatisfies_raised _
    · exact okSatisfies_ok.mpr ⟨rfl, rfl, rfl, rfl, rfl⟩
  | flagsj =>
    refine sameDevices_finish (.privileged <| .map fun _ => ?_) h
    exact ⟨rfl, rfl, rfl, rfl, rfl⟩
  | comp | compz =>
    refine sameDevices_finish (.map fun _ => ?_) h
    exact ⟨rfl, rfl, rfl, rfl, rfl⟩
  | dpbr =>
    exact sameDevices_finish (.bind fun _ => .bind fun _ =>
      (sameDevices_assignOperand s _ _).andThen fun _ hu => hu.advance) h
  | dpbrv =>
    exact sameDevices_finish (.bind fun _ => .bind fun _ => .bind fun _ =>
      (sameDevices_writeWord s _ _).andThen fun _ hu => hu.advance) h
  | store =>
    exact sameDevices_finish ((sameDevices_assignOperand s _ _).andThen fun _ hu => hu.advance) h
  | inc =>
    exact sameDevices_finish
      (.bind fun _ => (sameDevices_assignOperand s _ _).andThen fun _ hu => hu.advance) h
  | push =>
    exact sameDevices_finish
      (.bind fun _ => (sameDevices_push s _).andThen fun _ hu => hu.advance) h
  | call =>
    exact sameDevices_finish
      (.bind fun target => (sameDevices_push s _).andThen fun _ hu => hu.jump target) h
  | phstore =>
    exact sameDevices_finish (.privileged <| .bind fun p =>
      (sameDevices_physWrite s p _).andThen fun _ hu => hu.advance) h
  | ret =>
    refine sameDevices_finish (fun u hu => ?_) h
    obtain ⟨⟨v, w⟩, hp, rfl⟩ := map_eq_ok hu
    obtain ⟨-, rfl⟩ := pop_ok hp
    exact ((SameDevices.refl s).setReg .sp _).jump v
  | jcond cond op =>
    refine sameDevices_finish ?_ h
    split
    · exact .map fun target => (SameDevices.refl s).jump target
    · exact okSatisfies_ok.mpr (SameDevices.refl s).advance
    · exact okSatisfies_refused _
  | halt =>
    refine sameDevices_finish ?_ h
    split
    · exact okSatisfies_ok.mpr ⟨rfl, rfl, rfl, rfl, rfl⟩
    · exact okSatisfies_raised _
  | syscall op =>
    refine sameDevices_finish (.bind fun index => ?_) h
    split
    · exact okSatisfies_raised _
    · exact .bind fun gate => sameDevices_enterGate s index gate
  | iret => exact sameDevices_finish (.privileged (sameDevices_returnFromInterrupt s)) h
  | peri reg op => exact absurd rfl (hi reg op)

/-! ### PERI operations other than $DISCWRITE leave the discs as they are -/

/-- An operation that ends with the drives of `s`. -/
abbrev KeepsDiscs (s : State) : PeriResult → Prop := DoneSatisfies fun t => t.discs = s.discs

theorem storeAll_discs {xs : List (Word × Content)} {s t : State} {ws us : List Word}
    (h : storeAll s ws xs = .done t us) : t.discs = s.discs := by
  rw [storeAll_frame xs s t ws us h]

@[simp] theorem scramble_discs (s : State) (ps : List Word) : (scramble s ps).discs = s.discs := by
  rw [scramble_frame]

@[simp] theorem hostAnswer_discs (s : State) : (hostAnswer s).2.discs = s.discs := by
  rw [hostAnswer_frame]

@[simp] theorem readClock_discs (s : State) : (readClock s).2.discs = s.discs := by
  rw [readClock_frame]

@[simp] theorem scrambleRest_discs (s : State) (m : Word) (n : Nat) (ws : List Word) :
    (scrambleRest s m n ws).discs = s.discs := scramble_discs s _

@[simp] theorem spoilTape_discs (s : State) (u : Fin 8) (tape : Tape) (c : Nat) :
    (spoilTape s u tape c).discs = s.discs := rfl

theorem tapeLoad_discs (s : State) (cs : Word) : KeepsDiscs s (tapeLoad s cs) := by
  refine doneSatisfies_orFail (by simp) fun ⟨u, p, mode⟩ _ => ?_
  dsimp only
  split
  · simp
  split
  · simp
  split
  · simp only [loadTape]
    split
    · simp
    split <;> simp
  · simp
  · simp
  · simp

theorem tapeRead_discs (s : State) (cs : Word) : KeepsDiscs s (tapeRead s cs) := by
  refine doneSatisfies_orFail (by simp) fun ⟨u, m⟩ _ => ?_
  dsimp only
  split
  · simp
  split
  · simp
  split
  · simp
  · simp [strandTape]
  · next hu => simp [storeAll_discs hu]

theorem tapeWrite_discs (s : State) (cs : Word) : KeepsDiscs s (tapeWrite s cs) := by
  refine doneSatisfies_orFail (by simp) fun ⟨u, m, c⟩ _ => ?_
  dsimp only
  split
  · simp
  split
  · simp
  split
  · simp
  split
  · simp
  · simp
  · simp
  split
  · simp [updateFile]
  · simp

theorem termIn_discs (s : State) (cs : Word) (layout : List Byte → List Word) :
    KeepsDiscs s (termIn s cs layout) := by
  refine doneSatisfies_orFail (by simp) fun ⟨most, m⟩ _ => ?_
  dsimp only
  split
  · simp
  split
  · simp
  · simp [takeSomeKeys]
  · next hu => simp [storeAll_discs hu]

theorem termOut_discs (s : State) (cs : Word) (char : Word → Nat → Access Byte) :
    KeepsDiscs s (termOut s cs char) := by
  refine doneSatisfies_orFail (by simp) fun ⟨n, m⟩ _ => ?_
  dsimp only
  split
  · simp
  split
  · split <;> simp
  · split <;> simp [printSome]

theorem discRead_discs (s : State) (cs : Word) : KeepsDiscs s (discRead s cs) := by
  refine doneSatisfies_orFail (by simp) fun ⟨d, b, n, m⟩ _ => ?_
  dsimp only
  split
  · simp
  split
  · simp
  split
  · simp
  · exact doneSatisfies_deliver (fun _ _ => rfl) (by simp)

theorem useconds_discs (s : State) (cs : Word) : KeepsDiscs s (useconds s cs) :=
  doneSatisfies_deliver (fun _ _ => readClock_discs s)
    fun _ _ => doneSatisfies_done.mpr (readClock_discs s)

theorem dateTime_discs (s : State) (cs : Word) : KeepsDiscs s (dateTime s cs) := by
  refine doneSatisfies_orFail (by simp) fun time _ => ?_
  split
  · simp
  · exact doneSatisfies_deliver (fun _ _ => rfl) (by simp [doneNonNegative])

theorem runPeri_discs (s : State) (cs : Word) {op : PeriOp} (hop : op ≠ .discWrite) :
    KeepsDiscs s (runPeri s cs op) := by
  cases op with
  | discCheck =>
    refine doneSatisfies_orFail (by simp) fun d _ => ?_
    split
    · simp
    split <;> simp
  | tapeCheck =>
    refine doneSatisfies_orFail (by simp) fun u _ => ?_
    split
    · simp
    split <;> simp
  | tapeRewind =>
    refine doneSatisfies_orFail (by simp) fun u _ => ?_
    split
    · simp
    split
    · simp
    split <;> simp
  | tapeUnload =>
    refine doneSatisfies_orFail (by simp) fun u _ => ?_
    split
    · simp
    split <;> simp
  | discRead => exact discRead_discs s cs
  | discWrite => exact absurd rfl hop
  | tapeLoad => exact tapeLoad_discs s cs
  | tapeRead => exact tapeRead_discs s cs
  | tapeWrite => exact tapeWrite_discs s cs
  | termInC => exact termIn_discs s cs _
  | termInW => exact termIn_discs s cs _
  | termOutC => exact termOut_discs s cs _
  | termOutW => exact termOut_discs s cs _
  | seconds => exact doneSatisfies_done.mpr (readClock_discs s)
  | useconds => exact useconds_discs s cs
  | dateTime => exact dateTime_discs s cs

/-! ### $DISCWRITE keeps every drive good -/

/-- A drive that lists words of its own blocks, in order. -/
structure Disc.Good (disc : Disc) : Prop where
  sorted : Sparse.sorted disc.written
  inside : ∀ c ∈ disc.written, c.1 < 128 * disc.size

theorem discsGood_iff {s : State} :
    DiscsGood s ↔ ∀ (i : Fin 8) (disc : Disc), s.discs[i] = some disc → disc.Good :=
  forall₃_congr fun _ _ _ => ⟨fun h => ⟨h.1, h.2⟩, fun h => ⟨h.sorted, h.inside⟩⟩

theorem DiscsGood.of_discs_eq {s t : State} (hs : DiscsGood s) (h : t.discs = s.discs) :
    DiscsGood t := by
  intro i disc hd
  exact hs i disc (h ▸ hd)

theorem DiscsGood.setDisc {s : State} (hs : DiscsGood s) (drive : Fin 8) {disc : Disc}
    (hd : disc.Good) : DiscsGood (setDisc s drive disc) := by
  refine discsGood_iff.mpr fun i d hi => ?_
  simp only [setDisc_discs, Fin.getElem_fin, Vector.getElem_set] at hi
  split at hi
  · exact Option.some.inj hi ▸ hd
  · exact discsGood_iff.mp hs i d hi

theorem DiscsGood.driveOf {s : State} (hs : DiscsGood s) {d : Word} {drive : Fin 8} {disc : Disc}
    (h : driveOf s d = some (drive, disc)) : disc.Good := by
  simp only [Machine.driveOf] at h
  split at h
  · cases h
  · next i _ =>
    obtain ⟨x, hx, he⟩ := Option.map_eq_some_iff.mp h
    cases he
    exact discsGood_iff.mp hs _ _ hx

theorem Disc.Good.writeDiscWords {disc : Disc} (h : disc.Good) {k : Nat} {ws : List Content}
    (hk : k + ws.length ≤ 128 * disc.size) : (writeDiscWords disc k ws).Good where
  sorted := writeDiscWords_sorted ws disc k h.sorted
  inside c hc := by
    rw [writeDiscWords_size]
    rcases writeDiscWords_mem ws disc k hc with ⟨-, hlt⟩ | hc
    · omega
    · exact h.inside c hc

theorem signed_eq_toNat {w : Word} (h : ¬ signed w < 0) : signed w = w.toNat := by
  have hw := w.isLt
  rw [signed, BitVec.toInt_eq_toNat_cond] at h ⊢
  split at h <;> split <;> omega

/-- Blocks that do not lie outside the disc end at its last word. -/
theorem words_le_of_not_blocksOutside {disc : Disc} {b n : Word} (hn : ¬ signed n < 0)
    (hz : n ≠ 0) (h : ¬ blocksOutside disc b n = true) :
    128 * b.toNat + 128 * n.toNat ≤ 128 * disc.size := by
  have hpos : n.toNat ≠ 0 := fun e => hz (BitVec.eq_of_toNat_eq e)
  have hcount := signed_eq_toNat hn
  simp only [blocksOutside, Bool.and_eq_true, Bool.or_eq_true, decide_eq_true_eq] at h
  have hfirst : signed b = b.toNat := signed_eq_toNat fun hb => h ⟨by omega, .inl hb⟩
  omega

theorem readRun_length {s : State} {a : Word} {n : Nat} {ws : List Word}
    (h : readRun s a n = .ok ws) : ws.length = n := by
  induction n generalizing a ws with
  | zero => cases h; rfl
  | succ n ih =>
    obtain ⟨w, -, h⟩ := bind_eq_ok h
    obtain ⟨rest, hr, rfl⟩ := map_eq_ok h
    simp [ih hr]

theorem DiscsGood.scrambleBlocks {s : State} (hs : DiscsGood s) (drive : Fin 8) {disc : Disc}
    {b n : Word} (hd : disc.Good) (h : 128 * b.toNat + 128 * n.toNat ≤ 128 * disc.size) :
    DiscsGood (scrambleBlocks s drive disc b n) :=
  (hs.setDisc drive (hd.writeDiscWords (by simpa [freeContents] using h))).of_discs_eq rfl

theorem DiscsGood.discWrite {s : State} (hs : DiscsGood s) (cs : Word) :
    DoneSatisfies DiscsGood (discWrite s cs) := by
  refine doneSatisfies_orFail (doneSatisfies_done.mpr hs) fun ⟨d, b, n, m⟩ _ => ?_
  dsimp only
  split
  · exact doneSatisfies_done.mpr hs
  next drive disc hdrive =>
  split
  · exact doneSatisfies_refused _
  next hn =>
  split
  · exact doneSatisfies_done.mpr hs
  next hout =>
  split
  · exact doneSatisfies_done.mpr hs
  next hz =>
  have hd : disc.Good := hs.driveOf hdrive
  have hroom : 128 * b.toNat + 128 * n.toNat ≤ 128 * disc.size :=
    words_le_of_not_blocksOutside hn hz hout
  refine doneSatisfies_orFail (doneSatisfies_done.mpr (hs.scrambleBlocks drive hd hroom))
    fun words hw => ?_
  have ha : DiscsGood (hostAnswer s).2 := hs.of_discs_eq (hostAnswer_discs s)
  split
  · refine doneSatisfies_done.mpr (ha.setDisc drive (hd.writeDiscWords ?_))
    rw [List.length_map, readRun_length hw]
    exact hroom
  · exact doneSatisfies_done.mpr (ha.scrambleBlocks drive hd hroom)

/-! ### The disc invariant -/

theorem DiscsGood.operation {s : State} (hs : DiscsGood s) (cs : Word) :
    DoneSatisfies DiscsGood (operation s cs) := by
  refine doneSatisfies_orFail (doneSatisfies_done.mpr hs) fun code _ => ?_
  split
  · exact doneSatisfies_done.mpr hs
  next op _ =>
  by_cases hop : op = .discWrite
  · subst hop
    exact hs.discWrite cs
  · exact (runPeri_discs s cs hop).imp fun _ ht => hs.of_discs_eq ht

theorem DiscsGood.execPeri {s t : State} (hs : DiscsGood s) {reg : Reg} {op : Operand}
    (h : execPeri reg op s = .next t) : DiscsGood t := by
  have interrupted {i : Interrupt} (h : takeInterrupt i s = .next t) : DiscsGood t :=
    hs.of_discs_eq (sameDevices_takeInterrupt h).discs
  simp only [Machine.execPeri] at h
  split at h
  · split at h
    · exact interrupted h
    · cases h
    next cs _ =>
    split at h
    · next u code hu =>
      cases h
      exact (hs.operation cs u code hu).of_discs_eq (by simp [reportResult])
    · cases h
    · cases h
  · exact interrupted h

theorem discsGood_stepInvariant : StepInvariant DiscsGood where
  environment s hs := hs.of_discs_eq (by rw [environment_frame])
  entered _ _ _ hs h := hs.of_discs_eq (sameDevices_raise h).discs
  retired _ _ hs := hs
  timer _ _ hs := hs
  exec i s t hs h := by
    by_cases hi : ∀ reg op, i ≠ .peri reg op
    · exact hs.of_discs_eq (sameDevices_exec hi h).discs
    · push Not at hi
      obtain ⟨reg, op, rfl⟩ := hi
      exact hs.execPeri h

/-- Settles O57: only $DISCWRITE changes a drive, and it writes inside the drive's blocks. -/
theorem stepKeepsDiscsGood : Obligations.StepKeepsDiscsGood :=
  fun _ _ _ hs h => discsGood_stepInvariant.stepWith hs h

/-! ### Start-up -/

theorem reset_memoryGood : MemoryGood State.reset where
  canonical := reset_memory_wf
  present := by simp [State.reset]

theorem reset_discsGood : DiscsGood State.reset := by
  intro i disc hd
  simp [State.reset] at hd

/-- Settles O2: nothing is listed and no drive is configured at start-up. -/
theorem startUpIsGood : Obligations.StartUpIsGood := ⟨reset_memoryGood, reset_discsGood⟩

end Sys2Proof.Machine
end

section
/-! PROOFS of the family 20_memory.md: the translation and the access behind it, and the memory invariant. -/

namespace Sys2Proof.Machine

/-! ### The fields of addresses and entries, in arithmetic -/

/-- A mask of the high bits clears the low ones. -/
theorem toNat_and_shiftLeft_allOnes (w : Word) (k : Nat) :
    (w &&& (BitVec.allOnes 32 <<< k)).toNat = w.toNat / 2 ^ k * 2 ^ k := by
  have hshift : w &&& (BitVec.allOnes 32 <<< k) = (w >>> k) <<< k := by
    ext i hi
    by_cases h : i < k
    · simp [h]
    · simp [h, Nat.add_sub_cancel' (not_lt.mp h), BitVec.getLsbD_eq_getElem hi,
        BitVec.getElem_allOnes, -BitVec.reduceAllOnes]
  rw [hshift, BitVec.toNat_shiftLeft, BitVec.toNat_ushiftRight, Nat.shiftRight_eq_div_pow,
    Nat.shiftLeft_eq, Nat.mod_eq_of_lt (lt_of_le_of_lt (Nat.div_mul_le_self _ _) w.isLt)]

theorem pageOffset_toNat (a : Word) : (pageOffset a).toNat = a.toNat % 2048 :=
  Nat.and_two_pow_sub_one_eq_mod a.toNat 11

theorem pageNumber_toNat (a : Word) : (pageNumber a).toNat = a.toNat / 2 ^ 11 % 2048 := by
  rw [← Nat.shiftRight_eq_div_pow]
  exact Nat.and_two_pow_sub_one_eq_mod (a.toNat >>> 11) 11

theorem pageTableNumber_toNat (a : Word) : (pageTableNumber a).toNat = a.toNat / 2 ^ 22 := by
  have hmask : (pageTableNumber a).toNat = (a.toNat >>> 22) % 2 ^ 10 :=
    Nat.and_two_pow_sub_one_eq_mod (a.toNat >>> 22) 10
  rw [hmask, Nat.shiftRight_eq_div_pow]
  have := a.isLt
  omega

theorem pageTableNumber_eq (a : Word) :
    pageTableNumber a = BitVec.ofNat 32 (a.toNat / 2 ^ 22) := by
  rw [← pageTableNumber_toNat, BitVec.ofNat_toNat, BitVec.setWidth_eq]

theorem frameOf_toNat (entry : Word) : (frameOf entry).toNat = entry.toNat / 2048 * 2048 :=
  toNat_and_shiftLeft_allOnes entry 11

theorem frameOf_add (entry x : Word) :
    frameOf entry + x = BitVec.ofNat 32 (entry.toNat / 2048 * 2048 + x.toNat) := by
  rw [BitVec.ofNat_add, ← frameOf_toNat]
  simp

theorem and_1023_eq_zero_iff (w : Word) : w &&& 0x3FF = 0 ↔ w.toNat % 1024 = 0 := by
  rw [← BitVec.toNat_inj]
  exact iff_of_eq (congrArg (· = 0) (Nat.and_two_pow_sub_one_eq_mod w.toNat 10))

/-- An aligned page directory is its own base. -/
theorem directoryBase_of_aligned {w : Word} (h : w.toNat % 1024 = 0) : w &&& 0xFFFFFC00 = w := by
  have hbase : (w &&& 0xFFFFFC00).toNat = w.toNat / 1024 * 1024 :=
    toNat_and_shiftLeft_allOnes w 10
  apply BitVec.eq_of_toNat_eq
  omega

/-- 20_memory.md R48: the Resident bit of an entry. -/
theorem residentBit_iff (entry : Word) : entry.getLsbD 0 = true ↔ entry.toNat % 2 = 1 := by
  rw [BitVec.getLsbD, Nat.testBit_zero, decide_eq_true_iff]

/-- 20_memory.md R48: the System bit of an entry. -/
theorem systemBit_iff (entry : Word) : entry.getLsbD 1 = true ↔ entry.toNat / 2 % 2 = 1 := by
  rw [BitVec.getLsbD, Nat.testBit_succ, Nat.testBit_zero, decide_eq_true_iff]

/-! ### The walk and its faults -/

section Translation

variable {s : State} {a : Word}

theorem physRead_absent {p : Word} (h : present s p = false) :
    physRead s p = raised (interruptAt .memory p) := by simp [physRead, h]

theorem physPut_absent {p : Word} (c : Content) (h : present s p = false) :
    physPut s p c = raised (interruptAt .memory p) := by simp [physPut, h]

/-- 20_memory.md R46, D29: with VM = 1 the page directory must be aligned. -/
theorem translate_misaligned (hvm : s.flags.vm = true) (h : s.pdbr.toNat % 1024 ≠ 0) :
    translate s a = refused (.pageDirectoryMisaligned s.pdbr) := by
  have hmask : s.pdbr &&& 0x3FF ≠ 0 := mt (and_1023_eq_zero_iff _).mp h
  simp only [translate, hvm, if_pos hmask, Bool.true_eq_false, if_false]

/-- 20_memory.md R49: the two reads of the walk, at their addresses in arithmetic. -/
theorem translate_walk (hvm : s.flags.vm = true) (h : s.pdbr.toNat % 1024 = 0) :
    translate s a =
      (physRead s (s.pdbr + BitVec.ofNat 32 (a.toNat / 2 ^ 22))).bind fun table =>
        if table = 0 then raised (interruptAt .pageFault a)
        else
          (physRead s (BitVec.ofNat 32
            (table.toNat / 2048 * 2048 + a.toNat / 2 ^ 11 % 2048))).bind (translateEntry s a) := by
  have hmask : ¬ s.pdbr &&& 0x3FF ≠ 0 := not_not.mpr ((and_1023_eq_zero_iff _).mpr h)
  simp only [translate, hvm, if_neg hmask, Bool.true_eq_false, if_false,
    directoryBase_of_aligned h, pageTableNumber_eq, frameOf_add, pageNumber_toNat]

theorem translateEntry_notResident {entry : Word} (h : entry.toNat % 2 = 0) :
    translateEntry s a entry = raised (interruptAt .pageFault a) := by
  have hresident : entry.getLsbD 0 = false := by
    rw [← Bool.not_eq_true, residentBit_iff]; omega
  rw [translateEntry, if_pos hresident]

theorem translateEntry_systemPage {entry : Word} (h : entry.toNat % 4 = 3)
    (hsys : s.flags.sys = false) :
    translateEntry s a entry = raised (interruptAt .pagePriv a) := by
  have hresident : entry.getLsbD 0 = true := (residentBit_iff entry).mpr (by omega)
  have hsystem : entry.getLsbD 1 = true := (systemBit_iff entry).mpr (by omega)
  simp only [translateEntry, hresident, hsystem, hsys, Bool.true_eq_false, Bool.not_false,
    Bool.and_self, if_false, if_true]

theorem translateEntry_resident {entry : Word} (h : entry.toNat % 2 = 1)
    (hallowed : entry.toNat % 4 = 1 ∨ s.flags.sys = true) :
    translateEntry s a entry =
      .ok (BitVec.ofNat 32 (entry.toNat / 2048 * 2048 + a.toNat % 2048)) := by
  have hresident : entry.getLsbD 0 = true := (residentBit_iff entry).mpr h
  have hpriv : (entry.getLsbD 1 && !s.flags.sys) = false := by
    rcases hallowed with huser | hsys
    · have huser : entry.getLsbD 1 = false := by
        rw [← Bool.not_eq_true, systemBit_iff]; omega
      rw [huser, Bool.false_and]
    · rw [hsys, Bool.not_true, Bool.and_false]
  simp only [translateEntry, hresident, hpriv, Bool.true_eq_false, Bool.false_eq_true, if_false,
    frameOf_add, pageOffset_toNat]

/-- The page-table entry decides, once the walk has reached it. -/
theorem translate_of_entry {pos slot : Word} (hvm : s.flags.vm = true)
    (h : s.pdbr.toNat % 1024 = 0) (hpos : pos = s.pdbr + BitVec.ofNat 32 (a.toNat / 2 ^ 22))
    (hp : present s pos = true) (hz : s.mem.read pos ≠ 0)
    (hslot : slot = BitVec.ofNat 32
      ((s.mem.read pos).toNat / 2048 * 2048 + a.toNat / 2 ^ 11 % 2048)) :
    translate s a = (physRead s slot).bind (translateEntry s a) := by
  subst hpos hslot
  rw [translate_walk hvm h, physRead_present hp, bind_ok, if_neg hz]

/-! ### The access behind a translation -/

theorem readWord_raised {i : Interrupt} (h : translate s a = raised i) :
    readWord s a = raised i := by rw [readWord, h, bind_raised]

theorem writeWord_raised {i : Interrupt} (v : Word) (h : translate s a = raised i) :
    writeWord s a v = raised i := by rw [writeWord, h, bind_raised]

theorem readWord_of_translate {p : Word} (h : translate s a = .ok p) :
    readWord s a = physRead s p := by rw [readWord, h, bind_ok]

theorem writeWord_of_translate {p : Word} (v : Word) (h : translate s a = .ok p) :
    writeWord s a v = physWrite s p v := by rw [writeWord, h, bind_ok]

/-- The frame of a store: one word of memory. -/
theorem wordOnly_put (s : State) (p : Word) (c : Content) :
    WordOnly s { s with mem := s.mem.put p c } p where
  flags := rfl
  registers := ⟨rfl, rfl, rfl, rfl, rfl⟩
  specials := ⟨rfl, rfl, rfl, rfl, rfl, rfl⟩
  memory _ hq := Memory.read_put_other _ _ hq
  devices := ⟨rfl, rfl, rfl, rfl, rfl⟩
  host := ⟨rfl, rfl, rfl, rfl, rfl⟩

theorem writeWord_wordOnly {p : Word} (v : Word) (ha : translate s a = .ok p)
    (hp : present s p = true) :
    ∃ t, writeWord s a v = .ok t ∧ t.mem.read p = v ∧ WordOnly s t p :=
  ⟨_, writeWord_present v ha hp, Memory.read_put_same _ _ _, wordOnly_put s p _⟩

end Translation

/-- Settles O6: the walk in arithmetic, then the entry's three outcomes, then the word itself. -/
theorem translationWalk : Obligations.TranslationWalk := by
  intro s a
  refine ⟨translate_of_vm_off a, translate_misaligned, fun hvm hal => ⟨?_, ?_, ?_⟩, ?_, ?_⟩
  · intro hp
    rw [translate_walk hvm hal, physRead_absent hp, bind_raised]
  · intro hp hz
    rw [translate_walk hvm hal, physRead_present hp, bind_ok, if_pos hz]
  · intro hp hz
    have hentry := translate_of_entry (a := a) hvm hal rfl hp hz rfl
    refine ⟨fun hslot => ?_, fun hslot => ?_⟩
    · rw [hentry, physRead_absent hslot, bind_raised]
    · rw [hentry, physRead_present hslot, bind_ok]
      exact ⟨translateEntry_notResident, translateEntry_systemPage, translateEntry_resident⟩
  · intro p v ha
    refine ⟨fun hp => ⟨?_, writeWord_wordOnly v ha hp⟩, fun hp => ⟨?_, ?_⟩⟩
    · rw [readWord_of_translate ha, physRead_present hp]
    · rw [readWord_of_translate ha, physRead_absent hp]
    · rw [writeWord_of_translate v ha]
      exact physPut_absent _ hp
  · exact fun i v h => ⟨readWord_raised h, writeWord_raised v h⟩

/-! ### A translation has no memory of earlier ones -/

theorem present_congr {s t : State} (hsize : t.params.physWords = s.params.physWords) :
    present t = present s := by
  funext p
  rw [present, present, hsize]

theorem physRead_congr {s t : State} (hsize : t.params.physWords = s.params.physWords)
    (hmem : SameMemory s t) : physRead t = physRead s := by
  funext p
  rw [physRead, physRead, present_congr hsize, hmem p]

theorem translateEntry_congr {s t : State} (hsys : t.flags.sys = s.flags.sys) :
    translateEntry t = translateEntry s := by
  funext a entry
  simp only [translateEntry, hsys]

/-- Settles O7: of the state, `translate` reads VM, PDBR, two words of memory and, with the entry, SYS. -/
theorem translationHasNoMemory : Obligations.TranslationHasNoMemory := by
  intro s t a hvm hsys hpdbr hsize hmem
  simp only [translate, hvm, hpdbr, physRead_congr hsize hmem, translateEntry_congr hsys]

/-! ### The memory invariant under the operations over memory -/

/-- The invariant speaks of memory and its size only. -/
theorem MemoryGood.of_eq {s t : State} (hs : MemoryGood s) (hmem : t.mem = s.mem)
    (hparams : t.params = s.params) : MemoryGood t where
  canonical := by rw [hmem]; exact hs.canonical
  present := by rw [hmem, hparams]; exact hs.present

section MemoryGood

variable {s t : State} (hs : MemoryGood s)
include hs

theorem MemoryGood.put {p : Word} (c : Content) (hp : Machine.present s p = true) :
    MemoryGood { s with mem := s.mem.put p c } where
  canonical := Memory.wf_put p c hs.canonical
  present e he := by
    rcases Memory.mem_put he with heq | he
    · rw [heq]; exact of_decide_eq_true hp
    · exact hs.present e he

theorem MemoryGood.physPut {p : Word} {c : Content} (h : physPut s p c = .ok t) :
    MemoryGood t := by
  obtain ⟨hp, rfl⟩ := physPut_ok h
  exact hs.put c hp

theorem MemoryGood.physWrite (p v : Word) : OkSatisfies MemoryGood (physWrite s p v) :=
  fun _ h => hs.physPut h

theorem MemoryGood.writeWord (a v : Word) : OkSatisfies MemoryGood (writeWord s a v) :=
  .bind fun p => hs.physWrite p v

theorem MemoryGood.scramble {ps : List Word} (hps : ∀ p ∈ ps, Machine.present s p = true) :
    MemoryGood (scramble s ps) where
  canonical := scramble_wf ps s hs.canonical
  present e he := by
    rw [scramble_frame]
    rcases scramble_mem ps s he with ⟨p, hp, heq⟩ | he
    · rw [heq]; exact of_decide_eq_true (hps p hp)
    · exact hs.present e he

theorem MemoryGood.storeAll {xs : List (Word × Content)} {ws us : List Word}
    (h : storeAll s ws xs = .done t us) : MemoryGood t := by
  induction xs generalizing s ws with
  | nil => cases h; exact hs
  | cons x rest ih =>
    simp only [Machine.storeAll] at h
    split at h <;> try cases h
    split at h <;> try cases h
    next hput => exact ih (hs.physPut hput) h

/-- What a failed transfer leaves: free values in the words it could have written. -/
theorem MemoryGood.abandoned {xs : List (Word × Content)} {i : Interrupt} {ws : List Word}
    (addrs : List Word) (h : Machine.storeAll s [] xs = .failed i ws) :
    MemoryGood (Machine.scramble s (reachable s addrs ++ ws)) := by
  refine hs.scramble fun p hp => ?_
  rcases List.mem_append.mp hp with hp | hp
  · exact reachable_present s addrs p hp
  · exact storeAll_failed_present xs s i [] ws (by simp) h p hp

/-! ### The memory invariant under an interrupt -/

theorem MemoryGood.entered {c : IntCode} {addr info : Content}
    (h : enter c addr info s = .entered t) : MemoryGood t := by
  obtain ⟨handler, u, ws, -, -, hu, rfl⟩ := enter_entered h
  have hview : MemoryGood (systemView s true) := hs.of_eq rfl rfl
  exact (hview.storeAll hu).of_eq rfl (by rw [storeAll_frame _ _ _ _ _ hu])

theorem MemoryGood.entryAbandoned {c : IntCode} {addr info : Content}
    (h : enter c addr info s = .invalid t) : MemoryGood t := by
  obtain ⟨ws, rfl, hws⟩ := enter_invalid h
  exact hs.scramble hws

theorem MemoryGood.failEntry {c : IntCode} {addr : Content}
    (h : failEntry c addr s = .entered t) : MemoryGood t := by
  simp only [Machine.failEntry] at h
  split at h <;> cases h
  next he => exact hs.entered he

theorem MemoryGood.raise {i : Interrupt} (h : raise i s = .entered t) : MemoryGood t := by
  have hdrawn : MemoryGood { s with draws := s.draws + 2 } := hs.of_eq rfl rfl
  simp only [Machine.raise] at h
  split at h
  · split at h
    · cases h
    · exact hdrawn.failEntry h
  · split at h
    · next he => cases h; exact hdrawn.entered he
    · split at h <;> cases h
    · next he => exact (hdrawn.entryAbandoned he).failEntry h
    · cases h

theorem MemoryGood.takeInterrupt {i : Interrupt} (h : takeInterrupt i s = .next t) :
    MemoryGood t := by
  simp only [Machine.takeInterrupt] at h
  split at h <;> cases h
  · next hu => exact (hs.raise hu).of_eq rfl rfl
  · exact hs.of_eq rfl rfl

theorem MemoryGood.finish {x : Access State} (hx : OkSatisfies MemoryGood x)
    (h : finish s x = .next t) : MemoryGood t := by
  rcases finish_next h with ⟨u, hu, rfl⟩ | ⟨i, -, hi⟩
  · exact (hx u hu).of_eq rfl rfl
  · exact hs.takeInterrupt hi

/-! ### The memory invariant under the instructions other than PERI -/

theorem MemoryGood.advance : MemoryGood (advance s) := hs.of_eq rfl rfl

theorem MemoryGood.jump (a : Word) : MemoryGood (jump s a) := hs.of_eq rfl rfl

theorem MemoryGood.setReg (r : Reg) (v : Word) : MemoryGood (setReg s r v) :=
  hs.of_eq (by simp) (by simp)

theorem MemoryGood.setSpecial (n : SpecialReg) (v : Word) : MemoryGood (setSpecial s n v) :=
  hs.of_eq (by simp) (by simp)

theorem MemoryGood.restoreFrame (oldFlags : Word) (saved : List Word) :
    MemoryGood (restoreFrame s oldFlags saved) := by
  refine MemoryGood.jump (.setReg (.setReg ?_ .sp _) .fp _) _
  exact hs.of_eq rfl rfl

theorem MemoryGood.returnFromInterrupt :
    OkSatisfies MemoryGood (returnFromInterrupt s) := fun t h => by
  obtain ⟨oldFlags, saved, -, -, -, rfl⟩ := returnFromInterrupt_ok h
  exact hs.restoreFrame oldFlags saved

theorem MemoryGood.assignOperand (op : Operand) (v : Word) :
    OkSatisfies MemoryGood (assignOperand s op v) := by
  cases op with
  | imm n => exact okSatisfies_raised _
  | reg r => exact .map fun _ => hs.setReg r v
  | mem r n => exact hs.writeWord _ v
  | memAt n => exact hs.writeWord n v

theorem MemoryGood.push (v : Word) : OkSatisfies MemoryGood (push s v) :=
  (hs.writeWord _ v).andThen fun _ hu => hu.setReg .sp _

theorem MemoryGood.enterGate (index gate : Word) :
    OkSatisfies MemoryGood (enterGate s index gate) := by
  simp only [Machine.enterGate]
  split
  · exact okSatisfies_refused _
  · exact okSatisfies_raised _
  · next u ws hu =>
    have hview : MemoryGood (systemView s s.params.syscallSetsIP) := hs.of_eq rfl rfl
    exact okSatisfies_ok.mpr ((hview.storeAll hu).of_eq rfl rfl)

/-- Every store of an instruction other than PERI is to a word that exists. -/
theorem MemoryGood.exec {i : Instr} (hi : ∀ reg op, i ≠ .peri reg op)
    (h : exec i s = .next t) : MemoryGood t := by
  have written (r : Reg) (v : Word) : MemoryGood (Machine.advance (Machine.setReg s r v)) :=
    (hs.setReg r v).advance
  cases i with
  | getsr | getfl | sbit | cbit | exbr =>
    exact hs.finish (.bind fun _ => .bind fun _ => .map fun _ => written _ _) h
  | exbrv =>
    exact hs.finish (.bind fun _ => .bind fun _ => .bind fun _ => .map fun _ => written _ _) h
  | load => exact hs.finish (.bind fun _ => .map fun _ => written _ _) h
  | phload =>
    exact hs.finish (.privileged <| .bind fun _ => .bind fun _ => .map fun _ => written _ _) h
  | setsr =>
    exact hs.finish (.privileged <| .bind fun _ => .map fun sr => (hs.setSpecial sr _).advance) h
  | setfl =>
    refine hs.finish (.bind fun n => .bind fun f => ?_) h
    split
    · exact okSatisfies_raised _
    · exact okSatisfies_ok.mpr (hs.of_eq rfl rfl)
  | flagsj =>
    refine hs.finish (.privileged <| .map fun _ => ?_) h
    exact hs.of_eq rfl rfl
  | comp | compz =>
    refine hs.finish (.map fun _ => ?_) h
    exact hs.of_eq rfl rfl
  | dpbr =>
    exact hs.finish (.bind fun _ => .bind fun _ =>
      (hs.assignOperand _ _).andThen fun _ hu => hu.advance) h
  | dpbrv =>
    exact hs.finish (.bind fun _ => .bind fun _ => .bind fun _ =>
      (hs.writeWord _ _).andThen fun _ hu => hu.advance) h
  | store => exact hs.finish ((hs.assignOperand _ _).andThen fun _ hu => hu.advance) h
  | inc => exact hs.finish (.bind fun _ => (hs.assignOperand _ _).andThen fun _ hu => hu.advance) h
  | push => exact hs.finish (.bind fun _ => (hs.push _).andThen fun _ hu => hu.advance) h
  | call => exact hs.finish (.bind fun target => (hs.push _).andThen fun _ hu => hu.jump target) h
  | phstore =>
    exact hs.finish
      (.privileged <| .bind fun p => (hs.physWrite p _).andThen fun _ hu => hu.advance) h
  | ret =>
    refine hs.finish (fun u hu => ?_) h
    obtain ⟨⟨v, w⟩, hp, rfl⟩ := map_eq_ok hu
    obtain ⟨-, rfl⟩ := pop_ok hp
    exact (hs.setReg .sp _).jump v
  | jcond =>
    refine hs.finish ?_ h
    split
    · exact .map fun target => hs.jump target
    · exact okSatisfies_ok.mpr hs.advance
    · exact okSatisfies_refused _
  | halt =>
    refine hs.finish ?_ h
    split
    · exact okSatisfies_ok.mpr (hs.of_eq rfl rfl)
    · exact okSatisfies_raised _
  | syscall =>
    refine hs.finish (.bind fun index => ?_) h
    split
    · exact okSatisfies_raised _
    · exact .bind fun gate => hs.enterGate index gate
  | iret => exact hs.finish (.privileged hs.returnFromInterrupt) h
  | peri reg op => exact absurd rfl (hi reg op)

end MemoryGood

/-! ### PERI operations that write no memory -/

/-- An operation that ends with the memory of `s`, and its size. -/
abbrev KeepsMemory (s : State) : PeriResult → Prop :=
  DoneSatisfies fun t => t.mem = s.mem ∧ t.params = s.params

@[simp] theorem hostAnswer_mem (s : State) : (hostAnswer s).2.mem = s.mem := by
  rw [hostAnswer_frame]

@[simp] theorem hostAnswer_params (s : State) : (hostAnswer s).2.params = s.params := by
  rw [hostAnswer_frame]

@[simp] theorem readClock_mem (s : State) : (readClock s).2.mem = s.mem := by
  rw [readClock_frame]

@[simp] theorem readClock_params (s : State) : (readClock s).2.params = s.params := by
  rw [readClock_frame]

@[simp] theorem scrambleBlocks_mem (s : State) (drive : Fin 8) (disc : Disc) (b n : Word) :
    (scrambleBlocks s drive disc b n).mem = s.mem := rfl

@[simp] theorem scrambleBlocks_params (s : State) (drive : Fin 8) (disc : Disc) (b n : Word) :
    (scrambleBlocks s drive disc b n).params = s.params := rfl

@[simp] theorem spoilTape_mem (s : State) (u : Fin 8) (tape : Tape) (c : Nat) :
    (spoilTape s u tape c).mem = s.mem := rfl

@[simp] theorem spoilTape_params (s : State) (u : Fin 8) (tape : Tape) (c : Nat) :
    (spoilTape s u tape c).params = s.params := rfl

theorem discCheck_mem (s : State) (cs : Word) : KeepsMemory s (discCheck s cs) := by
  refine doneSatisfies_orFail (by simp) fun d _ => ?_
  split
  · simp
  split <;> simp

theorem discWrite_mem (s : State) (cs : Word) : KeepsMemory s (discWrite s cs) := by
  refine doneSatisfies_orFail (by simp) fun ⟨d, b, n, m⟩ _ => ?_
  dsimp only
  split
  · simp
  split
  · simp
  split
  · simp
  split
  · simp
  refine doneSatisfies_orFail (by simp) fun words _ => ?_
  split <;> simp

theorem tapeCheck_mem (s : State) (cs : Word) : KeepsMemory s (tapeCheck s cs) := by
  refine doneSatisfies_orFail (by simp) fun u _ => ?_
  split
  · simp
  split <;> simp

theorem tapeRewind_mem (s : State) (cs : Word) : KeepsMemory s (tapeRewind s cs) := by
  refine doneSatisfies_orFail (by simp) fun u _ => ?_
  split
  · simp
  split
  · simp
  split <;> simp

theorem tapeLoad_mem (s : State) (cs : Word) : KeepsMemory s (tapeLoad s cs) := by
  refine doneSatisfies_orFail (by simp) fun ⟨u, p, mode⟩ _ => ?_
  dsimp only
  split
  · simp
  split
  · simp
  split
  · simp only [loadTape]
    split
    · simp
    split <;> simp
  · simp
  · simp
  · simp

theorem tapeUnload_mem (s : State) (cs : Word) : KeepsMemory s (tapeUnload s cs) := by
  refine doneSatisfies_orFail (by simp) fun u _ => ?_
  split
  · simp
  split <;> simp

theorem tapeWrite_mem (s : State) (cs : Word) : KeepsMemory s (tapeWrite s cs) := by
  refine doneSatisfies_orFail (by simp) fun ⟨u, m, c⟩ _ => ?_
  dsimp only
  split
  · simp
  split
  · simp
  split
  · simp
  split
  · simp
  · simp
  · simp
  split
  · simp [updateFile]
  · simp

theorem termOut_mem (s : State) (cs : Word) (char : Word → Nat → Access Byte) :
    KeepsMemory s (termOut s cs char) := by
  refine doneSatisfies_orFail (by simp) fun ⟨n, m⟩ _ => ?_
  dsimp only
  split
  · simp
  split
  · split <;> simp
  · split <;> simp [printSome]

theorem seconds_mem (s : State) : KeepsMemory s (seconds s) :=
  doneSatisfies_done.mpr ⟨readClock_mem s, readClock_params s⟩

/-! ### PERI operations that write memory keep it good -/

theorem MemoryGood.of_keepsMemory {s : State} (hs : MemoryGood s) {r : PeriResult}
    (h : KeepsMemory s r) : DoneSatisfies MemoryGood r :=
  h.imp fun _ ⟨hmem, hparams⟩ => hs.of_eq hmem hparams

section MemoryGood

variable {s : State} (hs : MemoryGood s)
include hs

theorem MemoryGood.deliver {a code : Word} {words : List Content}
    {k : State → List Word → PeriResult}
    (hk : ∀ u ws, MemoryGood u → DoneSatisfies MemoryGood (k u ws)) :
    DoneSatisfies MemoryGood (deliver s a words code k) := fun t c h => by
  rcases deliver_done h with ⟨u, ws, hu, h⟩ | ⟨ps, rfl, hps, -⟩
  · exact hk u ws (hs.storeAll hu) t c h
  · exact hs.scramble hps

theorem MemoryGood.doneNonNegative : DoneSatisfies MemoryGood (doneNonNegative s) :=
  doneSatisfies_done.mpr (hs.of_eq rfl rfl)

theorem MemoryGood.useconds (cs : Word) : DoneSatisfies MemoryGood (useconds s cs) := by
  have hclock : MemoryGood (readClock s).2 := hs.of_eq (by simp) (by simp)
  exact hclock.deliver fun _ _ hu => hu.doneNonNegative

theorem MemoryGood.dateTime (cs : Word) : DoneSatisfies MemoryGood (dateTime s cs) := by
  refine doneSatisfies_orFail (doneSatisfies_done.mpr hs) fun time _ => ?_
  split
  · exact doneSatisfies_refused _
  · exact hs.deliver fun _ _ hu => hu.doneNonNegative

theorem MemoryGood.discRead (cs : Word) : DoneSatisfies MemoryGood (discRead s cs) := by
  refine doneSatisfies_orFail (doneSatisfies_done.mpr hs) fun ⟨d, b, n, m⟩ _ => ?_
  dsimp only
  split
  · exact doneSatisfies_done.mpr hs
  split
  · exact doneSatisfies_refused _
  split
  · exact doneSatisfies_done.mpr hs
  · exact hs.deliver fun _ _ hu => doneSatisfies_done.mpr hu

theorem MemoryGood.scrambleRest (m : Word) (count : Nat) (written : List Word) :
    MemoryGood (scrambleRest s m count written) :=
  hs.scramble fun p hp => reachable_present s _ p (List.mem_of_mem_filter hp)

theorem MemoryGood.moveTape (u : Fin 8) (tape : Tape) (position : Nat) :
    MemoryGood (moveTape s u tape position) := hs.of_eq rfl rfl

theorem MemoryGood.strandTape (u : Fin 8) (tape : Tape) (c : Nat) :
    MemoryGood (strandTape s u tape c) := hs.of_eq rfl rfl

theorem MemoryGood.tapeRead (cs : Word) : DoneSatisfies MemoryGood (tapeRead s cs) := by
  refine doneSatisfies_orFail (doneSatisfies_done.mpr hs) fun ⟨u, m⟩ _ => ?_
  dsimp only
  split
  · exact doneSatisfies_done.mpr hs
  split
  · exact doneSatisfies_done.mpr hs
  have hdrawn : MemoryGood { s with draws := s.draws + 1 } := hs.of_eq rfl rfl
  split
  · exact doneSatisfies_refused _
  · next hfail => exact doneSatisfies_done.mpr ((hdrawn.abandoned _ hfail).strandTape _ _ _)
  · next hu =>
    exact doneSatisfies_done.mpr (((hdrawn.storeAll hu).scrambleRest _ _ _).moveTape _ _ _)

theorem MemoryGood.takeKeys (k : Nat) : MemoryGood (takeKeys s k) := hs.of_eq rfl rfl

theorem MemoryGood.takeSomeKeys (k : Nat) : MemoryGood (takeSomeKeys s k) := hs.of_eq rfl rfl

theorem MemoryGood.termIn (cs : Word) (layout : List Byte → List Word) :
    DoneSatisfies MemoryGood (termIn s cs layout) := by
  refine doneSatisfies_orFail (doneSatisfies_done.mpr hs) fun ⟨most, m⟩ _ => ?_
  dsimp only
  split
  · exact doneSatisfies_refused _
  split
  · exact doneSatisfies_refused _
  · next hfail => exact doneSatisfies_done.mpr ((hs.abandoned _ hfail).takeSomeKeys _)
  · next hu => exact doneSatisfies_done.mpr ((hs.storeAll hu).takeKeys _)

theorem MemoryGood.runPeri (cs : Word) (op : PeriOp) :
    DoneSatisfies MemoryGood (runPeri s cs op) := by
  cases op with
  | discCheck => exact hs.of_keepsMemory (discCheck_mem s cs)
  | discRead => exact hs.discRead cs
  | discWrite => exact hs.of_keepsMemory (discWrite_mem s cs)
  | tapeCheck => exact hs.of_keepsMemory (tapeCheck_mem s cs)
  | tapeRewind => exact hs.of_keepsMemory (tapeRewind_mem s cs)
  | tapeLoad => exact hs.of_keepsMemory (tapeLoad_mem s cs)
  | tapeUnload => exact hs.of_keepsMemory (tapeUnload_mem s cs)
  | tapeRead => exact hs.tapeRead cs
  | tapeWrite => exact hs.of_keepsMemory (tapeWrite_mem s cs)
  | termInC => exact hs.termIn cs _
  | termOutC => exact hs.of_keepsMemory (termOut_mem s cs _)
  | termInW => exact hs.termIn cs _
  | termOutW => exact hs.of_keepsMemory (termOut_mem s cs _)
  | seconds => exact hs.of_keepsMemory (seconds_mem s)
  | useconds => exact hs.useconds cs
  | dateTime => exact hs.dateTime cs

theorem MemoryGood.operation (cs : Word) : DoneSatisfies MemoryGood (operation s cs) := by
  refine doneSatisfies_orFail (doneSatisfies_done.mpr hs) fun code _ => ?_
  split
  · exact doneSatisfies_done.mpr hs
  · exact hs.runPeri cs _

theorem MemoryGood.execPeri {t : State} {reg : Reg} {op : Operand}
    (h : execPeri reg op s = .next t) : MemoryGood t := by
  simp only [Machine.execPeri] at h
  split at h
  · split at h
    · exact hs.takeInterrupt h
    · cases h
    next cs _ =>
    split at h
    · next u code hu =>
      cases h
      exact (hs.operation cs u code hu).of_eq (by simp [reportResult]) (by simp [reportResult])
    · cases h
    · cases h
  · exact hs.takeInterrupt h

end MemoryGood

/-! ### The memory invariant -/

theorem memoryGood_stepInvariant : StepInvariant MemoryGood where
  environment s hs := hs.of_eq (by rw [environment_frame]) (by rw [environment_frame])
  entered _ _ _ hs h := hs.raise h
  retired _ _ hs := hs.of_eq rfl rfl
  timer _ _ hs := hs.of_eq rfl rfl
  exec i s t hs h := by
    by_cases hi : ∀ reg op, i ≠ .peri reg op
    · exact hs.exec hi h
    · push Not at hi
      obtain ⟨reg, op, rfl⟩ := hi
      exact hs.execPeri h

/-- Settles O56: every store of a step is a `Memory.put` at a present address. -/
theorem stepKeepsMemoryGood : Obligations.StepKeepsMemoryGood :=
  fun _ _ _ hs h => memoryGood_stepInvariant.stepWith hs h

end Sys2Proof.Machine
end

section
/-! PROOFS of the family 30_encoding.md: the model's own binary format (R78, log 1). The decoder and
the encoder are inverse to each other: both are tied to one description of a word, by the shape of its
operation code, its main field and its operand (`Shape.Builds`, `wordOf`). -/

namespace Sys2Proof

/-! ### Conditions and numbers in their fields -/

theorem Cond.ofCode_code {c : Cond} (h : c.wellFormed = true) : Cond.ofCode c.code = c := by
  cases c with
  | err => rfl
  | other code =>
    have hcode : code ≠ Cond.errCode := by simpa [Cond.wellFormed] using h
    simp [Cond.ofCode, Cond.code, hcode]

@[simp] theorem Cond.code_ofCode (n : BitVec 4) : (Cond.ofCode n).code = n := by
  unfold Cond.ofCode
  split
  · next h => exact h.symm
  · rfl

@[simp] theorem Cond.wellFormed_ofCode (n : BitVec 4) : (Cond.ofCode n).wellFormed = true := by
  unfold Cond.ofCode
  split
  · rfl
  · next h => simpa [Cond.wellFormed] using h

theorem signExtend_setWidth_of_fitsNumeric {n : Word} (h : fitsNumeric n = true) :
    (n.setWidth 16).signExtend 32 = n := by
  simpa [fitsNumeric] using h

@[simp] theorem setWidth_signExtend_number (n : BitVec 16) :
    (n.signExtend 32).setWidth 16 = n := by
  ext i hi
  have hi32 : i < 32 := Nat.lt_trans hi (by decide)
  rw [BitVec.getElem_setWidth, BitVec.getLsbD_signExtend]
  simp [hi, hi32]

@[simp] theorem fitsNumeric_signExtend (n : BitVec 16) : fitsNumeric (n.signExtend 32) = true := by
  simp [fitsNumeric]

/-! ### The fields of a word -/

theorem assemble_fields (w : Word) :
    assemble (opcodeField w) (formField w) (mainField w) (indexField w) (numberField w) = w := by
  ext i hi
  simp [assemble, opcodeField, formField, mainField, indexField, numberField]
  grind

/-! ### The operand of a word -/

theorem mainField_assembleOperand (opcode : BitVec 6) (main : BitVec 4) (op : Operand) :
    mainField (assembleOperand opcode main op) = main := by
  cases op <;> exact mainField_assemble _ _ _ _ _

theorem decodeOperand_assembleOperand (opcode : BitVec 6) (main : BitVec 4) {op : Operand}
    (h : op.wellFormed = true) : decodeOperand (assembleOperand opcode main op) = .ok op := by
  cases op with
  | imm n =>
    simp [decodeOperand, assembleOperand, formField_assemble, indexField_assemble,
      numberField_assemble, signExtend_setWidth_of_fitsNumeric h]
  | reg r =>
    simp [decodeOperand, assembleOperand, formField_assemble, indexField_assemble,
      numberField_assemble]
  | mem r n =>
    simp [decodeOperand, assembleOperand, formField_assemble, indexField_assemble,
      numberField_assemble, signExtend_setWidth_of_fitsNumeric h]
  | memAt n =>
    simp [decodeOperand, assembleOperand, formField_assemble, indexField_assemble,
      numberField_assemble, signExtend_setWidth_of_fitsNumeric h]

/-- The four forms are all there are: a form field that is none of 0, 1, 2 is 3. -/
theorem form_eq_three : ∀ form : BitVec 2, form ≠ 0 → form ≠ 1 → form ≠ 2 → form = 3 := by
  decide

/-- The fields that an operand does not use are zero in a word it was read from, so the operand and the
two fields above it give back the whole word. -/
theorem assembleOperand_of_decodeOperand {w : Word} {op : Operand} (h : decodeOperand w = .ok op) :
    op.wellFormed = true ∧ assembleOperand (opcodeField w) (mainField w) op = w := by
  have hw := assemble_fields w
  simp only [decodeOperand] at h
  split at h
  · next hform =>
    split at h <;> cases h
    next hindex =>
    exact ⟨fitsNumeric_signExtend _, by simpa [assembleOperand, hform, hindex] using hw⟩
  split at h
  · next hform =>
    split at h <;> cases h
    next hnumber =>
    exact ⟨rfl, by simpa [assembleOperand, hform, hnumber] using hw⟩
  split at h
  · next hform =>
    split at h <;> cases h
    next hindex =>
    exact ⟨fitsNumeric_signExtend _, by simpa [assembleOperand, hform, hindex] using hw⟩
  · next h0 h1 h2 =>
    cases h
    have hform := form_eq_three _ h0 h1 h2
    exact ⟨fitsNumeric_signExtend _, by simpa [assembleOperand, hform] using hw⟩

/-! ### A word by its operation code, main field and operand -/

/-- What an instruction of each shape is, given its main field and its operand, if it has one. -/
inductive Shape.Builds : Shape → BitVec 4 → Option Operand → Instr → Prop where
  | regOperand (make : Reg → Operand → Instr) (main : BitVec 4) (op : Operand) :
      Builds (.regOperand make) main (some op) (make (Reg.ofNumber main) op)
  | condOperand (make : Cond → Operand → Instr) (main : BitVec 4) (op : Operand) :
      Builds (.condOperand make) main (some op) (make (Cond.ofCode main) op)
  | operandOnly (make : Operand → Instr) (op : Operand) :
      Builds (.operandOnly make) 0 (some op) (make op)
  | bare (i : Instr) : Builds (.bare i) 0 none i

theorem Shape.Builds.of_reg (make : Reg → Operand → Instr) (r : Reg) (op : Operand) :
    (Shape.regOperand make).Builds r.number (some op) (make r op) := by
  simpa using Shape.Builds.regOperand make r.number op

theorem Shape.Builds.of_cond (make : Cond → Operand → Instr) {c : Cond} (hc : c.wellFormed = true)
    (op : Operand) : (Shape.condOperand make).Builds c.code (some op) (make c op) := by
  simpa [Cond.ofCode_code hc] using Shape.Builds.condOperand make c.code op

/-- The word with these fields; without an operand, its fields are zero. -/
def wordOf (opcode : BitVec 6) (main : BitVec 4) : Option Operand → Word
  | some op => assembleOperand opcode main op
  | none => assemble opcode 0 main 0 0

@[simp] theorem opcodeField_wordOf (opcode : BitVec 6) (main : BitVec 4) (op : Option Operand) :
    opcodeField (wordOf opcode main op) = opcode := by
  cases op with
  | none => exact opcodeField_assemble ..
  | some op => exact opcodeField_assembleOperand ..

@[simp] theorem mainField_wordOf (opcode : BitVec 6) (main : BitVec 4) (op : Option Operand) :
    mainField (wordOf opcode main op) = main := by
  cases op with
  | none => exact mainField_assemble ..
  | some op => exact mainField_assembleOperand ..

theorem decodeOperand_wordOf (opcode : BitVec 6) (main : BitVec 4) {op : Operand}
    (h : op.wellFormed = true) : decodeOperand (wordOf opcode main (some op)) = .ok op :=
  decodeOperand_assembleOperand opcode main h

theorem wordOf_bare (opcode : BitVec 6) : wordOf opcode 0 none = opcode ++ (0 : BitVec 26) := by
  ext i hi
  grind [wordOf, assemble]

theorem low_wordOf_bare (opcode : BitVec 6) : (wordOf opcode 0 none).extractLsb' 0 26 = 0 := by
  rw [wordOf_bare]
  ext i hi
  grind

theorem opcodeField_append_low (w : Word) : opcodeField w ++ w.extractLsb' 0 26 = w := by
  ext i hi
  grind [opcodeField]

/-! ### The decoder -/

/-- The decoder accepts the word of every instruction that a shape builds. -/
theorem decodeWord_wordOf {opcode : BitVec 6} {sh : Shape} {main : BitVec 4} {op : Option Operand}
    {i : Instr} (hshape : shapeOf opcode.toNat = some sh) (hbuilds : sh.Builds main op i)
    (hop : op.all Operand.wellFormed = true) : decodeWord (wordOf opcode main op) = .ok i := by
  cases hbuilds with
  | regOperand make main op =>
    simp [decodeWord, hshape, decodeOperand_wordOf _ _ hop, Except.map]
  | condOperand make main op =>
    simp [decodeWord, hshape, decodeOperand_wordOf _ _ hop, Except.map]
  | operandOnly make op =>
    simp [decodeWord, hshape, decodeOperand_wordOf _ _ hop, Except.map]
  | bare i => simpa [decodeWord, hshape] using low_wordOf_bare opcode

theorem exists_of_decodeOperand_map {w : Word} {make : Operand → Instr} {i : Instr}
    (h : (decodeOperand w).map make = .ok i) :
    ∃ op, make op = i ∧ op.wellFormed = true ∧ wordOf (opcodeField w) (mainField w) (some op) = w := by
  cases hop : decodeOperand w with
  | error e => simp [hop, Except.map] at h
  | ok op => exact ⟨op, by simpa [hop, Except.map] using h, assembleOperand_of_decodeOperand hop⟩

/-- The decoder accepts nothing else. -/
theorem builds_of_decodeWord {w : Word} {i : Instr} (h : decodeWord w = .ok i) :
    ∃ sh main op, shapeOf (opcodeField w).toNat = some sh ∧ sh.Builds main op i ∧
      op.all Operand.wellFormed = true ∧ wordOf (opcodeField w) main op = w := by
  unfold decodeWord at h
  split at h
  · cases h
  · next make hshape =>
    obtain ⟨op, rfl, hfits, hw⟩ := exists_of_decodeOperand_map h
    exact ⟨_, _, _, hshape, .regOperand make _ op, hfits, hw⟩
  · next make hshape =>
    obtain ⟨op, rfl, hfits, hw⟩ := exists_of_decodeOperand_map h
    exact ⟨_, _, _, hshape, .condOperand make _ op, hfits, hw⟩
  · next make hshape =>
    split at h
    · next hmain =>
      obtain ⟨op, rfl, hfits, hw⟩ := exists_of_decodeOperand_map h
      exact ⟨_, _, _, hshape, .operandOnly make op, hfits, hmain ▸ hw⟩
    · cases h
  · next hshape =>
    split at h <;> cases h
    next hlow => exact ⟨_, _, _, hshape, .bare i, rfl,
      (wordOf_bare _).trans (hlow ▸ opcodeField_append_low w)⟩

theorem decode_eq_some_iff {w : Word} {i : Instr} : decode w = some i ↔ decodeWord w = .ok i := by
  unfold decode
  split
  · next h => simp [h]
  · next h => simp [h]

/-! ### The encoder -/

/-- The table of operation codes agrees with the encoder row by row. -/
theorem encode_of_builds {opcode : BitVec 6} {sh : Shape} {main : BitVec 4} {op : Option Operand}
    {i : Instr} (hshape : shapeOf opcode.toNat = some sh) (hbuilds : sh.Builds main op i) :
    encode i = wordOf opcode main op ∧ i.wellFormed = op.all Operand.wellFormed := by
  obtain ⟨n, hn⟩ : ∃ n, opcode.toNat = n := ⟨_, rfl⟩
  obtain rfl : opcode = BitVec.ofNat 6 n := by simp [← hn]
  rw [hn] at hshape
  unfold shapeOf at hshape
  split at hshape <;> cases hshape
  all_goals
    cases hbuilds
    simp [encode, wordOf, Instr.opcode, Instr.wellFormed]

/-- Every well-formed instruction is in the table. -/
theorem exists_builds {i : Instr} (h : i.wellFormed = true) :
    ∃ sh main op, shapeOf i.opcode.toNat = some sh ∧ sh.Builds main op i := by
  cases i with
  | getsr r op | setsr r op | getfl r op | setfl r op | flagsj r op | sbit r op | cbit r op
  | exbr r op | dpbr r op | exbrv r op | dpbrv r op | load r op | store r op | comp r op
  | compz r op | phload r op | phstore r op | peri r op => exact ⟨_, _, _, rfl, .of_reg _ r op⟩
  | jcond c op =>
    obtain ⟨hc, -⟩ : c.wellFormed = true ∧ op.wellFormed = true := by
      simpa [Instr.wellFormed] using h
    exact ⟨_, _, _, rfl, .of_cond _ hc op⟩
  | inc op | push op | call op | syscall op => exact ⟨_, _, _, rfl, .operandOnly _ op⟩
  | ret | halt | iret => exact ⟨_, _, _, rfl, .bare _⟩

/-! ### Decoder and encoder are inverse -/

/-- Settles O3: the shape of the instruction's row gives its word, which the decoder reads by that row. -/
theorem decodeOfEncode : Obligations.DecodeOfEncode := by
  intro i hi
  obtain ⟨sh, main, op, hshape, hbuilds⟩ := exists_builds hi
  obtain ⟨hencode, hfits⟩ := encode_of_builds hshape hbuilds
  rw [hencode, decode_eq_some_iff]
  exact decodeWord_wordOf hshape hbuilds (hfits ▸ hi)

/-- Settles O4: a decoded word was built by its row's shape, and the encoder builds the same word. -/
theorem encodeOfDecode : Obligations.EncodeOfDecode := by
  intro w i h
  obtain ⟨sh, main, op, hshape, hbuilds, hop, hw⟩ := builds_of_decodeWord (decode_eq_some_iff.mp h)
  obtain ⟨hencode, hfits⟩ := encode_of_builds hshape hbuilds
  exact ⟨hfits.trans hop, hencode.trans hw⟩

theorem decode_of_encode_eq {i : Instr} {w : Word} (hw : encode i = w) (hi : i.wellFormed = true) :
    decode w = some i := hw ▸ decodeOfEncode i hi

/-- Settles O5: each word is the encoder's word of the instruction beside it. -/
theorem wordsDecodeAsWritten : Obligations.WordsDecodeAsWritten :=
  ⟨decode_of_encode_eq (by decide) rfl, decode_of_encode_eq (by decide) rfl,
    decode_of_encode_eq (by decide) rfl, decode_of_encode_eq (by decide) rfl,
    decode_of_encode_eq (by decide) rfl, decode_of_encode_eq (by decide) rfl⟩

end Sys2Proof
end

section
/-! PROOFS of the family 40_special_register_and_flag_instructions.md: GETSR, SETSR, GETFL, SETFL, FLAGSJ
(R90 to R94). -/

namespace Sys2Proof.Machine

/-! ### The numbers of special registers and flags -/

/-- Above 8 there is no special register (93_implementation_defined.md U3, log 20). -/
theorem specialOfNumber_above {n : Word} (h : 8 < n.toNat) : specialOfNumber n = none := by
  obtain ⟨k, hk⟩ : ∃ k, n.toNat = k + 9 := Nat.exists_eq_add_of_le' h
  simp [specialOfNumber, hk]

/-- Above 6 there is no flag (93_implementation_defined.md U3, log 20). -/
theorem flagOfNumber_above {n : Word} (h : 6 < n.toNat) : flagOfNumber n = none := by
  obtain ⟨k, hk⟩ : ∃ k, n.toNat = k + 7 := Nat.exists_eq_add_of_le' h
  simp [flagOfNumber, hk]

/-- The bits 0 to 6 of the flags word are flags (10_state.md R25). -/
theorem exists_flagNumber {j : Nat} (h : j < 7) : ∃ name, flagNumber name = j :=
  ⟨[.r, .z, .n, .err, .sys, .ip, .vm][j], by interval_cases j <;> rfl⟩

theorem flagNumber_injective : Function.Injective flagNumber := fun a b h => by
  have ha := flagOfNumber_flagNumber a
  rw [h, flagOfNumber_flagNumber b] at ha
  exact (Option.some.inj ha).symm

theorem namedSpecial_of_some {n : Word} {sr : SpecialReg} (h : specialOfNumber n = some sr) :
    namedSpecial n = .ok sr := by simp [namedSpecial, h]

theorem namedSpecial_above {n : Word} (h : 8 < n.toNat) :
    namedSpecial n = refused (.specialRegisterNumber n) := by
  simp [namedSpecial, specialOfNumber_above h]

/-- A number up to 6 names the flag whose bit it numbers. -/
theorem exists_namedFlag {n : Word} (h : n.toNat ≤ 6) :
    ∃ name, flagNumber name = n.toNat ∧ namedFlag n = .ok name := by
  obtain ⟨name, hname⟩ := exists_flagNumber (Nat.lt_succ_of_le h)
  have hn : flagOfNumber n = some name := by
    simpa [hname] using flagOfNumber_flagNumber name
  exact ⟨name, hname, by simp [namedFlag, hn]⟩

theorem namedFlag_above {n : Word} (h : 6 < n.toNat) : namedFlag n = refused (.flagNumber n) := by
  simp [namedFlag, flagOfNumber_above h]

/-- R93: user mode may modify the flags 1 to 3 only. -/
theorem flagProtected_eq (name : FlagName) :
    flagProtected name = !decide (1 ≤ flagNumber name ∧ flagNumber name ≤ 3) := by
  cases name <;> rfl

/-! ### One bit of the flags word -/

theorem Flags.toWord_bit_above (f : Flags) {j : Nat} (h : 7 ≤ j) : f.toWord.getLsbD j = false := by
  simp [Flags.toWord, h]

/-- Writing a flag changes the bit with its number and no other. -/
theorem Flags.toWord_set_bit (f : Flags) (name : FlagName) (b : Bool) (j : Nat) :
    (f.set name b).toWord.getLsbD j =
      if j = flagNumber name then b else f.toWord.getLsbD j := by
  by_cases hj : j < 7
  · obtain ⟨other, rfl⟩ := exists_flagNumber hj
    rw [toWord_bit, toWord_bit]
    split
    · next h => rw [flagNumber_injective h, get_set_same]
    · next h => exact get_set_other f b fun e => h (congrArg flagNumber e)
  · have hname : j ≠ flagNumber name := by cases name <;> simp [flagNumber] <;> omega
    rw [if_neg hname, toWord_bit_above _ (not_lt.mp hj), toWord_bit_above _ (not_lt.mp hj)]

/-- A flag is cut out of the flags word by its number. -/
theorem Flags.toWord_shift_and_one (f : Flags) (name : FlagName) :
    (f.toWord >>> flagNumber name) &&& 1 = if f.get name then 1 else 0 := by
  have hbit : (f.toWord >>> flagNumber name).getLsbD 0 = f.get name := by
    rw [BitVec.getLsbD_ushiftRight, Nat.add_zero, toWord_bit]
  refine (BitVec.and_one_eq_setWidth_ofBool_getLsbD).trans ?_
  rw [hbit]
  cases f.get name <;> rfl

/-! ### The wire `retired` and PC are no register of R11, no flag and no special register -/

@[simp] theorem getReg_retired (s : State) (b : Bool) (q : Reg) :
    getReg { s with retired := b } q = getReg s q := by cases q <;> rfl

@[simp] theorem getSpecial_retired (s : State) (b : Bool) (n : SpecialReg) :
    getSpecial { s with retired := b } n = getSpecial s n := by cases n <;> rfl

@[simp] theorem getSpecial_advance (s : State) (n : SpecialReg) :
    getSpecial (advance s) n = getSpecial s n := by cases n <;> rfl

theorem OnlyRegister.retired {s t : State} {r : Reg} (h : OnlyRegister s t r) (b : Bool) :
    OnlyRegister s { t with retired := b } r where
  mode := h.mode
  others q hq hpc := (getReg_retired t b q).trans (h.others q hq hpc)
  dormant := h.dormant

theorem RegisterOnly.retired {s t : State} (h : RegisterOnly s t) (b : Bool) :
    RegisterOnly s { t with retired := b } where
  flags := h.flags
  specials := { h.specials with }
  memory := h.memory
  devices := { h.devices with }
  host := { h.host with }

/-! ### The two ways in which these instructions complete -/

/-- An instruction that writes one register other than PC and moves on (GETSR, GETFL). -/
theorem finish_setReg_advance (s : State) {reg : Reg} (v : Word) (hreg : reg ≠ .pc) :
    ∃ t, finish s (.ok (advance (setReg s reg v))) = .next t ∧ getReg t reg = v ∧
      OnlyRegister s t reg ∧ RegisterOnly s t ∧ t.pc = s.pc + 1 := by
  refine ⟨_, finish_ok _ _, ?_, (onlyRegister_advance s reg v).retired true,
    (registerOnly_advance s reg v).retired true, ?_⟩
  · rw [getReg_retired, getReg_advance _ hreg, getReg_setReg_same]
  · simp [setReg_pc_of_ne s v hreg]

/-- An instruction that writes the flags and PC (SETFL, FLAGSJ). -/
theorem finish_setFlags_jump (s : State) (f : Flags) (target : Word) :
    ∃ t, finish s (.ok (jump { s with flags := f } target)) = .next t ∧ t.flags = f ∧
      t.pc = target ∧ FlagsOnly s t :=
  ⟨_, finish_ok _ _, rfl, rfl,
    { registers := ⟨rfl, rfl, rfl, rfl, rfl⟩
      specials := ⟨rfl, rfl, rfl, rfl, rfl, rfl⟩
      memory := fun _ => rfl
      devices := ⟨rfl, rfl, rfl, rfl, rfl⟩
      host := ⟨rfl, rfl, rfl, rfl, rfl⟩ }⟩

/-! ### What each instruction does, once its mode and its destination are right -/

section Instructions

variable {s : State} {reg : Reg} {op : Operand}

theorem exec_getsr (hreg : reg ≠ .pc) :
    exec (.getsr reg op) s =
      finish s ((operandValue s op).bind fun n =>
        (namedSpecial n).map fun sr => advance (setReg s reg (getSpecial s sr))) := by
  change execGetsr reg op s = _
  rw [execGetsr, guardDestination_of_ne hreg, bind_ok]

theorem exec_getsr_pc : exec (.getsr .pc op) s = .refused .pcAsDestination := rfl

theorem exec_setsr (hs : s.flags.sys = true) :
    exec (.setsr reg op) s =
      finish s ((operandValue s op).bind fun n =>
        (namedSpecial n).map fun sr => advance (setSpecial s sr (getReg s reg))) := by
  change execSetsr reg op s = _
  rw [execSetsr, privileged_system _ hs]

theorem exec_setsr_user (hs : s.flags.sys = false) :
    exec (.setsr reg op) s = takeInterrupt (interruptAt .privOp s.pc) s := by
  change execSetsr reg op s = _
  rw [execSetsr, privileged_user _ hs, finish_raised]

theorem exec_getfl (hreg : reg ≠ .pc) :
    exec (.getfl reg op) s =
      finish s ((operandValue s op).bind fun n =>
        (namedFlag n).map fun name =>
          advance (setReg s reg (if s.flags.get name then 1 else 0))) := by
  change execGetfl reg op s = _
  rw [execGetfl, guardDestination_of_ne hreg, bind_ok]

theorem exec_setfl_raised {i : Interrupt} (h : operandValue s op = raised i) :
    exec (.setfl reg op) s = takeInterrupt i s := by
  change execSetfl reg op s = _
  rw [execSetfl, h, bind_raised, finish_raised]

theorem exec_setfl_above {n : Word} (h : operandValue s op = .ok n) (hn : 6 < n.toNat) :
    exec (.setfl reg op) s = .refused (.flagNumber n) := by
  change execSetfl reg op s = _
  rw [execSetfl, h, bind_ok, namedFlag_above hn, bind_refused, finish_refused]

/-- R93: the mode and the flag's number decide between the write and PRIVOP. -/
theorem exec_setfl_named {n : Word} {name : FlagName} (h : operandValue s op = .ok n)
    (hname : namedFlag n = .ok name) :
    exec (.setfl reg op) s =
      if s.flags.sys = true ∨ (1 ≤ flagNumber name ∧ flagNumber name ≤ 3) then
        finish s (.ok (jump { s with flags := s.flags.set name (getReg s reg != 0) } (s.pc + 1)))
      else takeInterrupt (interruptAt .privOp s.pc) s := by
  change execSetfl reg op s = _
  have hguard : (!s.flags.sys && flagProtected name) =
      !decide (s.flags.sys = true ∨ (1 ≤ flagNumber name ∧ flagNumber name ≤ 3)) := by
    rw [flagProtected_eq, Bool.decide_or, Bool.decide_eq_true, Bool.not_or]
  rw [execSetfl, h, bind_ok, hname, bind_ok, hguard]
  by_cases allowed : s.flags.sys = true ∨ (1 ≤ flagNumber name ∧ flagNumber name ≤ 3)
  · simp only [allowed, decide_true, Bool.not_true, Bool.false_eq_true, if_false, if_true]
    rfl
  · simp only [allowed, decide_false, Bool.not_false, if_true, if_false, finish_raised]

theorem exec_flagsj (hs : s.flags.sys = true) :
    exec (.flagsj reg op) s =
      finish s ((operandValue s op).map fun target =>
        jump { s with flags := Flags.ofWord (getReg s reg) } target) := by
  change execFlagsj reg op s = _
  rw [execFlagsj, privileged_system _ hs]

theorem exec_flagsj_user (hs : s.flags.sys = false) :
    exec (.flagsj reg op) s = takeInterrupt (interruptAt .privOp s.pc) s := by
  change execFlagsj reg op s = _
  rw [execFlagsj, privileged_user _ hs, finish_raised]

end Instructions

/-! ### SETFL -/

/-- Settles O11: a number up to 6 names a flag, and the mode and the number decide between the write of
that one bit and PRIVOP. -/
theorem setflSetsOneFlag : Obligations.SetflSetsOneFlag := by
  intro reg op s
  refine ⟨fun i hi => exec_setfl_raised hi, fun n hv => ⟨?written, ?privop, exec_setfl_above hv⟩⟩
  case written =>
    intro hn allowed
    obtain ⟨name, hnumber, hname⟩ := exists_namedFlag hn
    rw [← hnumber] at allowed ⊢
    obtain ⟨t, hnext, hflags, hpc, hframe⟩ :=
      finish_setFlags_jump s (s.flags.set name (getReg s reg != 0)) (s.pc + 1)
    refine ⟨t, ?_, fun j => ?_, hframe, hpc⟩
    · rw [exec_setfl_named hv hname, if_pos allowed, hnext]
    · rw [hflags, Flags.toWord_set_bit]
  case privop =>
    intro hn hs hprotected
    obtain ⟨name, hnumber, hname⟩ := exists_namedFlag hn
    have hdenied : ¬ (s.flags.sys = true ∨ (1 ≤ flagNumber name ∧ flagNumber name ≤ 3)) := by
      rintro (hsys | ⟨hlow, hhigh⟩)
      · rw [hs] at hsys; cases hsys
      · omega
    rw [exec_setfl_named hv hname, if_neg hdenied]

/-! ### GETSR and SETSR -/

/-- Settles O8, by what the operand delivers: a special register's number, another number, or a fault. -/
theorem getsrReadsSpecialRegister : Obligations.GetsrReadsSpecialRegister := by
  intro reg op s
  refine ⟨fun n sr hreg hv hsr => ?_, fun n hreg hv hn => ?_, fun i hreg hi => ?_, ?_⟩
  · rw [exec_getsr hreg, hv, bind_ok, namedSpecial_of_some hsr, map_ok]
    exact finish_setReg_advance s _ hreg
  · rw [exec_getsr hreg, hv, bind_ok, namedSpecial_above hn, map_refused, finish_refused]
  · rw [exec_getsr hreg, hi, bind_raised, finish_raised]
  · rintro rfl
    exact exec_getsr_pc

/-- A special register after SETSR: FLAGS keeps the low seven bits (D7), every other the whole word. -/
theorem getSpecial_setSpecial (s : State) (sr : SpecialReg) (v : Word) :
    getSpecial (setSpecial s sr v) sr = if sr = .flags then v &&& 127 else v := by
  split
  · next h => subst h; exact getSpecial_setSpecial_flags s v
  · next h => exact getSpecial_setSpecial_same s v h

/-- Settles O9: in system mode by what the operand delivers, in user mode by PRIVOP before it is read. -/
theorem setsrWritesSpecialRegister : Obligations.SetsrWritesSpecialRegister := by
  intro reg op s
  refine ⟨fun n sr hs hv hsr => ?_, fun n hs hv hn => ?_, fun i hs hi => ?_, exec_setsr_user⟩
  · rw [exec_setsr hs, hv, bind_ok, namedSpecial_of_some hsr, map_ok]
    refine ⟨_, finish_ok _ _, ?_, fun other hother => ?_, by simp, by simp, by simp, fun q => by simp,
      ⟨by simp, by simp, by simp, by simp, by simp⟩, ⟨by simp, by simp, by simp, by simp, by simp⟩,
      by simp⟩
    · rw [getSpecial_retired, getSpecial_advance, getSpecial_setSpecial]
    · rw [getSpecial_retired, getSpecial_advance, getSpecial_setSpecial_other _ _ hother]
  · rw [exec_setsr hs, hv, bind_ok, namedSpecial_above hn, map_refused, finish_refused]
  · rw [exec_setsr hs, hi, bind_raised, finish_raised]

/-! ### GETFL and FLAGSJ -/

/-- Settles O10: the named flag is the bit of the flags word with its number. -/
theorem getflReadsOneFlag : Obligations.GetflReadsOneFlag := by
  intro reg op s hreg
  refine ⟨fun n hv hn => ?_, fun n hv hn => ?_, fun i hi => ?_⟩
  · obtain ⟨name, hnumber, hname⟩ := exists_namedFlag hn
    rw [exec_getfl hreg, hv, bind_ok, hname, map_ok, ← hnumber, getSpecial,
      Flags.toWord_shift_and_one]
    exact finish_setReg_advance s _ hreg
  · rw [exec_getfl hreg, hv, bind_ok, namedFlag_above hn, map_refused, finish_refused]
  · rw [exec_getfl hreg, hi, bind_raised, finish_raised]

/-- Settles O12: the target is read in `s`, so under the old flags; one update then writes both. -/
theorem flagsjSetsFlagsAndJumps : Obligations.FlagsjSetsFlagsAndJumps := by
  intro reg op s
  refine ⟨fun target hs hv => ?_, fun i hs hi => ?_, exec_flagsj_user⟩
  · obtain ⟨t, hnext, hflags, hpc, hframe⟩ :=
      finish_setFlags_jump s (Flags.ofWord (getReg s reg)) target
    refine ⟨t, ?_, ?_, hpc, hframe⟩
    · rw [exec_flagsj hs, hv, map_ok, hnext]
    · rw [hflags, Flags.toWord_ofWord]
  · rw [exec_flagsj hs, hi, map_raised, finish_raised]

end Sys2Proof.Machine
end

section
/-! PROOFS of the family 41_bit_instructions.md: SBIT, CBIT, the parts of a descriptor, and the four
bit-range instructions (R100 to R108). -/

namespace Sys2Proof.Machine

/-! ### A bit number and its mask -/

theorem bitNumber_of_lt {n : Word} (h : n.toNat < 32) : bitNumber n = .ok n.toNat := by
  simp [bitNumber, h]

/-- Above 31 there is no bit (93_implementation_defined.md U4, log 20). -/
theorem bitNumber_above {n : Word} (h : 32 ≤ n.toNat) : bitNumber n = refused (.bitNumber n) := by
  simp [bitNumber, Nat.not_lt.mpr h]

theorem bitMask_bit {b j : Nat} (hj : j < 32) : (bitMask b).getLsbD j = decide (j = b) := by
  rw [bitMask, ← BitVec.twoPow_eq, BitVec.getLsbD_twoPow]
  by_cases h : j = b
  · subst h; simp [hj]
  · simp [h, Ne.symm h]

/-- Setting the bits of a mask of one bit (R100). -/
theorem or_bitMask_bit (w : Word) {b j : Nat} (hj : j < 32) :
    (w ||| bitMask b).getLsbD j = if j = b then true else w.getLsbD j := by
  rw [BitVec.getLsbD_or, bitMask_bit hj]
  split <;> simp [*]

/-- Clearing the bits of a mask of one bit (R101). -/
theorem and_not_bitMask_bit (w : Word) {b j : Nat} (hj : j < 32) :
    (w &&& ~~~(bitMask b)).getLsbD j = if j = b then false else w.getLsbD j := by
  rw [BitVec.getLsbD_and, BitVec.getLsbD_not, bitMask_bit hj]
  split <;> simp [*]

/-! ### The parts of a descriptor, in arithmetic (R102) -/

theorem and_31_toNat (w : Word) : (w &&& 31).toNat = w.toNat % 32 :=
  Nat.and_two_pow_sub_one_eq_mod w.toNat 5

theorem rangeLength_eq (d : Word) :
    rangeLength d = if d.toNat % 32 = 0 then 32 else d.toNat % 32 := by
  rw [rangeLength, and_31_toNat]

theorem rangeRight_eq (d : Word) : rangeRight d = d.toNat / 2 ^ 5 % 32 := by
  rw [rangeRight, and_31_toNat, BitVec.toNat_ushiftRight, Nat.shiftRight_eq_div_pow]

theorem rangeSkip_toNat (d : Word) : (rangeSkip d).toNat = d.toNat / 2 ^ 10 := by
  rw [rangeSkip, BitVec.toNat_ushiftRight, Nat.shiftRight_eq_div_pow]

/-- No range is empty: 0 in the length's place stands for 32. -/
theorem rangeLength_pos (d : Word) : 0 < rangeLength d := by
  rw [rangeLength_eq]
  split <;> omega

/-- Settles O15: the three parts of the formula are the quotients and remainders that it is made of. -/
theorem descriptorParts : Obligations.DescriptorParts := by
  intro skip right len5 hskip hright hlen
  have hword : (BitVec.ofNat 32 (skip * 1024 + right * 32 + len5)).toNat =
      skip * 1024 + right * 32 + len5 := by
    rw [BitVec.toNat_ofNat]; omega
  have hlow : (skip * 1024 + right * 32 + len5) % 32 = len5 := by omega
  refine ⟨BitVec.eq_of_toNat_eq ?_, ?_, ?_⟩
  · rw [rangeSkip_toNat, hword, BitVec.toNat_ofNat]; omega
  · rw [rangeRight_eq, hword]; omega
  · rw [rangeLength_eq, hword, hlow]

/-! ### A field and a deposit, bit by bit (R103, R104) -/

theorem lowMask_bit (len : Nat) {j : Nat} (hj : j < 32) :
    (lowMask len).getLsbD j = decide (j < len) := by
  rw [lowMask, BitVec.getLsbD_ofNat, Nat.testBit_two_pow_sub_one, decide_eq_true hj, Bool.true_and]

/-- The mask of a range has the range's bits. -/
theorem lowMask_shiftLeft_bit (len right : Nat) {j : Nat} (hj : j < 32) :
    (lowMask len <<< right).getLsbD j = decide (right ≤ j ∧ j < right + len) := by
  rw [BitVec.getLsbD_shiftLeft, lowMask_bit len (lt_of_le_of_lt (Nat.sub_le j right) hj)]
  by_cases h : right ≤ j
  · simp [hj, h, Nat.not_lt.mpr h, Nat.sub_lt_iff_lt_add' h]
  · simp [h, Nat.not_le.mp h]

theorem bitField_bit (w d : Word) {j : Nat} (hj : j < 32) :
    (bitField w d).getLsbD j = (w.getLsbD (rangeRight d + j) && decide (j < rangeLength d)) := by
  rw [bitField, BitVec.getLsbD_and, BitVec.getLsbD_ushiftRight, lowMask_bit _ hj]

/-- Inside the range a deposit has the value's bits, outside it the word's own. -/
theorem deposit_bit (w d v : Word) {j : Nat} (hj : j < 32) :
    (deposit w d v).getLsbD j =
      if rangeRight d ≤ j ∧ j < rangeRight d + rangeLength d then v.getLsbD (j - rangeRight d)
      else w.getLsbD j := by
  rw [deposit, BitVec.getLsbD_or, BitVec.getLsbD_and, BitVec.getLsbD_and, BitVec.getLsbD_not,
    lowMask_shiftLeft_bit _ _ hj]
  by_cases h : rangeRight d ≤ j ∧ j < rangeRight d + rangeLength d
  · have hbit : j - rangeRight d < 32 := lt_of_le_of_lt (Nat.sub_le _ _) hj
    simp [h, hj, Nat.not_lt.mpr h.1, BitVec.getLsbD_eq_getElem hbit]
  · simp [h, hj]

/-- Settles O14. -/
theorem depositBits : Obligations.DepositBits := fun w d v _ _ hj => deposit_bit w d v hj

/-- The top bit of a field is the top bit of its range. -/
theorem bitField_top (w d : Word) (hfits : rangeRight d + rangeLength d ≤ 32) :
    (bitField w d).getLsbD (rangeLength d - 1) =
      w.getLsbD (rangeRight d + rangeLength d - 1) := by
  have hpos := rangeLength_pos d
  rw [bitField_bit w d (by omega), decide_eq_true (Nat.sub_lt hpos Nat.one_pos), Bool.and_true,
    Nat.add_sub_assoc hpos]

/-- R105, N12: the low bits delivered are the range, and the bits above repeat its top bit where the field
is sign-extended. -/
theorem deliverField_bit (signExtended : Bool) (w d : Word) {j : Nat} (hj : j < 32)
    (hfits : rangeRight d + rangeLength d ≤ 32) :
    (deliverField signExtended w d).getLsbD j =
      if j < rangeLength d then w.getLsbD (rangeRight d + j)
      else signExtended && w.getLsbD (rangeRight d + rangeLength d - 1) := by
  simp only [deliverField, bitField_top w d hfits]
  split
  · next hset =>
    rw [BitVec.getLsbD_or, bitField_bit w d hj, BitVec.getLsbD_not, lowMask_bit _ hj, hset]
    split <;> simp [*]
  · next hclear =>
    rw [bitField_bit w d hj, Bool.eq_false_of_not_eq_true hclear]
    split <;> simp [*]

/-! ### A range that fits and one past bit 31 -/

theorem guardRange_of_le {d : Word} (h : rangeRight d + rangeLength d ≤ 32) :
    guardRange d = .ok () := by simp [guardRange, h]

/-- 93_implementation_defined.md U5, log 21. -/
theorem guardRange_above {d : Word} (h : 32 < rangeRight d + rangeLength d) :
    guardRange d = refused (.rangePastBit31 d) := by simp [guardRange, Nat.not_le.mpr h]

/-! ### What completes an instruction that writes a word of memory -/

theorem readWord_present {s : State} {a p : Word} (ha : translate s a = .ok p)
    (hp : present s p = true) : readWord s a = .ok (s.mem.read p) := by
  rw [readWord_of_translate ha, physRead_present hp]

/-- The frame of a store is the frame of the instruction that makes it and moves on. -/
theorem WordOnly.completed {s t : State} {p : Word} (h : WordOnly s t p) (b : Bool) :
    WordOnly s { advance t with retired := b } p where
  flags := h.flags
  registers := { h.registers with }
  specials := { h.specials with }
  memory := h.memory
  devices := { h.devices with }
  host := { h.host with }

/-- An instruction that writes one word of memory and moves on. -/
theorem finish_writeWord_advance {s : State} {a p : Word} (v : Word) (ha : translate s a = .ok p)
    (hp : present s p = true) :
    ∃ t, finish s ((writeWord s a v).map advance) = .next t ∧ t.mem.read p = v ∧
      WordOnly s t p ∧ t.pc = s.pc + 1 := by
  rw [writeWord_present v ha hp, map_ok]
  exact ⟨_, finish_ok _ _, Memory.read_put_same _ _ _, (wordOnly_put s p _).completed true, rfl⟩

/-! ### SBIT and CBIT -/

section BitInstructions

variable {s : State} {reg : Reg} {op : Operand}

theorem exec_sbit (hreg : reg ≠ .pc) :
    exec (.sbit reg op) s =
      finish s ((operandValue s op).bind fun n =>
        (bitNumber n).map fun b => advance (setReg s reg (getReg s reg ||| bitMask b))) := by
  change execSbit reg op s = _
  rw [execSbit, guardDestination_of_ne hreg, bind_ok]

theorem exec_cbit (hreg : reg ≠ .pc) :
    exec (.cbit reg op) s =
      finish s ((operandValue s op).bind fun n =>
        (bitNumber n).map fun b => advance (setReg s reg (getReg s reg &&& ~~~(bitMask b)))) := by
  change execCbit reg op s = _
  rw [execCbit, guardDestination_of_ne hreg, bind_ok]

end BitInstructions

/-- Settles O13, by what the operand delivers: a fault, a bit's number, or a number above 31. -/
theorem sbitCbitChangeOneBit : Obligations.SbitCbitChangeOneBit := by
  intro reg op s hreg
  rw [exec_sbit hreg, exec_cbit hreg]
  refine ⟨fun i hi => ?faults, fun n hv => ⟨fun hn => ?changed, fun hn => ?above⟩⟩
  case faults =>
    rw [hi, bind_raised, bind_raised, finish_raised]
    exact ⟨rfl, rfl⟩
  case changed =>
    rw [hv, bind_ok, bind_ok, bitNumber_of_lt hn, map_ok, map_ok]
    obtain ⟨t, ht, hset, hframe⟩ :=
      finish_setReg_advance s (getReg s reg ||| bitMask n.toNat) hreg
    obtain ⟨u, hu, hcleared, uframe⟩ :=
      finish_setReg_advance s (getReg s reg &&& ~~~(bitMask n.toNat)) hreg
    refine ⟨⟨t, ht, fun j hj => ?_, hframe⟩, ⟨u, hu, fun j hj => ?_, uframe⟩⟩
    · rw [hset, or_bitMask_bit _ hj]
    · rw [hcleared, and_not_bitMask_bit _ hj]
  case above =>
    rw [hv, bind_ok, bind_ok, bitNumber_above hn, map_refused, finish_refused]
    exact ⟨rfl, rfl⟩

/-! ### EXBR and EXBRV: what both do once the word is there -/

/-- The end of an extract instruction (R105, R107): its range of `w`, delivered under its `roles`. -/
def extractFrom (roles : ExtractRoles) (reg : Reg) (s : State) (w : Word) : Access State :=
  (guardRange (getReg s (roleReg reg roles.descriptor))).map fun _ =>
    advance (setReg s (roleReg reg roles.result)
      (deliverField roles.signExtended w (getReg s (roleReg reg roles.descriptor))))

section ExtractInstructions

variable {s : State} {reg : Reg} {op : Operand}

theorem exec_exbr (hdest : roleReg reg s.params.exbrRoles.result ≠ .pc) :
    exec (.exbr reg op) s =
      finish s ((operandValue s op).bind (extractFrom s.params.exbrRoles reg s)) := by
  change execExbr reg op s = _
  simp only [execExbr, guardDestination_of_ne hdest, bind_ok]
  rfl

theorem exec_exbrv (hdest : roleReg reg s.params.exbrvRoles.result ≠ .pc) :
    exec (.exbrv reg op) s =
      finish s ((operandValue s op).bind fun base =>
        (readWord s (base + rangeSkip (getReg s (roleReg reg s.params.exbrvRoles.descriptor)))).bind
          (extractFrom s.params.exbrvRoles reg s)) := by
  change execExbrv reg op s = _
  simp only [execExbrv, guardDestination_of_ne hdest, bind_ok]
  rfl

variable {roles : ExtractRoles} {d : Word} (w : Word)
  (hd : getReg s (roleReg reg roles.descriptor) = d)
include hd

theorem finish_extractFrom_of_le (hdest : roleReg reg roles.result ≠ .pc)
    (hfits : rangeRight d + rangeLength d ≤ 32) :
    ∃ t, finish s (extractFrom roles reg s w) = .next t ∧
      (∀ j, j < 32 → (getReg t (roleReg reg roles.result)).getLsbD j =
        if j < rangeLength d then w.getLsbD (rangeRight d + j)
        else roles.signExtended && w.getLsbD (rangeRight d + rangeLength d - 1)) ∧
      OnlyRegister s t (roleReg reg roles.result) ∧ RegisterOnly s t ∧ t.pc = s.pc + 1 := by
  subst hd
  rw [extractFrom, guardRange_of_le hfits, map_ok]
  obtain ⟨t, ht, hvalue, hframe⟩ :=
    finish_setReg_advance s (deliverField roles.signExtended w _) hdest
  exact ⟨t, ht, fun j hj => by rw [hvalue, deliverField_bit _ _ _ hj hfits], hframe⟩

theorem finish_extractFrom_above (hpast : 32 < rangeRight d + rangeLength d) :
    finish s (extractFrom roles reg s w) = .refused (.rangePastBit31 d) := by
  subst hd
  rw [extractFrom, guardRange_above hpast, map_refused, finish_refused]

end ExtractInstructions

/-- Settles O16: EXBR's word is its operand's value, EXBRV's one more access away; from there on the two
are `extractFrom`. -/
theorem extractInstructionsDeliverField : Obligations.ExtractInstructionsDeliverField := by
  intro reg op s
  refine ⟨fun i hi => ⟨fun hdest => ?_, fun hdest => ?_⟩, fun v hv => ⟨?exbr, ?exbrv⟩⟩
  · rw [exec_exbr hdest, hi, bind_raised, finish_raised]
  · rw [exec_exbrv hdest, hi, bind_raised, finish_raised]
  case exbr =>
    intro roles d dest hdest
    rw [exec_exbr hdest, hv, bind_ok]
    exact ⟨finish_extractFrom_of_le v rfl hdest, finish_extractFrom_above v rfl⟩
  case exbrv =>
    intro roles d dest hdest
    rw [exec_exbrv hdest, hv, bind_ok]
    refine ⟨fun i hi => ?_, fun w hw => ?_⟩
    · rw [hi, bind_raised, finish_raised]
    · rw [hw, bind_ok]
      exact ⟨finish_extractFrom_of_le w rfl hdest, finish_extractFrom_above w rfl⟩

/-! ### DPBR and DPBRV: what both do once the word is there -/

/-- The end of a deposit instruction (R106, R108): the range of `w` is replaced under its `roles`, and
`write` puts the word back. -/
def depositInto (roles : DepositRoles) (reg : Reg) (s : State) (write : Word → Access State)
    (w : Word) : Access State :=
  (guardRange (getReg s (roleReg reg roles.descriptor))).bind fun _ =>
    (write (deposit w (getReg s (roleReg reg roles.descriptor))
      (getReg s (roleReg reg roles.value)))).map advance

section DepositInstructions

variable {s : State} {reg : Reg} {op : Operand}

theorem exec_dpbr :
    exec (.dpbr reg op) s =
      finish s ((operandValue s op).bind
        (depositInto s.params.dpbrRoles reg s (assignOperand s op))) := rfl

theorem exec_dpbrv :
    exec (.dpbrv reg op) s =
      finish s ((operandValue s op).bind fun base =>
        (readWord s (base + rangeSkip (getReg s (roleReg reg s.params.dpbrvRoles.descriptor)))).bind
          (depositInto s.params.dpbrvRoles reg s
            (writeWord s
              (base + rangeSkip (getReg s (roleReg reg s.params.dpbrvRoles.descriptor)))))) := rfl

variable {roles : DepositRoles} {d : Word} (write : Word → Access State) (w : Word)
  (hd : getReg s (roleReg reg roles.descriptor) = d)
include hd

theorem depositInto_of_le (hfits : rangeRight d + rangeLength d ≤ 32) :
    depositInto roles reg s write w =
      (write (deposit w d (getReg s (roleReg reg roles.value)))).map advance := by
  subst hd
  rw [depositInto, guardRange_of_le hfits, bind_ok]

theorem finish_depositInto_above (hpast : 32 < rangeRight d + rangeLength d) :
    finish s (depositInto roles reg s write w) = .refused (.rangePastBit31 d) := by
  subst hd
  rw [depositInto, guardRange_above hpast, bind_refused, finish_refused]

end DepositInstructions

/-- Settles O17: DPBR by the form of its operand (a register, a word of memory, a number), DPBRV by the
word that its operand's address leads to; from the word on the two are `depositInto`. -/
theorem depositInstructionsReplaceRange : Obligations.DepositInstructionsReplaceRange := by
  intro reg op s
  refine ⟨fun i hi => ?faults, ⟨fun hfits => ⟨?register, ?memory, ?number⟩, ?past⟩,
    ⟨?dpbrvFaults, ?dpbrv⟩⟩
  case faults =>
    rw [exec_dpbr, exec_dpbrv, hi, bind_raised, bind_raised, finish_raised]
    exact ⟨rfl, rfl⟩
  case register =>
    rintro r rfl hr
    rw [exec_dpbr, operandValue, bind_ok, depositInto_of_le _ _ rfl hfits, assignOperand,
      guardDestination_of_ne hr, map_ok, map_ok]
    exact finish_setReg_advance s _ hr
  case memory =>
    intro a p hop ha hp
    rw [exec_dpbr, operandValue_of_address hop, readWord_present ha hp, bind_ok,
      depositInto_of_le _ _ rfl hfits, assignOperand_of_address _ hop]
    exact finish_writeWord_advance _ ha hp
  case number =>
    rintro n rfl
    rw [exec_dpbr, operandValue, bind_ok, depositInto_of_le _ _ rfl hfits, assignOperand,
      map_raised, finish_raised]
  case past =>
    intro hpast w hw
    rw [exec_dpbr, hw, bind_ok, finish_depositInto_above _ _ rfl hpast]
  case dpbrvFaults =>
    intro base i hbase hi
    rw [exec_dpbrv, hbase, bind_ok, hi, bind_raised, finish_raised]
  case dpbrv =>
    intro base p hbase ha hp
    rw [exec_dpbrv, hbase, bind_ok, readWord_present ha hp, bind_ok]
    refine ⟨fun hfits => ?_, finish_depositInto_above _ _ rfl⟩
    rw [depositInto_of_le _ _ rfl hfits]
    exact finish_writeWord_advance _ ha hp

end Sys2Proof.Machine
end

section
/-! PROOFS of the family 42_data_and_control_instructions.md: LOAD, STORE, INC, PUSH, CALL, RET, COMP, COMPZ,
JCOND (R110 to R118). -/

namespace Sys2Proof.Machine

/-! ### A register and PC written together -/

/-- The frame of "one register, then PC anywhere". -/
theorem onlyRegister_jump (s : State) (r : Reg) (v target : Word) :
    OnlyRegister s (jump (setReg s r v) target) r where
  mode := by simp
  others q hq hpc := by rw [getReg_jump _ _ hpc, getReg_setReg_other _ _ hq]
  dormant := dormantBank_setReg s r v

theorem registerOnly_jump (s : State) (r : Reg) (v target : Word) :
    RegisterOnly s (jump (setReg s r v) target) where
  flags := by simp
  specials := ⟨by simp, by simp, by simp, by simp, by simp, by simp⟩
  memory q := by simp
  devices := ⟨by simp, by simp, by simp, by simp, by simp⟩
  host := ⟨by simp, by simp, by simp, by simp, by simp⟩

/-! ### The stack -/

@[simp] theorem getReg_mem (s : State) (m : Memory) (r : Reg) :
    getReg { s with mem := m } r = getReg s r := by cases r <;> rfl

/-- Memory aside, the frame of a register is that of the state before memory was written. -/
theorem OnlyRegister.of_mem {s t : State} {m : Memory} {r : Reg}
    (h : OnlyRegister { s with mem := m } t r) : OnlyRegister s t r where
  mode := h.mode
  others q hq hpc := (h.others q hq hpc).trans (getReg_mem s m q)
  dormant := h.dormant

section Stack

variable {s : State} {p : Word}

theorem push_present (v : Word) (ha : translate s (getReg s .sp - 1) = .ok p)
    (hp : present s p = true) :
    push s v = .ok (setReg { s with mem := s.mem.put p (.word v) } .sp (getReg s .sp - 1)) := by
  rw [push, writeWord_present v ha hp, map_ok]

theorem push_raised {v : Word} {i : Interrupt}
    (h : writeWord s (getReg s .sp - 1) v = raised i) : push s v = raised i := by
  rw [push, h, map_raised]

/-- A push leaves PC, so that moving on from it is a jump to the next instruction. -/
theorem push_map_advance (s : State) (v : Word) :
    (push s v).map advance = (push s v).map (jump · (s.pc + 1)) := by
  cases h : push s v with
  | error e => rfl
  | ok t =>
    obtain ⟨q, -, -, rfl⟩ := push_ok h
    rw [map_ok, map_ok, advance, setReg_pc_of_ne _ _ (by decide)]
    rfl

/-- An instruction that pushes a word and goes on at `target` (R113, R114): one word of memory and SP
change. -/
theorem finish_push_jump (v target : Word) (ha : translate s (getReg s .sp - 1) = .ok p)
    (hp : present s p = true) :
    ∃ t, finish s ((push s v).map (jump · target)) = .next t ∧ t.mem.read p = v ∧ t.pc = target ∧
      getReg t .sp = getReg s .sp - 1 ∧ OnlyRegister s t .sp ∧ t.flags = s.flags ∧
      SameSpecials s t ∧ MemoryOutside s t (· = p) ∧ SameDevices s t ∧ SameHost s t := by
  have hregister := (onlyRegister_jump { s with mem := s.mem.put p (.word v) } .sp
    (getReg s .sp - 1) target).retired true
  have hrest := (registerOnly_jump { s with mem := s.mem.put p (.word v) } .sp
    (getReg s .sp - 1) target).retired true
  rw [push_present v ha hp, map_ok]
  refine ⟨_, finish_ok _ _, ?stored, rfl, ?pointer, hregister.of_mem, hrest.flags,
    { hrest.specials with }, fun q hq => ?outside, { hrest.devices with }, { hrest.host with }⟩
  case stored => exact (hrest.memory p).trans (Memory.read_put_same _ _ _)
  case pointer => rw [getReg_retired, getReg_jump _ _ (by decide), getReg_setReg_same]
  case outside => exact (hrest.memory q).trans (Memory.read_put_other _ _ hq)

end Stack

/-! ### Z and N written, and nothing else -/

/-- An instruction that writes Z and N and moves on (COMP, COMPZ). -/
theorem finish_setZeroNegative_advance (s : State) (z n : Bool) :
    ∃ t, finish s (.ok (advance { s with flags := { s.flags with z := z, n := n } })) = .next t ∧
      FlagsOnly s t ∧ t.pc = s.pc + 1 ∧ t.flags.z = z ∧ t.flags.n = n ∧
      t.flags.r = s.flags.r ∧ t.flags.err = s.flags.err ∧ t.flags.sys = s.flags.sys ∧
      t.flags.ip = s.flags.ip ∧ t.flags.vm = s.flags.vm := by
  obtain ⟨t, hnext, hflags, hpc, hframe⟩ :=
    finish_setFlags_jump s { s.flags with z := z, n := n } (s.pc + 1)
  refine ⟨t, hnext, hframe, hpc, ?_⟩
  rw [hflags]
  exact ⟨rfl, rfl, rfl, rfl, rfl, rfl, rfl⟩

/-- An instruction that writes PC only (JCOND). -/
theorem finish_jump (s : State) (target : Word) :
    ∃ t, finish s (.ok (jump s target)) = .next t ∧ t.pc = target ∧ t.flags = s.flags ∧
      FlagsOnly s t := by
  obtain ⟨t, hnext, hflags, hpc, hframe⟩ := finish_setFlags_jump s s.flags target
  exact ⟨t, hnext, hpc, hflags, hframe⟩

/-! ### Words in arithmetic -/

theorem toNat_add_one (w : Word) : (w + 1).toNat = (w.toNat + 1) % 2 ^ 32 := BitVec.toNat_add w 1

/-- The sign of the wrapped difference (D33, log 18). -/
theorem msb_sub_iff (a b : Word) :
    (a - b).msb = true ↔ 2 ^ 31 ≤ (a.toNat + 2 ^ 32 - b.toNat) % 2 ^ 32 := by
  have hdiff : (a - b).toNat = (a.toNat + 2 ^ 32 - b.toNat) % 2 ^ 32 := by
    rw [BitVec.toNat_sub]; omega
  rw [BitVec.msb_eq_decide, decide_eq_true_iff, hdiff]

/-- A word is negative when its bit 31 is set. -/
theorem signed_neg_iff (w : Word) : signed w < 0 ↔ 2 ^ 31 ≤ w.toNat := by
  rw [signed, BitVec.toInt_neg_iff]; omega

/-! ### What each instruction does, once its destination and its tested value are known -/

section Instructions

variable {s : State} {reg : Reg} {op : Operand}

theorem exec_load (hreg : reg ≠ .pc) :
    exec (.load reg op) s =
      finish s ((operandValue s op).map fun v => advance (setReg s reg v)) := by
  change execLoad reg op s = _
  rw [execLoad, guardDestination_of_ne hreg, bind_ok]

theorem exec_load_pc : exec (.load .pc op) s = .refused .pcAsDestination := rfl

theorem exec_store :
    exec (.store reg op) s = finish s ((assignOperand s op (getReg s reg)).map advance) := rfl

theorem exec_inc :
    exec (.inc op) s =
      finish s ((operandValue s op).bind fun v => (assignOperand s op (v + 1)).map advance) := rfl

theorem exec_push :
    exec (.push op) s =
      finish s ((operandValue s op).bind fun v => (push s v).map (jump · (s.pc + 1))) := by
  change execPush op s = _
  simp only [execPush, push_map_advance]

theorem exec_call :
    exec (.call op) s =
      finish s ((operandValue s op).bind fun t => (push s (s.pc + 1)).map (jump · t)) := rfl

theorem exec_ret :
    exec .ret s = finish s ((readWord s (getReg s .sp)).map fun v =>
      jump (setReg s .sp (getReg s .sp + 1)) v) := by
  change execRet s = _
  rw [execRet, pop]
  cases readWord s (getReg s .sp) <;> rfl

theorem exec_comp :
    exec (.comp reg op) s =
      finish s ((operandValue s op).map fun v =>
        advance { s with flags := s.flags.compare s.params.compWraps (getReg s reg) v }) := rfl

/-- What COMPZ tests (log 16). -/
theorem exec_compz {v : Word}
    (hv : s.params.compzTests = .mainRegister ∧ getReg s reg = v ∨
      s.params.compzTests = .operand ∧ operandValue s op = .ok v) :
    exec (.compz reg op) s =
      finish s (.ok (advance { s with flags := s.flags.compareZero v })) := by
  change execCompz reg op s = _
  rcases hv with ⟨htests, rfl⟩ | ⟨htests, hv⟩
  · simp only [execCompz, htests, map_ok]
  · simp only [execCompz, htests, hv, map_ok]

theorem exec_compz_raised {i : Interrupt} (htests : s.params.compzTests = .operand)
    (h : operandValue s op = raised i) : exec (.compz reg op) s = takeInterrupt i s := by
  change execCompz reg op s = _
  simp only [execCompz, htests, h, map_raised, finish_raised]

theorem exec_jcond_taken (h : s.flags.err = true) :
    exec (.jcond .err op) s = finish s ((operandValue s op).map (jump s)) := by
  change execJcond .err op s = _
  simp only [execJcond, Flags.holds, h]

theorem exec_jcond_notTaken (h : s.flags.err = false) :
    exec (.jcond .err op) s = finish s (.ok (jump s (s.pc + 1))) := by
  change execJcond .err op s = _
  simp only [execJcond, Flags.holds, h]
  rfl

/-- The source names no condition but ERR (D34, log 3). -/
theorem exec_jcond_other (code : BitVec 4) :
    exec (.jcond (.other code) op) s = .refused (.conditionNotInSource code) := rfl

end Instructions

/-! ### STORE and INC, by the form of the operand -/

/-- Settles O19: a memory operand by what its address leads to, a register, and a number. -/
theorem storeCopiesRegister : Obligations.StoreCopiesRegister := by
  intro reg op s
  rw [exec_store]
  refine ⟨fun a p hop ha hp => ?written, fun a p hop ha hp => ?absent, fun a i hop ha => ?faults,
    fun r hop hr => ?register, fun n hop => ?number⟩
  case written =>
    rw [assignOperand_of_address _ hop]
    exact finish_writeWord_advance _ ha hp
  case absent =>
    rw [assignOperand_of_address _ hop, writeWord_of_translate _ ha, physWrite, physPut_absent _ hp,
      map_raised, finish_raised]
  case faults =>
    rw [assignOperand_of_address _ hop, writeWord_raised _ ha, map_raised, finish_raised]
  case register =>
    rw [hop, assignOperand, guardDestination_of_ne hr, map_ok, map_ok]
    exact finish_setReg_advance s _ hr
  case number => rw [hop, assignOperand, map_raised, finish_raised]

/-- Settles O20: INC reads its operand and writes the word after it back to the same place. -/
theorem incAddsOne : Obligations.IncAddsOne := by
  intro op s
  rw [exec_inc]
  refine ⟨fun a p hop ha hp => ?memory, fun a i hop hi => ?faults, fun r hop hr => ?register,
    fun n hop => ?number⟩
  case memory =>
    rw [operandValue_of_address hop, readWord_present ha hp, bind_ok,
      assignOperand_of_address _ hop, ← toNat_add_one]
    obtain ⟨t, hnext, hread, hframe⟩ := finish_writeWord_advance (s.mem.read p + 1) ha hp
    exact ⟨t, hnext, congrArg BitVec.toNat hread, hframe⟩
  case faults => rw [operandValue_of_address hop, hi, bind_raised, finish_raised]
  case register =>
    rw [hop, operandValue, bind_ok, assignOperand, guardDestination_of_ne hr, map_ok, map_ok,
      ← toNat_add_one]
    obtain ⟨t, hnext, hread, hframe⟩ := finish_setReg_advance s (getReg s r + 1) hr
    exact ⟨t, hnext, congrArg BitVec.toNat hread, hframe⟩
  case number => rw [hop, operandValue, bind_ok, assignOperand, map_raised, finish_raised]

/-! ### COMP and COMPZ -/

/-- Settles O24: Z and N are the two comparisons of `Flags.compare`, under either setting of the switch. -/
theorem compSetsZeroAndNegative : Obligations.CompSetsZeroAndNegative := by
  intro reg op s
  rw [exec_comp]
  refine ⟨fun v hv => ?compared, fun i hi => ?faults⟩
  case compared =>
    rw [hv, map_ok, Flags.compare]
    obtain ⟨t, hnext, hframe, hpc, hz, hn, hothers⟩ := finish_setZeroNegative_advance s
      (decide (getReg s reg = v))
      (if s.params.compWraps then (getReg s reg - v).msb
        else decide (signed (getReg s reg) < signed v))
    refine ⟨t, hnext, hframe, hpc, ?_, fun hwraps => ?_, fun hwraps => ?_, hothers⟩
    · rw [hz, decide_eq_true_iff]
    · rw [hn, hwraps, if_neg Bool.false_ne_true, decide_eq_true_iff, signed, signed]
    · rw [hn, hwraps, if_pos rfl, msb_sub_iff]
  case faults => rw [hi, map_raised, finish_raised]

/-- Settles O25: whichever value is tested, Z and N compare it with 0. -/
theorem compzTestsAgainstZero : Obligations.CompzTestsAgainstZero := by
  intro reg op s
  refine ⟨fun i htests hi => exec_compz_raised htests hi, fun v hv => ?_⟩
  rw [exec_compz hv, Flags.compareZero]
  obtain ⟨t, hnext, hframe, hpc, hz, hn, hothers⟩ :=
    finish_setZeroNegative_advance s (decide (v = 0)) (decide (signed v < 0))
  refine ⟨t, hnext, hframe, hpc, ?_, ?_, hothers⟩
  · rw [hz, decide_eq_true_iff]
    exact BitVec.toNat_inj.symm
  · rw [hn, decide_eq_true_iff, signed_neg_iff]

/-! ### LOAD -/

/-- Settles O18, by what the operand delivers and whether the destination is PC. -/
theorem loadCopiesOperand : Obligations.LoadCopiesOperand := by
  intro reg op s
  refine ⟨fun v hreg hv => ?_, fun i hreg hi => ?_, ?_⟩
  · rw [exec_load hreg, hv, map_ok]
    exact finish_setReg_advance s v hreg
  · rw [exec_load hreg, hi, map_raised, finish_raised]
  · rintro rfl
    exact exec_load_pc

/-! ### PUSH, CALL and RET -/

/-- Settles O21: the operand is read in `s`, so before SP moves; the interrupt of a failing write is taken in
`s`, so that SP keeps its value. -/
theorem pushStoresBelowStackPointer : Obligations.PushStoresBelowStackPointer := by
  intro op s
  rw [exec_push]
  refine ⟨fun i hi => ?faults, fun v hv => ⟨fun p ha hp => ?pushed, fun i hi => ?pushFails⟩⟩
  case faults => rw [hi, bind_raised, finish_raised]
  case pushed =>
    rw [hv, bind_ok]
    obtain ⟨t, hnext, hread, hpc, hsp, honly, hflags, hspecials, hmemory, hdevices, hhost⟩ :=
      finish_push_jump v (s.pc + 1) ha hp
    exact ⟨t, hnext, hread, hsp, honly, hflags, hspecials, hmemory, hdevices, hhost, hpc⟩
  case pushFails => rw [hv, bind_ok, push_raised hi, map_raised, finish_raised]

/-- Settles O22: CALL is the push of the next instruction's address, with a jump after it. -/
theorem callPushesReturnAddress : Obligations.CallPushesReturnAddress := by
  intro op s
  rw [exec_call]
  refine ⟨fun i hi => ?faults, fun target hv => ⟨fun p ha hp => ?called, fun i hi => ?pushFails⟩⟩
  case faults => rw [hi, bind_raised, finish_raised]
  case called =>
    rw [hv, bind_ok]
    exact finish_push_jump (s.pc + 1) target ha hp
  case pushFails => rw [hv, bind_ok, push_raised hi, map_raised, finish_raised]

/-- Settles O23: the popped word goes to PC, and SP moves up. -/
theorem retPopsProgramCounter : Obligations.RetPopsProgramCounter := by
  intro s
  rw [exec_ret]
  refine ⟨fun v hv => ?popped, fun i hi => ?faults⟩
  case popped =>
    rw [hv, map_ok]
    refine ⟨_, finish_ok _ _, rfl, ?_, (onlyRegister_jump s .sp _ v).retired true,
      (registerOnly_jump s .sp _ v).retired true⟩
    rw [getReg_retired, getReg_jump _ _ (by decide), getReg_setReg_same]
  case faults => rw [hi, map_raised, finish_raised]

/-! ### JCOND -/

/-- Settles O26, by the condition: ERR set, ERR clear, or a condition that is not ERR. -/
theorem jcondJumpsOnErr : Obligations.JcondJumpsOnErr := by
  intro op s
  refine ⟨fun target herr hv => ?_, fun herr => ?_, fun i herr hi => ?_, exec_jcond_other⟩
  · rw [exec_jcond_taken herr, hv, map_ok]
    exact finish_jump s target
  · rw [exec_jcond_notTaken herr]
    exact finish_jump s (s.pc + 1)
  · rw [exec_jcond_taken herr, hi, map_raised, finish_raised]

end Sys2Proof.Machine
end

section
/-! PROOFS of the family 43_system_instructions.md: HALT, SYSCALL, IRET, PHLOAD, PHSTORE (R130 to R135). -/

namespace Sys2Proof.Machine

/-! ### What each instruction does, once its mode is right -/

section Instructions

variable {s : State} {reg : Reg} {op : Operand}

theorem exec_halt (hs : s.flags.sys = true) :
    exec .halt s =
      finish s (.ok { s with
        flags := { s.flags with r := false }
        pc := Config.freeWord s.draws
        draws := s.draws + 1 }) := by
  change execHalt s = _
  rw [execHalt, if_pos hs]

theorem exec_halt_user (hs : s.flags.sys = false) :
    exec .halt s = takeInterrupt (interruptAt .halt s.pc) s := by
  change execHalt s = _
  rw [execHalt, hs, if_neg Bool.false_ne_true, finish_raised]

theorem exec_syscall :
    exec (.syscall op) s =
      finish s ((operandValue s op).bind fun index =>
        if signed index < 0 ∨ signed s.cglen ≤ signed index then raised (badCall s.pc index)
        else (readWord s (s.cgbr + index)).bind (enterGate s index)) := rfl

theorem exec_iret (hs : s.flags.sys = true) : exec .iret s = finish s (returnFromInterrupt s) := by
  change execIret s = _
  rw [execIret, privileged_system _ hs]

theorem exec_iret_user (hs : s.flags.sys = false) :
    exec .iret s = takeInterrupt (interruptAt .privOp s.pc) s := by
  change execIret s = _
  rw [execIret, privileged_user _ hs, finish_raised]

theorem exec_phload (hs : s.flags.sys = true) (hreg : reg ≠ .pc) :
    exec (.phload reg op) s =
      finish s ((operandValue s op).bind fun p =>
        (physRead s p).map fun v => advance (setReg s reg v)) := by
  change execPhload reg op s = _
  rw [execPhload, privileged_system _ hs, guardDestination_of_ne hreg, bind_ok]

theorem exec_phload_user (hs : s.flags.sys = false) :
    exec (.phload reg op) s = takeInterrupt (interruptAt .privOp s.pc) s := by
  change execPhload reg op s = _
  rw [execPhload, privileged_user _ hs, finish_raised]

theorem exec_phstore (hs : s.flags.sys = true) :
    exec (.phstore reg op) s =
      finish s ((operandValue s op).bind fun p =>
        (physWrite s p (getReg s reg)).map advance) := by
  change execPhstore reg op s = _
  rw [execPhstore, privileged_system _ hs]

theorem exec_phstore_user (hs : s.flags.sys = false) :
    exec (.phstore reg op) s = takeInterrupt (interruptAt .privOp s.pc) s := by
  change execPhstore reg op s = _
  rw [execPhstore, privileged_user _ hs, finish_raised]

end Instructions

/-! ### SYSCALL: stores in plain memory -/

/-- With translation off, stores to present words that no two of them share are all made, and reach no
other word. -/
theorem storeAll_plain (stores : List (Word × Content)) (s : State) (ws : List Word)
    (hvm : s.flags.vm = false) (hpresent : ∀ e ∈ stores, present s e.1 = true)
    (hdistinct : (stores.map Prod.fst).Nodup) :
    ∃ m us, storeAll s ws stores = .done { s with mem := m } us ∧
      (∀ e ∈ stores, m.read e.1 = contentWord e.2) ∧
      ∀ q, q ∉ stores.map Prod.fst → m.read q = s.mem.read q := by
  induction stores generalizing s ws with
  | nil => exact ⟨s.mem, ws, rfl, by simp, fun _ _ => rfl⟩
  | cons e rest ih =>
    obtain ⟨a, c⟩ := e
    obtain ⟨ha, hrest⟩ := List.nodup_cons.mp hdistinct
    obtain ⟨hpa, hprest⟩ := List.forall_mem_cons.mp hpresent
    obtain ⟨m, us, hrun, hin, hout⟩ :=
      ih { s with mem := s.mem.put a c } (a :: ws) hvm hprest hrest
    refine ⟨m, us, ?run, List.forall_mem_cons.mpr ⟨?first, hin⟩, fun q hq => ?outside⟩
    case run =>
      simp only [storeAll, translate_of_vm_off a hvm, physPut_present c hpa]
      exact hrun
    case first => exact (hout a ha).trans (Memory.read_put_same _ _ _)
    case outside =>
      obtain ⟨hqa, hqrest⟩ := not_or.mp (mt List.mem_cons.mpr hq)
      exact (hout q hqrest).trans (Memory.read_put_other _ _ hqa)

theorem sub_one_sub_ofNat (a : Word) (k : Nat) :
    a - 1 - BitVec.ofNat 32 k = a - BitVec.ofNat 32 (k + 1) := by
  have hsucc : BitVec.ofNat 32 (k + 1) = BitVec.ofNat 32 k + 1 := BitVec.ofNat_add k 1
  rw [hsucc]
  ring

theorem sub_ofNat_toNat {sp : Word} {n : Nat} (h : n ≤ sp.toNat) :
    (sp - BitVec.ofNat 32 n).toNat = sp.toNat - n := by
  have := sp.isLt
  rw [BitVec.toNat_sub, BitVec.toNat_ofNat]
  omega

/-- The words just below a stack pointer, in arithmetic. -/
theorem inBuffer_below_iff {sp q : Word} {n : Nat} (h : n ≤ sp.toNat) :
    inBuffer (sp - BitVec.ofNat 32 n) n q ↔ sp.toNat ≤ q.toNat + n ∧ q.toNat < sp.toNat := by
  rw [inBuffer, sub_ofNat_toNat h]
  omega

/-- Each push goes to the word below the one before it. -/
theorem stackStores_below {cs : List Content} {sp : Word} (h : cs.length ≤ sp.toNat) :
    ∀ a ∈ (stackStores sp cs).map Prod.fst, inBuffer (sp - BitVec.ofNat 32 cs.length) cs.length a := by
  intro a ha
  obtain ⟨⟨b, c⟩, hmem, rfl⟩ := List.mem_map.mp ha
  obtain ⟨k, hk⟩ := List.mem_iff_getElem?.mp hmem
  rw [stackStores_get] at hk
  obtain ⟨x, hx, hb⟩ := Option.map_eq_some_iff.mp hk
  have hlen : k < cs.length := (List.getElem?_eq_some_iff.mp hx).1
  rw [inBuffer_below_iff h, ← (Prod.mk.inj hb).1, sub_one_sub_ofNat, sub_ofNat_toNat (by omega)]
  omega

theorem stackStores_nodup {cs : List Content} {sp : Word} (h : cs.length ≤ sp.toNat) :
    ((stackStores sp cs).map Prod.fst).Nodup := by
  induction cs generalizing sp with
  | nil => exact List.nodup_nil
  | cons c cs ih =>
    rw [List.length_cons] at h
    have hsp : (sp - 1).toNat = sp.toNat - 1 := sub_ofNat_toNat (n := 1) (by omega)
    have hroom : cs.length ≤ (sp - 1).toNat := by omega
    refine List.nodup_cons.mpr
      ⟨fun (hmem : sp - 1 ∈ (stackStores (sp - 1) cs).map Prod.fst) => ?_, ih hroom⟩
    have hbelow := (inBuffer_below_iff hroom).mp (stackStores_below hroom _ hmem)
    omega

/-- A run of pushes with translation off and room on the stack: the `k`-th word lies `k + 1` words below
the stack pointer, and no word outside the run has changed. -/
theorem storeAll_stackStores {s : State} {sp : Word} {cs : List Content} (hvm : s.flags.vm = false)
    (hroom : cs.length ≤ sp.toNat) (hsize : sp.toNat ≤ s.params.physWords) :
    ∃ m us, storeAll s [] (stackStores sp cs) = .done { s with mem := m } us ∧
      (∀ k c, cs[k]? = some c → m.read (sp - BitVec.ofNat 32 (k + 1)) = contentWord c) ∧
      ∀ q, ¬ inBuffer (sp - BitVec.ofNat 32 cs.length) cs.length q →
        m.read q = s.mem.read q := by
  have hpresent : ∀ e ∈ stackStores sp cs, present s e.1 = true := fun e he => by
    have hbelow := stackStores_below hroom e.1 (List.mem_map_of_mem he)
    rw [inBuffer_below_iff hroom] at hbelow
    exact decide_eq_true (by omega)
  obtain ⟨m, us, hrun, hin, hout⟩ :=
    storeAll_plain _ s [] hvm hpresent (stackStores_nodup hroom)
  refine ⟨m, us, hrun, fun k c hc => ?_, fun q hq => hout q (mt (stackStores_below hroom q) hq)⟩
  refine hin (sp - BitVec.ofNat 32 (k + 1), c) (List.mem_of_getElem? (i := k) ?_)
  rw [stackStores_get, hc, Option.map_some, sub_one_sub_ofNat]

/-! ### SYSCALL: the words of its frame -/

/-- What SYSCALL pushes for one word of `SYSCALL_TRAILER` (R131, log 17). -/
def trailerContent (draws : Nat) (index : Word) : TrailerWord → Content
  | .const w => .word w
  | .index => .word index
  | .unspecified => .free draws

theorem trailerWords_cons (draws : Nat) (index : Word) (x : TrailerWord) (xs : List TrailerWord) :
    trailerWords draws index (x :: xs) =
      trailerContent draws index x :: trailerWords (draws + 1) index xs := by
  cases x <;> rfl

theorem trailerWords_get (draws : Nat) (index : Word) (xs : List TrailerWord) (k : Nat) :
    (trailerWords draws index xs)[k]? = xs[k]?.map (trailerContent (draws + k) index) := by
  induction xs generalizing draws k with
  | nil => simp [trailerWords]
  | cons x xs ih =>
    rw [trailerWords_cons]
    cases k with
    | zero => rfl
    | succ k =>
      rw [List.getElem?_cons_succ, List.getElem?_cons_succ, ih, Nat.add_assoc, Nat.add_comm 1]

@[simp] theorem trailerWords_length (draws : Nat) (index : Word) (xs : List TrailerWord) :
    (trailerWords draws index xs).length = xs.length := by
  induction xs generalizing draws with
  | nil => rfl
  | cons x xs ih => rw [trailerWords_cons, List.length_cons, List.length_cons, ih]

@[simp] theorem savedRegisters_length (s : State) (pc : Word) :
    (savedRegisters s pc).length = 16 := by simp [savedRegisters]

theorem savedRegisters_gpr (s : State) (pc : Word) (i : Fin 13) :
    (savedRegisters s pc)[i.val]? = some s.gpr[i] := by
  rw [savedRegisters, List.getElem?_append_left (by simp)]
  simp

/-- After R0 .. R12 come SP, FP and PC. -/
theorem savedRegisters_rest (s : State) (pc : Word) (k : Nat) :
    (savedRegisters s pc)[13 + k]? = [getReg s .sp, getReg s .fp, pc][k]? := by
  rw [savedRegisters, List.getElem?_append_right (by simp)]
  simp

section CallFrame

variable (s : State) (index : Word)

theorem callFrameWords_length :
    (callFrameWords s index).length = 18 + s.params.syscallTrailer.length := by
  simp only [callFrameWords, List.length_append, List.length_map, savedRegisters_length,
    trailerWords_length, List.length_cons, List.length_nil]
  omega

theorem callFrameWords_register {k : Nat} {v : Word}
    (h : (savedRegisters s (s.pc + 1))[k]? = some v) :
    (callFrameWords s index)[k]? = some (.word v) := by
  have hk : k < 16 := by
    simpa using (List.getElem?_eq_some_iff.mp h).1
  rw [callFrameWords, List.getElem?_append_left (by simpa using hk), List.getElem?_map, h,
    Option.map_some]

theorem callFrameWords_trailer {k : Nat} {x : TrailerWord}
    (h : s.params.syscallTrailer[k]? = some x) :
    (callFrameWords s index)[16 + k]? = some (trailerContent (s.draws + k) index x) := by
  have hk : k < s.params.syscallTrailer.length := (List.getElem?_eq_some_iff.mp h).1
  rw [callFrameWords, List.getElem?_append_right (by simp)]
  simp only [List.length_map, savedRegisters_length, Nat.add_sub_cancel_left]
  rw [List.getElem?_append_left (by simpa using hk), trailerWords_get, h, Option.map_some]

/-- The old flags and the marker close the frame. -/
theorem callFrameWords_end (j : Nat) :
    (callFrameWords s index)[16 + s.params.syscallTrailer.length + j]? =
      [Content.word s.flags.toWord, .word frameMarker][j]? := by
  rw [callFrameWords, ← List.append_assoc, List.getElem?_append_right (by simp)]
  simp

end CallFrame

/-! ### SYSCALL -/

/-- The entry through a gate, with translation off and room on the system stack. -/
theorem enterGate_plain {s : State} (index gate : Word) (hvm : s.flags.vm = false)
    (hroom : 18 + s.params.syscallTrailer.length ≤ s.syssp.toNat)
    (hsize : s.syssp.toNat ≤ s.params.physWords) :
    ∃ m, enterGate s index gate =
        .ok { systemView s s.params.syscallSetsIP with
              mem := m
              syssp := s.syssp - BitVec.ofNat 32 (18 + s.params.syscallTrailer.length)
              pc := gate
              draws := s.draws + s.params.syscallTrailer.length } ∧
      (∀ k c, (callFrameWords s index)[k]? = some c →
        m.read (s.syssp - BitVec.ofNat 32 (k + 1)) = contentWord c) ∧
      ∀ q, ¬ inBuffer (s.syssp - BitVec.ofNat 32 (18 + s.params.syscallTrailer.length))
          (18 + s.params.syscallTrailer.length) q →
        m.read q = s.mem.read q := by
  rw [← callFrameWords_length s index] at hroom ⊢
  obtain ⟨m, us, hrun, hin, hout⟩ :=
    storeAll_stackStores (s := systemView s s.params.syscallSetsIP) hvm hroom hsize
  exact ⟨m, by simp only [enterGate, hrun], hin, hout⟩

/-- Settles O28: a bad index raises BADCALL before the gate is read; behind a gate that was read, the frame
is one run of pushes, and each of its words is read back at its place in `callFrameWords`. -/
theorem syscallEntersGateOrBadCall : Obligations.SyscallEntersGateOrBadCall := by
  intro op s
  rw [exec_syscall]
  refine ⟨fun i hi => ?faults, fun index hindex => ⟨fun hbad => ?badCall, ?entered⟩⟩
  case faults => rw [hi, bind_raised, finish_raised]
  case badCall =>
    have hbad : signed index < 0 ∨ signed s.cglen ≤ signed index :=
      hbad.imp (signed_neg_iff index).mpr id
    rw [hindex, bind_ok, if_pos hbad, finish_raised, badCall]
  case entered =>
    intro gate length hnonneg hbelow hgate hvm hroom hsize
    have hgood : ¬ (signed index < 0 ∨ signed s.cglen ≤ signed index) :=
      not_or.mpr ⟨fun h => Nat.not_le.mpr hnonneg ((signed_neg_iff index).mp h), Int.not_le.mpr hbelow⟩
    obtain ⟨m, henter, hread, hout⟩ := enterGate_plain index gate hvm hroom hsize
    have hregister {k : Nat} {v : Word} (h : (savedRegisters s (s.pc + 1))[k]? = some v) :
        m.read (s.syssp - BitVec.ofNat 32 (k + 1)) = v :=
      hread k _ (callFrameWords_register s index h)
    have htrailer {k : Nat} {x : TrailerWord} (h : s.params.syscallTrailer[k]? = some x) :
        m.read (s.syssp - BitVec.ofNat 32 (17 + k)) =
          contentWord (trailerContent (s.draws + k) index x) := by
      rw [show 17 + k = 16 + k + 1 by omega]
      exact hread _ _ (callFrameWords_trailer s index h)
    have hend (j : Nat) {c : Content}
        (h : [Content.word s.flags.toWord, .word frameMarker][j]? = some c) :
        m.read (s.syssp - BitVec.ofNat 32 (17 + j + length)) = contentWord c := by
      rw [show 17 + j + length = 16 + length + j + 1 by omega]
      exact hread _ _ ((callFrameWords_end s index j).trans h)
    rw [hindex, bind_ok, if_neg hgood, hgate, bind_ok, henter]
    refine ⟨_, finish_ok _ _, rfl, rfl, rfl, fun i => ?_, ?_, ?_, ?_, fun k w h => htrailer h,
      fun k h => htrailer h, hend 0 rfl, hend 1 rfl, hout, rfl, rfl, rfl, rfl,
      ⟨rfl, rfl, rfl, rfl, rfl, rfl⟩, ⟨rfl, rfl, rfl, rfl, rfl⟩, ⟨rfl, rfl, rfl, rfl, rfl⟩⟩
    · rw [sub_one_sub_ofNat]
      exact hregister (savedRegisters_gpr s _ i)
    · exact hregister (savedRegisters_rest s _ 0)
    · exact hregister (savedRegisters_rest s _ 1)
    · exact hregister (savedRegisters_rest s _ 2)

/-! ### IRET: the words it pops -/

theorem add_one_add_ofNat (a : Word) (k : Nat) :
    a + 1 + BitVec.ofNat 32 k = a + BitVec.ofNat 32 (k + 1) := by
  have hsucc : BitVec.ofNat 32 (k + 1) = BitVec.ofNat 32 k + 1 := BitVec.ofNat_add k 1
  rw [hsucc]
  ring

/-- A run of words that can all be read, word by word. -/
theorem readRun_words {s : State} {a : Word} {n : Nat} (w : Fin n → Word)
    (h : ∀ k : Fin n, readWord s (a + BitVec.ofNat 32 k.val) = .ok (w k)) :
    ∃ saved, readRun s a n = .ok saved ∧ ∀ k : Fin n, saved.getD k.val 0 = w k := by
  refine ⟨_, readRun_eq s n a (fun k => if hk : k < n then w ⟨k, hk⟩ else 0) fun k hk => ?_, ?_⟩
  · rw [dif_pos hk]
    exact h ⟨k, hk⟩
  · intro k
    simp [List.getD_eq_getElem?_getD]

/-- A run of words ends at the first that cannot be read, with its interrupt. -/
theorem readRun_raised {s : State} {i : Interrupt} {n k : Nat} {a : Word} (hk : k < n)
    (hbefore : ∀ j, j < k → ∃ w, readWord s (a + BitVec.ofNat 32 j) = .ok w)
    (h : readWord s (a + BitVec.ofNat 32 k) = raised i) : readRun s a n = raised i := by
  induction n generalizing a k with
  | zero => exact absurd hk (Nat.not_lt_zero k)
  | succ n ih =>
    have hzero : a + BitVec.ofNat 32 0 = a := by simp
    cases k with
    | zero =>
      rw [hzero] at h
      rw [readRun, h, bind_raised]
    | succ k =>
      obtain ⟨w, hw⟩ := hbefore 0 (Nat.succ_pos k)
      rw [hzero] at hw
      have hrest : readRun s (a + 1) n = raised i :=
        ih (Nat.lt_of_succ_lt_succ hk)
          (fun j hj => by
            rw [add_one_add_ofNat]
            exact hbefore (j + 1) (Nat.succ_lt_succ hj))
          (by rw [add_one_add_ofNat]; exact h)
      rw [readRun, hw, bind_ok, hrest, map_raised]

section Return

variable {s : State} {i : Interrupt} {marker oldFlags : Word}

theorem returnFromInterrupt_noMarker (h : readWord s s.syssp = raised i) :
    returnFromInterrupt s = raised i := by rw [returnFromInterrupt, h, bind_raised]

theorem returnFromInterrupt_noFlags (hmarker : readWord s s.syssp = .ok marker)
    (h : readWord s (s.syssp + 1) = raised i) : returnFromInterrupt s = raised i := by
  rw [returnFromInterrupt, hmarker, bind_ok, h, bind_raised]

/-- D22, log 23: a frame is told by its marker. -/
theorem returnFromInterrupt_otherMarker (hmarker : readWord s s.syssp = .ok marker)
    (hflags : readWord s (s.syssp + 1) = .ok oldFlags) (h : marker ≠ 38) :
    returnFromInterrupt s = refused (.frameMarker marker) := by
  rw [returnFromInterrupt, hmarker, bind_ok, hflags, bind_ok, frameMarker, if_pos h]

theorem returnFromInterrupt_frame (hmarker : readWord s s.syssp = .ok 38)
    (hflags : readWord s (s.syssp + 1) = .ok oldFlags) :
    returnFromInterrupt s = (readRun s (s.syssp + 5) 16).map (restoreFrame s oldFlags) := by
  rw [returnFromInterrupt, hmarker, bind_ok, hflags, bind_ok, frameMarker,
    if_neg (not_not.mpr rfl)]

end Return

/-! ### IRET: what it restores -/

section Restore

variable (s : State) (oldFlags : Word) (saved : List Word)

@[simp] theorem restoreFrame_flags :
    (restoreFrame s oldFlags saved).flags = Flags.ofWord oldFlags := by simp [restoreFrame]

theorem restoreFrame_pc : (restoreFrame s oldFlags saved).pc = saved.getD 0 0 := rfl

theorem getReg_restoreFrame_fp :
    getReg (restoreFrame s oldFlags saved) .fp = saved.getD 1 0 := by
  rw [restoreFrame, getReg_jump _ _ (by decide), getReg_setReg_same]

theorem getReg_restoreFrame_sp :
    getReg (restoreFrame s oldFlags saved) .sp = saved.getD 2 0 := by
  rw [restoreFrame, getReg_jump _ _ (by decide), getReg_setReg_other _ _ (by decide),
    getReg_setReg_same]

theorem getReg_restoreFrame_r (i : Fin 13) :
    getReg (restoreFrame s oldFlags saved) (.r i) = saved.getD (15 - i.val) 0 := by
  rw [restoreFrame, getReg_jump _ _ (by simp), getReg_setReg_other _ _ (by simp),
    getReg_setReg_other _ _ (by simp)]
  simp [getReg]

/-- SP and FP of the mode that is not restored: the system stack has lost the frame. -/
theorem dormantBank_restoreFrame :
    dormantBank (restoreFrame s oldFlags saved) =
      if (Flags.ofWord oldFlags).sys then (s.usp, s.ufp) else (s.syssp + 21, s.sysfp) := by
  change dormantBank (setReg (setReg _ .sp _) .fp _) = _
  rw [dormantBank_setReg, dormantBank_setReg]
  rfl

theorem sameSpecials_restoreFrame : SameSpecials s (restoreFrame s oldFlags saved) := by
  constructor <;> simp [restoreFrame]

theorem sameMemory_restoreFrame : SameMemory s (restoreFrame s oldFlags saved) := fun q => by
  simp [restoreFrame]

theorem sameHost_restoreFrame : SameHost s (restoreFrame s oldFlags saved) := by
  constructor <;> simp [restoreFrame]

end Restore

/-- Settles O29, in the order of the pops: the marker, the flags, then the sixteen saved registers. -/
theorem iretRestoresFrame : Obligations.IretRestoresFrame := by
  intro s
  refine ⟨fun hs => ?system, exec_iret_user⟩
  rw [exec_iret hs]
  refine ⟨fun i hi => ?noMarker, fun m i hm hi => ?noFlags, fun oldFlags hflags =>
    ⟨fun w hm hw => ?restored, fun k i hm hbefore hi => ?noRegister, fun m hm hother => ?refused⟩⟩
  case noMarker => rw [returnFromInterrupt_noMarker hi, finish_raised]
  case noFlags => rw [returnFromInterrupt_noFlags hm hi, finish_raised]
  case restored =>
    obtain ⟨saved, hsaved, hword⟩ := readRun_words w hw
    rw [returnFromInterrupt_frame hm hflags, hsaved, map_ok]
    have hbank := dormantBank_restoreFrame s oldFlags saved
    refine ⟨_, finish_ok _ _, ?_, ?_, ?_, ?_, fun i => ?_, fun hsys => ?_, fun hsys => ?_,
      { sameSpecials_restoreFrame s oldFlags saved with },
      sameMemory_restoreFrame s oldFlags saved,
      { sameDevices_restoreFrame s oldFlags saved with },
      { sameHost_restoreFrame s oldFlags saved with }⟩
    · exact (congrArg Flags.toWord (restoreFrame_flags s oldFlags saved)).trans
        (Flags.toWord_ofWord oldFlags)
    · exact (restoreFrame_pc s oldFlags saved).trans (hword 0)
    · rw [getReg_retired, getReg_restoreFrame_fp]
      exact hword 1
    · rw [getReg_retired, getReg_restoreFrame_sp]
      exact hword 2
    · rw [getReg_retired, getReg_restoreFrame_r]
      exact hword ⟨15 - i.val, by omega⟩
    · simp only [restoreFrame_flags] at hsys
      simpa [dormantBank, hsys] using hbank
    · simp only [restoreFrame_flags] at hsys
      simpa [dormantBank, hsys] using hbank
  case noRegister =>
    have hrun : readRun s (s.syssp + 5) 16 = raised i :=
      readRun_raised k.isLt (fun j hj => hbefore ⟨j, hj.trans k.isLt⟩ hj) hi
    rw [returnFromInterrupt_frame hm hflags, hrun, map_raised, finish_raised]
  case refused => rw [returnFromInterrupt_otherMarker hm hflags hother, finish_refused]

/-! ### HALT -/

/-- D35, log 13: the timer is not counted once R is clear. -/
theorem countDown_halted {s : State} (h : s.flags.r = false) : countDown s = .next s := by
  simp [countDown, h]

/-- Settles O27: with R clear no step is taken and no timer counted. -/
theorem haltStopsOrTraps : Obligations.HaltStopsOrTraps := by
  intro s
  refine ⟨fun hs => ?_, exec_halt_user⟩
  rw [exec_halt hs]
  refine ⟨_, finish_ok _ _, rfl, ?frame, ?timer, fun dec => stepWith_halted dec rfl⟩
  case frame =>
    exact
      { registers := ⟨rfl, rfl, rfl, rfl, rfl⟩
        specials := ⟨rfl, rfl, rfl, rfl, rfl, rfl⟩
        memory := fun _ => rfl
        devices := ⟨rfl, rfl, rfl, rfl, rfl⟩
        host := ⟨rfl, rfl, rfl, rfl, rfl⟩ }
  case timer => exact countDown_halted rfl

/-! ### PHLOAD and PHSTORE -/

theorem present_of_lt {s : State} {p : Word} (h : p.toNat < s.params.physWords) :
    present s p = true := decide_eq_true h

theorem absent_of_le {s : State} {p : Word} (h : s.params.physWords ≤ p.toNat) :
    present s p = false := decide_eq_false (Nat.not_lt.mpr h)

/-- Settles O30, by the mode, what the operand delivers, and whether the word exists. -/
theorem phloadPhstoreReachPhysicalWords : Obligations.PhloadPhstoreReachPhysicalWords := by
  intro reg op s
  refine ⟨fun p hs hreg hp => ?load, fun p hs hp => ?store, fun i hs hi => ?faults,
    fun hs => ⟨exec_phload_user hs, exec_phstore_user hs⟩⟩
  case load =>
    rw [exec_phload hs hreg, hp, bind_ok]
    refine ⟨fun hin => ?_, fun hout => ?_⟩
    · rw [physRead_present (present_of_lt hin), map_ok]
      exact finish_setReg_advance s _ hreg
    · rw [physRead_absent (absent_of_le hout), map_raised, finish_raised]
  case store =>
    rw [exec_phstore hs, hp, bind_ok, physWrite]
    refine ⟨fun hin => ?_, fun hout => ?_⟩
    · rw [physPut_present _ (present_of_lt hin), map_ok]
      exact ⟨_, finish_ok _ _, Memory.read_put_same _ _ _, (wordOnly_put s p _).completed true, rfl⟩
    · rw [physPut_absent _ (absent_of_le hout), map_raised, finish_raised]
  case faults =>
    refine ⟨fun hreg => ?_, ?_⟩
    · rw [exec_phload hs hreg, hi, bind_raised, finish_raised]
    · rw [exec_phstore hs, hi, bind_raised, finish_raised]

end Sys2Proof.Machine
end

section
/-! PROOFS of the family 44_peri_disc_tape.md: PERI itself, the disc operations and the tape operations (R140
to R156). -/

namespace Sys2Proof.Machine

/-! ### What a device leaves of the machine -/

/-- The state `s` with all that a device reaches as in `t`: memory, the devices, the host's coming answers and
clock readings, the counter of free values. -/
def withDevicesOf (s t : State) : State :=
  { s with
    mem := t.mem
    discs := t.discs
    tapes := t.tapes
    keyboard := t.keyboard
    screen := t.screen
    files := t.files
    answers := t.answers
    clock := t.clock
    draws := t.draws }

/-- From `s` to `t` a device has worked: the registers, the flags and the settings are as they were. -/
def DeviceOnly (s t : State) : Prop := t = withDevicesOf s t

namespace DeviceOnly

variable {s t : State}

theorem refl (s : State) : DeviceOnly s s := rfl

theorem map {α : Type} (f : State → α) (h : DeviceOnly s t) : f t = f (withDevicesOf s t) :=
  congrArg f h

theorem flags (h : DeviceOnly s t) : t.flags = s.flags := h.map State.flags

theorem pc (h : DeviceOnly s t) : t.pc = s.pc := h.map State.pc

theorem params (h : DeviceOnly s t) : t.params = s.params := h.map State.params

theorem running (h : DeviceOnly s t) : t.running = s.running := h.map State.running

theorem getReg (h : DeviceOnly s t) (q : Reg) : getReg t q = getReg s q :=
  (h.map (Machine.getReg · q)).trans (by cases q <;> rfl)

theorem dormantBank (h : DeviceOnly s t) : dormantBank t = dormantBank s :=
  h.map Machine.dormantBank

theorem specials (h : DeviceOnly s t) : SameSpecials s t where
  pdbr := h.map State.pdbr
  intvec := h.map State.intvec
  cgbr := h.map State.cgbr
  cglen := h.map State.cglen
  debug := h.map State.debug
  timer := h.map State.timer

end DeviceOnly

/-! ### How a PERI ends (R140) -/

@[simp] theorem getReg_flags_err (s : State) (b : Bool) (q : Reg) :
    getReg { s with flags := { s.flags with err := b } } q = getReg s q := by cases q <;> rfl

/-- The result register, ERR and PC are what the CPU writes once the device is done. -/
theorem periEnds_reportResult {s t : State} {reg : Reg} (code : Word) (hreg : reg ≠ .pc)
    (ht : DeviceOnly s t) :
    PeriEnds s { reportResult reg t code with retired := true } reg code where
  result := by
    rw [getReg_retired, reportResult, getReg_advance _ hreg, getReg_setReg_same]
  flags := by simp [reportResult, ht.flags]
  registers :=
    { mode := by simp [reportResult, ht.flags]
      others := fun q hq hpc => by
        rw [getReg_retired, reportResult, getReg_advance _ hpc, getReg_setReg_other _ _ hq,
          getReg_flags_err, ht.getReg]
      dormant := (dormantBank_setReg _ reg code).trans ht.dormantBank }
  specials :=
    { pdbr := by simp [reportResult, ht.specials.pdbr]
      intvec := by simp [reportResult, ht.specials.intvec]
      cgbr := by simp [reportResult, ht.specials.cgbr]
      cglen := by simp [reportResult, ht.specials.cglen]
      debug := by simp [reportResult, ht.specials.debug]
      timer := by simp [reportResult, ht.specials.timer] }
  pc := by simp [reportResult, setReg_pc_of_ne _ _ hreg, ht.pc]
  params := by simp [reportResult, ht.params]
  running := by simp [reportResult, ht.running]

theorem ctlRead_zero (s : State) (cs : Word) : ctlRead s cs 0 = readWord s cs := by
  simp [ctlRead]

/-- How PERI completes, by how its operation ended. -/
def endPeri (reg : Reg) : PeriResult → Host.Outcome State Fault Refusal
  | .done t code => .next { reportResult reg t code with retired := true }
  | .refused r => .refused r
  | .never => .fault .neverEnds

section Peri

variable {s t : State} {reg : Reg} {op : Operand} {cs code : Word} {k : PeriOp}

theorem exec_peri_raised {i : Interrupt} (hs : s.flags.sys = true) (hreg : reg ≠ .pc)
    (hop : operandValue s op = raised i) : exec (.peri reg op) s = takeInterrupt i s := by
  change execPeri reg op s = _
  rw [execPeri, if_pos hs, guardDestination_of_ne hreg, bind_ok, hop]
  rfl

theorem exec_peri (hs : s.flags.sys = true) (hreg : reg ≠ .pc)
    (hop : operandValue s op = .ok cs) :
    exec (.peri reg op) s = endPeri reg (operation s cs) := by
  change execPeri reg op s = _
  rw [execPeri, if_pos hs, guardDestination_of_ne hreg, bind_ok, hop]
  cases h : operation s cs <;> simp only [h, endPeri, finish_ok]

/-- A PERI whose operation ends with a result code. -/
theorem exec_peri_done (hs : s.flags.sys = true) (hreg : reg ≠ .pc)
    (hop : operandValue s op = .ok cs) (hrun : operation s cs = .done t code)
    (ht : DeviceOnly s t) :
    ∃ u, exec (.peri reg op) s = .next u ∧ PeriEnds s u reg code ∧ u.mem = t.mem ∧
      SameDevices t u ∧ SameHost t u := by
  refine ⟨_, by rw [exec_peri hs hreg hop, hrun, endPeri], periEnds_reportResult code hreg ht, ?_,
    ⟨?_, ?_, ?_, ?_, ?_⟩, ⟨?_, ?_, ?_, ?_, ?_⟩⟩
  all_goals simp [reportResult]

/-- A PERI whose operation only answers. -/
theorem exec_peri_reports (hs : s.flags.sys = true) (hreg : reg ≠ .pc)
    (hop : operandValue s op = .ok cs) (hrun : operation s cs = .done s code) :
    ∃ u, exec (.peri reg op) s = .next u ∧ PeriEnds s u reg code ∧ SameMemory s u ∧
      SameDevices s u ∧ SameHost s u := by
  obtain ⟨u, hnext, hends, hmem, hdevices, hhost⟩ :=
    exec_peri_done hs hreg hop hrun (DeviceOnly.refl s)
  exact ⟨u, hnext, hends, fun q => by rw [hmem], hdevices, hhost⟩

theorem PeriStarts.operation (h : PeriStarts s reg op cs k) : operation s cs = runPeri s cs k := by
  rw [Machine.operation, ctlRead_zero, h.code, orFail_ok, periOpOf_periCodeOf h.codes]

theorem PeriStarts.op_unique {j : PeriOp} (hj : PeriStarts s reg op cs j)
    (hk : PeriStarts s reg op cs k) : j = k := by
  have hcodes : periCodeOf s.params j = periCodeOf s.params k :=
    Except.ok.inj (hj.code.symm.trans hk.code)
  have hops := periOpOf_periCodeOf hj.codes j
  rw [hcodes, periOpOf_periCodeOf hj.codes k] at hops
  exact (Option.some.inj hops).symm

theorem PeriStarts.ends (h : PeriStarts s reg op cs k) (hrun : runPeri s cs k = .done t code)
    (ht : DeviceOnly s t) :
    ∃ u, exec (.peri reg op) s = .next u ∧ PeriEnds s u reg code ∧ u.mem = t.mem ∧
      SameDevices t u ∧ SameHost t u :=
  exec_peri_done h.mode h.result h.structureAt (h.operation.trans hrun) ht

theorem PeriStarts.reports_sameHost (h : PeriStarts s reg op cs k)
    (hrun : runPeri s cs k = .done s code) :
    ∃ u, exec (.peri reg op) s = .next u ∧ PeriEnds s u reg code ∧ SameMemory s u ∧
      SameDevices s u ∧ SameHost s u :=
  exec_peri_reports h.mode h.result h.structureAt (h.operation.trans hrun)

theorem PeriStarts.reports (h : PeriStarts s reg op cs k)
    (hrun : runPeri s cs k = .done s code) :
    ∃ u, exec (.peri reg op) s = .next u ∧ PeriEnds s u reg code ∧ SameMemory s u ∧
      SameDevices s u := by
  obtain ⟨u, hnext, hends, hmem, hdevices, -⟩ := h.reports_sameHost hrun
  exact ⟨u, hnext, hends, hmem, hdevices⟩

theorem PeriStarts.refused {r : Refusal} (h : PeriStarts s reg op cs k)
    (hrun : runPeri s cs k = .refused r) : exec (.peri reg op) s = .refused r := by
  rw [exec_peri h.mode h.result h.structureAt, h.operation, hrun, endPeri]

end Peri

/-! ### The words of a control structure (R141) -/

section Control

variable {s : State} {cs a b c d : Word} {i : Interrupt}

theorem ctlRead_one {x : Access Word} (h : readWord s (cs + 1) = x) : ctlRead s cs 1 = x := h

theorem ctlRead2_ok (ha : readWord s (cs + 1) = .ok a) (hb : readWord s (cs + 2) = .ok b) :
    ctlRead2 s cs = .ok (a, b) := by
  have hb' : ctlRead s cs 2 = .ok b := hb
  rw [ctlRead2, ctlRead_one ha, bind_ok, hb', map_ok]

theorem ctlRead3_ok (ha : readWord s (cs + 1) = .ok a) (hb : readWord s (cs + 2) = .ok b)
    (hc : readWord s (cs + 3) = .ok c) : ctlRead3 s cs = .ok (a, b, c) := by
  have hb' : ctlRead s cs 2 = .ok b := hb
  have hc' : ctlRead s cs 3 = .ok c := hc
  rw [ctlRead3, ctlRead_one ha, bind_ok, hb', bind_ok, hc', map_ok]

theorem ctlRead4_ok (ha : readWord s (cs + 1) = .ok a) (hb : readWord s (cs + 2) = .ok b)
    (hc : readWord s (cs + 3) = .ok c) (hd : readWord s (cs + 4) = .ok d) :
    ctlRead4 s cs = .ok (a, b, c, d) := by
  have hb' : ctlRead s cs 2 = .ok b := hb
  have hc' : ctlRead s cs 3 = .ok c := hc
  have hd' : ctlRead s cs 4 = .ok d := hd
  rw [ctlRead4, ctlRead_one ha, bind_ok, hb', bind_ok, hc', bind_ok, hd', map_ok]

theorem ctlRead2_raised (h : readWord s (cs + 1) = raised i) : ctlRead2 s cs = raised i := by
  rw [ctlRead2, ctlRead_one h, bind_raised]

theorem ctlRead3_raised (h : readWord s (cs + 1) = raised i) : ctlRead3 s cs = raised i := by
  rw [ctlRead3, ctlRead_one h, bind_raised]

theorem ctlRead4_raised (h : readWord s (cs + 1) = raised i) : ctlRead4 s cs = raised i := by
  rw [ctlRead4, ctlRead_one h, bind_raised]

/-- D24: the second word comes first of those that an operation reads; $SECONDS reads none, and $USECONDS
writes. -/
theorem runPeri_secondWord_raised {k : PeriOp} (hseconds : k ≠ .seconds)
    (huseconds : k ≠ .useconds) (h : readWord s (cs + 1) = raised i) :
    runPeri s cs k = .done s errReadParams := by
  cases k with
  | discCheck | tapeCheck | tapeRewind | tapeUnload | dateTime =>
    simp only [runPeri, discCheck, tapeCheck, tapeRewind, tapeUnload, dateTime, ctlRead_one h,
      orFail_raised]
  | tapeRead | termInC | termInW | termOutC | termOutW =>
    simp only [runPeri, tapeRead, termInC, termInW, termOutC, termOutW, termIn, termOut,
      ctlRead2_raised h, orFail_raised]
  | tapeLoad | tapeWrite =>
    simp only [runPeri, tapeLoad, tapeWrite, ctlRead3_raised h, orFail_raised]
  | discRead | discWrite =>
    simp only [runPeri, discRead, discWrite, ctlRead4_raised h, orFail_raised]
  | seconds => exact absurd rfl hseconds
  | useconds => exact absurd rfl huseconds

end Control

/-! ### The operation code (R144) -/

theorem periOpOf_eq_none {p : Params} {code : Word} (h : ∀ k, periCodeOf p k ≠ code) :
    periOpOf p code = none := by
  rw [periOpOf, List.find?_eq_none]
  exact fun k _ => by simpa using h k

theorem operation_unknownCode {s : State} {cs code : Word} (hcode : readWord s cs = .ok code)
    (h : ∀ k, periCodeOf s.params k ≠ code) : operation s cs = .done s errBadCode := by
  rw [operation, ctlRead_zero, hcode, orFail_ok, periOpOf_eq_none h]

theorem operation_unreadableCode {s : State} {cs : Word} {i : Interrupt}
    (h : readWord s cs = raised i) : operation s cs = .done s errReadParams := by
  rw [operation, ctlRead_zero, h, orFail_raised]

/-- Settles O38, by the first access that fails: PERI's own operand, the operation code, the second word. -/
theorem periRejectsBadCode : Obligations.PeriRejectsBadCode := by
  intro reg op s hs hreg
  refine ⟨fun i hi => exec_peri_raised hs hreg hi, fun cs hcs =>
    ⟨fun code hcode hunknown => ?badCode, fun i hi => ?noCode, fun k i h hsec huse hi => ?noSecond⟩⟩
  case badCode =>
    obtain ⟨u, hnext, hends, hmem, hdevices, -⟩ :=
      exec_peri_reports hs hreg hcs (operation_unknownCode hcode hunknown)
    exact ⟨u, hnext, hends, hmem, hdevices⟩
  case noCode =>
    obtain ⟨u, hnext, hends, hmem, hdevices, -⟩ :=
      exec_peri_reports hs hreg hcs (operation_unreadableCode hi)
    exact ⟨u, hnext, hends, hmem, hdevices⟩
  case noSecond => exact h.reports (runPeri_secondWord_raised hsec huse hi)

/-! ### Units and drives (R145, R149) -/

theorem unitOf_outside {u : Word} (h : u.toInt < 1 ∨ 8 < u.toInt) : unitOf u = none := if_pos h

theorem unitOf_inside {u : Word} {i : Fin 8} (h : u.toNat = i.val + 1) : unitOf u = some i := by
  have hi := i.isLt
  have hsigned : signed u = i.val + 1 := by
    rw [signed, BitVec.toInt_eq_toNat_cond]
    omega
  have hin : ¬ (signed u < 1 ∨ 8 < signed u) := by omega
  rw [unitOf, if_neg hin, h, Nat.add_sub_cancel]
  exact congrArg some (Fin.ext (Nat.mod_eq_of_lt hi))

section Units

variable {s : State} {d : Word} {i : Fin 8} {disc : Disc} {tape : Tape} {mode : TapeMode}

theorem driveOf_configured (hd : d.toNat = i.val + 1) (h : s.discs[i] = some disc) :
    driveOf s d = some (i, disc) := by
  simp only [driveOf, unitOf_inside hd, h, Option.map_some]

theorem driveOf_unavailable
    (h : d.toInt < 1 ∨ 8 < d.toInt ∨ ∃ i : Fin 8, d.toNat = i.val + 1 ∧ s.discs[i] = none) :
    driveOf s d = none := by
  rw [← or_assoc] at h
  rcases h with hout | ⟨i, hd, hi⟩
  · simp only [driveOf, unitOf_outside hout]
  · simp only [driveOf, unitOf_inside hd, hi, Option.map_none]

theorem tapeOf_loaded (hd : d.toNat = i.val + 1) (h : s.tapes[i] = some tape)
    (hmode : tape.mode = mode) : tapeOf s d mode = some (i, tape) := by
  simp only [tapeOf, unitOf_inside hd, h, hmode, if_true]

/-- D25: a unit is not available for the one mode when it is unloaded or loaded in the other. -/
theorem tapeOf_unavailable {other : TapeMode} (hother : other ≠ mode)
    (h : d.toInt < 1 ∨ 8 < d.toInt ∨ ∃ i : Fin 8, d.toNat = i.val + 1 ∧
      (s.tapes[i] = none ∨ ∃ tape, s.tapes[i] = some tape ∧ tape.mode = other)) :
    tapeOf s d mode = none := by
  rw [← or_assoc] at h
  rcases h with hout | ⟨i, hd, hi | ⟨tape, hi, hmode⟩⟩
  · simp only [tapeOf, unitOf_outside hout]
  · simp only [tapeOf, unitOf_inside hd, hi]
  · simp only [tapeOf, unitOf_inside hd, hi, hmode, hother, if_false]

end Units

end Sys2Proof.Machine
end

section
/-! PROOFS of the family 44_peri_disc_tape.md, the disc operations (R145 to R147), and the transfers between
memory and a device that the tape operations make too. -/

namespace Sys2Proof.Machine

/-! ### Untranslated buffers -/

theorem toNat_add_ofNat {a : Word} {k : Nat} (h : a.toNat + k < 2 ^ 32) :
    (a + BitVec.ofNat 32 k).toNat = a.toNat + k := by
  rw [BitVec.toNat_add, BitVec.toNat_ofNat]
  omega

@[simp] theorem addressRun_length (a : Word) (n : Nat) : (addressRun a n).length = n := by
  simp [addressRun]

theorem mem_addressRun {a q : Word} {n : Nat} :
    q ∈ addressRun a n ↔ ∃ k, k < n ∧ a + BitVec.ofNat 32 k = q := by
  simp [addressRun]

theorem inBuffer_of_mem_addressRun {a q : Word} {n : Nat} (hroom : a.toNat + n ≤ 2 ^ 32)
    (hq : q ∈ addressRun a n) : inBuffer a n q := by
  obtain ⟨k, hk, rfl⟩ := mem_addressRun.mp hq
  rw [inBuffer, toNat_add_ofNat (by omega)]
  omega

theorem addressRun_nodup {a : Word} {n : Nat} (hroom : a.toNat + n ≤ 2 ^ 32) :
    (addressRun a n).Nodup := by
  refine List.Nodup.map_on (fun j hj k hk hjk => ?_) List.nodup_range
  have hnat := congrArg BitVec.toNat hjk
  rw [List.mem_range] at hj hk
  rw [toNat_add_ofNat (by omega), toNat_add_ofNat (by omega)] at hnat
  omega

/-- The words of a buffer, as the CPU would read them. -/
def bufferWords (s : State) (m : Word) (n : Nat) : List Word :=
  (List.range n).map fun k => s.mem.read (m + BitVec.ofNat 32 k)

@[simp] theorem bufferWords_length (s : State) (m : Word) (n : Nat) :
    (bufferWords s m n).length = n := by simp [bufferWords]

theorem bufferWords_get (s : State) (m : Word) {n k : Nat} (hk : k < n) :
    (bufferWords s m n)[k]? = some (s.mem.read (m + BitVec.ofNat 32 k)) := by
  simp [bufferWords, hk]

namespace PlainBuffer

variable {s : State} {m : Word} {n : Nat}

theorem room (h : PlainBuffer s m n) : m.toNat + n ≤ 2 ^ 32 := h.present.trans h.addresses

theorem mono {k : Nat} (h : PlainBuffer s m n) (hk : k ≤ n) : PlainBuffer s m k where
  untranslated := h.untranslated
  present := (Nat.add_le_add_left hk _).trans h.present
  addresses := h.addresses

theorem present_of_inBuffer {q : Word} (h : PlainBuffer s m n) (hq : inBuffer m n q) :
    Machine.present s q = true := present_of_lt (Nat.lt_of_lt_of_le hq.2 h.present)

theorem readWord {k : Nat} (h : PlainBuffer s m n) (hk : k < n) :
    readWord s (m + BitVec.ofNat 32 k) = .ok (s.mem.read (m + BitVec.ofNat 32 k)) :=
  readWord_present (translate_of_vm_off _ h.untranslated)
    (h.present_of_inBuffer
      (inBuffer_of_mem_addressRun h.room (mem_addressRun.mpr ⟨k, hk, rfl⟩)))

theorem readRun (h : PlainBuffer s m n) : readRun s m n = .ok (bufferWords s m n) :=
  readRun_eq s n m _ fun _ hk => h.readWord hk

/-- A transfer into a buffer is made whole, and reaches no word outside it. -/
theorem storeAll {words : List Content} (h : PlainBuffer s m words.length) :
    ∃ mem us, storeAll s [] ((addressRun m words.length).zip words) = .done { s with mem := mem } us ∧
      (∀ k c, words[k]? = some c → mem.read (m + BitVec.ofNat 32 k) = contentWord c) ∧
      ∀ q, ¬ inBuffer m words.length q → mem.read q = s.mem.read q := by
  have haddrs : ((addressRun m words.length).zip words).map Prod.fst = addressRun m words.length :=
    List.map_fst_zip (by rw [addressRun_length])
  have hin : ∀ e ∈ (addressRun m words.length).zip words, inBuffer m words.length e.1 :=
    fun e he => inBuffer_of_mem_addressRun h.room (List.of_mem_zip he).1
  obtain ⟨mem, us, hrun, hstored, hother⟩ := storeAll_plain _ s [] h.untranslated
    (fun e he => h.present_of_inBuffer (hin e he)) (by rw [haddrs]; exact addressRun_nodup h.room)
  refine ⟨mem, us, hrun, fun k c hc => ?_, fun q hq => hother q fun hmem => hq ?_⟩
  · have hk : k < words.length := (List.getElem?_eq_some_iff.mp hc).1
    refine hstored (m + BitVec.ofNat 32 k, c) (List.mem_of_getElem? (i := k) ?_)
    exact List.getElem?_zip_eq_some.mpr ⟨by simp [addressRun, hk], hc⟩
  · exact inBuffer_of_mem_addressRun h.room (haddrs ▸ hmem)

/-- So is a transfer by which an operation ends. -/
theorem deliver {words : List Content} (h : PlainBuffer s m words.length) (failCode : Word)
    (k : State → List Word → PeriResult) :
    ∃ mem us, deliver s m words failCode k = k { s with mem := mem } us ∧
      (∀ j c, words[j]? = some c → mem.read (m + BitVec.ofNat 32 j) = contentWord c) ∧
      ∀ q, ¬ inBuffer m words.length q → mem.read q = s.mem.read q := by
  obtain ⟨mem, us, hrun, hrest⟩ := h.storeAll
  exact ⟨mem, us, by simp only [Machine.deliver, hrun], hrest⟩

end PlainBuffer

/-! ### Blocks of a disc -/

/-- The words of a disc from position `k` on. -/
def discContents (i : Fin 8) (disc : Disc) (k count : Nat) : List Content :=
  (List.range count).map fun j => discWord i disc (k + j)

@[simp] theorem discContents_length (i : Fin 8) (disc : Disc) (k count : Nat) :
    (discContents i disc k count).length = count := by simp [discContents]

theorem discContents_get (i : Fin 8) (disc : Disc) (k : Nat) {count j : Nat} (hj : j < count) :
    (discContents i disc k count)[j]? = some (discWord i disc (k + j)) := by
  simp [discContents, hj]

theorem discWord_writeDiscWords (i : Fin 8) (disc : Disc) (k : Nat) {ws : List Content} {j : Nat}
    {c : Content} (hj : ws[j]? = some c) : discWord i (writeDiscWords disc k ws) (k + j) = c := by
  have hlt : j < ws.length := (List.getElem?_eq_some_iff.mp hj).1
  rw [discWord, writeDiscWords_find, if_pos (by omega), Nat.add_sub_cancel_left, hj,
    Option.getD_some]

theorem discWord_writeDiscWords_outside (i : Fin 8) (disc : Disc) {k p : Nat} {ws : List Content}
    (hp : p < k ∨ k + ws.length ≤ p) :
    discWord i (writeDiscWords disc k ws) p = discWord i disc p := by
  rw [discWord, writeDiscWords_find, if_neg (by omega), discWord]

theorem signed_of_pos {n : Word} (h : 0 < n.toInt) : signed n = n.toNat :=
  signed_eq_toNat (Int.not_lt.mpr h.le)

theorem signed_of_small {b : Word} (h : b.toNat < 2 ^ 31) : signed b = b.toNat :=
  signed_eq_toNat (by rw [signed_neg_iff]; omega)

section Blocks

variable {disc : Disc} {b n : Word}

theorem blocksOutside_of_fit (hn : 0 < n.toInt) (hb : b.toNat < 2 ^ 31)
    (hfit : b.toNat + n.toNat ≤ disc.size) : blocksOutside disc b n = false := by
  simp only [blocksOutside, Bool.and_eq_false_iff, Bool.or_eq_false_iff, decide_eq_false_iff_not,
    signed_of_pos hn, signed_of_small hb]
  omega

theorem blocksOutside_of_outside (hn : 0 < n.toInt)
    (hout : 2 ^ 31 ≤ b.toNat ∨ disc.size < b.toNat + n.toNat) :
    blocksOutside disc b n = true := by
  simp only [blocksOutside, Bool.and_eq_true, Bool.or_eq_true, decide_eq_true_eq]
  refine ⟨hn, ?_⟩
  by_cases hb : 2 ^ 31 ≤ b.toNat
  · exact .inl ((signed_neg_iff b).mpr hb)
  · rw [signed_of_small (Nat.not_le.mp hb), signed_of_pos hn]
    omega

end Blocks

/-! ### The disc operations, case by case -/

section DiscCheck

variable {s : State} {cs d : Word} (hd : readWord s (cs + 1) = .ok d)
include hd

theorem discCheck_outside (h : d.toInt < 1 ∨ 8 < d.toInt) :
    discCheck s cs = .done s errDevNumber := by
  simp only [discCheck, ctlRead_one hd, orFail_ok, unitOf_outside h]

theorem discCheck_absent {i : Fin 8} (hi : d.toNat = i.val + 1) (h : s.discs[i] = none) :
    discCheck s cs = .done s 0 := by
  simp only [discCheck, ctlRead_one hd, orFail_ok, unitOf_inside hi, h]

theorem discCheck_configured {i : Fin 8} {disc : Disc} (hi : d.toNat = i.val + 1)
    (h : s.discs[i] = some disc) : discCheck s cs = .done s (BitVec.ofNat 32 disc.size) := by
  simp only [discCheck, ctlRead_one hd, orFail_ok, unitOf_inside hi, h]

end DiscCheck

/-- Settles O39, by what the drive number names. -/
theorem discCheckReportsSize : Obligations.DiscCheckReportsSize := by
  intro reg op s cs d hstart hd
  refine ⟨fun h => hstart.reports (discCheck_outside hd h), fun i hi =>
    ⟨fun h => hstart.reports (discCheck_absent hd hi h), fun disc h _ =>
      hstart.reports (discCheck_configured hd hi h)⟩⟩

section DiscTransfer

variable {s : State} {cs d b n m : Word} (hd : readWord s (cs + 1) = .ok d)
  (hb : readWord s (cs + 2) = .ok b) (hn : readWord s (cs + 3) = .ok n)
  (hm : readWord s (cs + 4) = .ok m)
include hd hb hn hm

theorem discRead_noDrive (h : driveOf s d = none) : discRead s cs = .done s errDevNumber := by
  simp only [discRead, ctlRead4_ok hd hb hn hm, orFail_ok, h]

theorem discWrite_noDrive (h : driveOf s d = none) : discWrite s cs = .done s errDevNumber := by
  simp only [discWrite, ctlRead4_ok hd hb hn hm, orFail_ok, h]

variable {i : Fin 8} {disc : Disc} (hdrive : driveOf s d = some (i, disc)) (hpos : 0 < n.toInt)
include hdrive hpos

theorem discRead_outside (hout : blocksOutside disc b n = true) :
    discRead s cs = .done s errPosition := by
  have hneg : ¬ signed n < 0 := Int.not_lt.mpr hpos.le
  simp only [discRead, ctlRead4_ok hd hb hn hm, orFail_ok, hdrive, hneg, if_false, hout, if_true]

theorem discRead_inside (hin : blocksOutside disc b n = false) :
    discRead s cs = deliver s m (discContents i disc (128 * b.toNat) (128 * n.toNat)) errMemory
      fun t _ => .done t n := by
  have hneg : ¬ signed n < 0 := Int.not_lt.mpr hpos.le
  simp only [discRead, ctlRead4_ok hd hb hn hm, orFail_ok, hdrive, hneg, if_false, hin,
    Bool.false_eq_true, discContents]

/-- R147: where the host writes, the words of the buffer are the disc's. -/
theorem discWrite_inside {rest : List Bool} (hin : blocksOutside disc b n = false)
    (hbuffer : PlainBuffer s m (128 * n.toNat)) (hgranted : s.answers = true :: rest) :
    discWrite s cs =
      .done (setDisc { s with answers := rest } i
        (writeDiscWords disc (128 * b.toNat)
          ((bufferWords s m (128 * n.toNat)).map Content.word))) n := by
  have hneg : ¬ signed n < 0 := Int.not_lt.mpr hpos.le
  have hzero : n ≠ 0 := fun e => by simp [e] at hpos
  simp only [discWrite, ctlRead4_ok hd hb hn hm, orFail_ok, hdrive, hneg, if_false, hin,
    Bool.false_eq_true, hzero, hbuffer.readRun, hostAnswer, hgranted, if_true]

end DiscTransfer

/-! ### The transfers of a disc -/

/-- Settles O40, by the drive and the blocks; the words delivered are those that the transfer stores. -/
theorem discReadDeliversBlocks : Obligations.DiscReadDeliversBlocks := by
  refine ⟨fun reg op s cs d b n m i disc hstart hd hb hn hm hi hdisc => ?blocks,
    fun reg op s cs d i disc hstart hd hi hdisc _ =>
      hstart.reports (discCheck_configured hd hi hdisc),
    fun reg op s cs d b n m hstart hd hb hn hm hnone =>
      hstart.reports_sameHost (discRead_noDrive hd hb hn hm (driveOf_unavailable hnone))⟩
  have hdrive := driveOf_configured hi hdisc
  refine ⟨fun hpos hsmall hfit hbuffer => ?_, fun hpos hout =>
    hstart.reports (discRead_outside hd hb hn hm hdrive hpos (blocksOutside_of_outside hpos hout))⟩
  have hread := discRead_inside hd hb hn hm hdrive hpos (blocksOutside_of_fit hpos hsmall hfit)
  rw [← discContents_length i disc (128 * b.toNat) (128 * n.toNat)] at hbuffer
  obtain ⟨mem, us, hrun, hstored, hother⟩ := hbuffer.deliver errMemory fun t _ => .done t n
  obtain ⟨t, hnext, hends, hmem, hdevices, -⟩ := hstart.ends (hread.trans hrun) rfl
  rw [discContents_length] at hother
  refine ⟨t, hnext, hends, fun k j hk hj => ?_, fun q hq => ?_, { hdevices with }⟩
  · rw [hmem, hstored (128 * k + j) _ (discContents_get i disc _ (by omega)), Nat.mul_add,
      Nat.add_assoc]
  · rw [hmem, hother q hq]

/-- Settles O41: the disc written is the drive's, and its words are those of the buffer. -/
theorem discWriteStoresBlocks : Obligations.DiscWriteStoresBlocks := by
  refine ⟨fun reg op s cs d b n m i disc rest hstart hd hb hn hm hi hdisc hpos hsmall hfit hbuffer
      hgranted => ?stores,
    fun reg op s cs d b n m hstart hd hb hn hm hnone =>
      hstart.reports_sameHost (discWrite_noDrive hd hb hn hm (driveOf_unavailable hnone))⟩
  have hrun := discWrite_inside hd hb hn hm (driveOf_configured hi hdisc) hpos
    (blocksOutside_of_fit hpos hsmall hfit) hbuffer hgranted
  obtain ⟨t, hnext, hends, hmem, hdevices, hhost⟩ := hstart.ends hrun rfl
  have hdiscs := hdevices.discs
  rw [setDisc_discs] at hdiscs
  refine ⟨t, writeDiscWords disc (128 * b.toNat)
      ((bufferWords s m (128 * n.toNat)).map Content.word), hnext, hends,
    fun q => by rw [hmem, setDisc_mem], by simp [hdiscs], writeDiscWords_size _ _ _, hhost.answers,
    fun k j hk hj => ?word, fun p hp => ?otherWord, fun j hj => ?otherDrive,
    hdevices.tapes, hdevices.keyboard, hdevices.screen, hdevices.files⟩
  case word =>
    have hlt : 128 * k + j < 128 * n.toNat := by omega
    rw [Nat.mul_add, Nat.add_assoc, discWord_writeDiscWords i disc _
      (by rw [List.getElem?_map, bufferWords_get s m hlt, Option.map_some]), contentWord_word]
  case otherWord =>
    refine discWord_writeDiscWords_outside i disc ?_
    rw [List.length_map, bufferWords_length]
    omega
  case otherDrive =>
    have hne : i.val ≠ j.val := fun e => hj (Fin.ext e.symm)
    simp [hdiscs, Vector.getElem_set_ne _ _ hne]

end Sys2Proof.Machine
end

section
/-! PROOFS of the family 44_peri_disc_tape.md, the tape operations that move no block: $TAPECHECK,
$TAPEREWIND, $TAPEUNLOAD (R149, R150, R152) and $TAPELOAD (R151). -/

namespace Sys2Proof.Machine

/-! ### $TAPECHECK -/

theorem unit_outside_or_inside (u : Word) :
    (u.toInt < 1 ∨ 8 < u.toInt) ∨ ∃ i : Fin 8, u.toNat = i.val + 1 := by
  by_cases hout : u.toInt < 1 ∨ 8 < u.toInt
  · exact .inl hout
  · have hnat : u.toInt = u.toNat := signed_eq_toNat (by rw [signed]; omega)
    exact .inr ⟨⟨u.toNat - 1, by omega⟩, by dsimp only; omega⟩

theorem not_outside_of_inside {u : Word} {i : Fin 8} (hi : u.toNat = i.val + 1) :
    ¬ (u.toInt < 1 ∨ 8 < u.toInt) := fun hout => by
  have hunit := unitOf_inside hi
  rw [unitOf_outside hout] at hunit
  cases hunit

theorem unit_unique {u : Word} {i j : Fin 8} (hi : u.toNat = i.val + 1)
    (hj : u.toNat = j.val + 1) : i = j := Fin.ext (by omega)

/-- The codes of the modes (R149, G3). -/
def modeCode : TapeMode → Word
  | .read => charR
  | .write => charW

/-- What $TAPECHECK answers about a unit. -/
def unitCode (tape : Option Tape) : Word := (tape.map fun x => modeCode x.mode).getD 0

section OneWord

variable {s : State} {cs u : Word} (hu : readWord s (cs + 1) = .ok u)
include hu

theorem tapeCheck_outside (h : u.toInt < 1 ∨ 8 < u.toInt) :
    tapeCheck s cs = .done s errDevNumber := by
  simp only [tapeCheck, ctlRead_one hu, orFail_ok, unitOf_outside h]

theorem tapeRewind_outside (h : u.toInt < 1 ∨ 8 < u.toInt) :
    tapeRewind s cs = .done s errDevNumber := by
  simp only [tapeRewind, ctlRead_one hu, orFail_ok, unitOf_outside h]

theorem tapeUnload_outside (h : u.toInt < 1 ∨ 8 < u.toInt) :
    tapeUnload s cs = .done s errDevNumber := by
  simp only [tapeUnload, ctlRead_one hu, orFail_ok, unitOf_outside h]

variable {i : Fin 8} (hi : u.toNat = i.val + 1)
include hi

theorem tapeCheck_inside : tapeCheck s cs = .done s (unitCode s.tapes[i]) := by
  simp only [tapeCheck, ctlRead_one hu, orFail_ok, unitOf_inside hi]
  cases s.tapes[i] with
  | none => rfl
  | some tape => cases hmode : tape.mode <;> simp [unitCode, modeCode, hmode]

theorem tapeRewind_unloaded (h : s.tapes[i] = none) :
    tapeRewind s cs = .done s errDevNumber := by
  simp only [tapeRewind, ctlRead_one hu, orFail_ok, unitOf_inside hi, h]

theorem tapeUnload_unloaded (h : s.tapes[i] = none) :
    tapeUnload s cs = .done s errNotFound := by
  simp only [tapeUnload, ctlRead_one hu, orFail_ok, unitOf_inside hi, h]

variable {tape : Tape} (htape : s.tapes[i] = some tape)
include htape

theorem tapeRewind_reading (hmode : tape.mode = .read) :
    tapeRewind s cs = .done (setTape s i (some { tape with position := 0 })) 1 := by
  simp only [tapeRewind, ctlRead_one hu, orFail_ok, unitOf_inside hi, htape, hmode]

/-- U8, log 28. -/
theorem tapeRewind_writing (hmode : tape.mode = .write) :
    tapeRewind s cs = .refused .rewindWhileWriting := by
  simp only [tapeRewind, ctlRead_one hu, orFail_ok, unitOf_inside hi, htape, hmode]

theorem tapeUnload_loaded : tapeUnload s cs = .done (setTape s i none) 1 := by
  simp only [tapeUnload, ctlRead_one hu, orFail_ok, unitOf_inside hi, htape]

end OneWord

/-- Settles O42, by whether the number is a unit's. -/
theorem tapeCheckReportsMode : Obligations.TapeCheckReportsMode := by
  intro reg op s cs hstart
  refine ⟨fun i hi => hstart.reports (runPeri_secondWord_raised (by decide) (by decide) hi),
    fun u hu => ?_⟩
  rcases unit_outside_or_inside u with hout | ⟨i, hi⟩
  · obtain ⟨t, hnext, hends, hmem, hdevices⟩ := hstart.reports (tapeCheck_outside hu hout)
    exact ⟨t, _, hnext, hends, hmem, hdevices, fun _ => rfl,
      fun j hj => absurd hout (not_outside_of_inside hj)⟩
  · obtain ⟨t, hnext, hends, hmem, hdevices⟩ := hstart.reports (tapeCheck_inside hu hi)
    refine ⟨t, _, hnext, hends, hmem, hdevices, fun hout => absurd hout (not_outside_of_inside hi),
      fun j hj => ?_⟩
    rw [unit_unique hj hi]
    cases s.tapes[i] with
    | none => rfl
    | some tape => cases hmode : tape.mode <;> simp [unitCode, modeCode, hmode, charR, charW]

/-! ### $TAPEREWIND and $TAPEUNLOAD -/

section SetTape

variable {s : State} {i : Fin 8} {x : Option Tape}

theorem setTape_get (s : State) (i : Fin 8) (x : Option Tape) : (setTape s i x).tapes[i] = x := by
  simp

theorem setTape_get_other (s : State) {i j : Fin 8} (x : Option Tape) (h : j ≠ i) :
    (setTape s i x).tapes[j] = s.tapes[j] := by
  have hne : i.val ≠ j.val := fun e => h (Fin.ext e.symm)
  simp [Vector.getElem_set_ne _ _ hne]

/-- An operation that replaces the state of one unit. -/
theorem PeriStarts.ends_setTape {reg : Reg} {op : Operand} {cs code : Word} {k : PeriOp}
    (h : PeriStarts s reg op cs k) (hrun : runPeri s cs k = .done (setTape s i x) code) :
    ∃ t, exec (.peri reg op) s = .next t ∧ PeriEnds s t reg code ∧ SameMemory s t ∧
      t.tapes[i] = x ∧ (∀ j : Fin 8, j ≠ i → t.tapes[j] = s.tapes[j]) ∧ t.discs = s.discs ∧
      t.keyboard = s.keyboard ∧ t.screen = s.screen ∧ t.files = s.files := by
  obtain ⟨t, hnext, hends, hmem, hdevices, -⟩ := h.ends hrun rfl
  refine ⟨t, hnext, hends, fun q => by rw [hmem, setTape_mem], ?_, fun j hj => ?_, hdevices.discs,
    hdevices.keyboard, hdevices.screen, hdevices.files⟩
  · rw [hdevices.tapes, setTape_get]
  · rw [hdevices.tapes, setTape_get_other s x hj]

end SetTape

/-- Settles O43: the two operations have distinct codes, and each is settled by what its unit holds. -/
theorem tapeRewindAndUnload : Obligations.TapeRewindAndUnload := by
  rintro reg op s cs (hstart | hstart)
  case inl =>
    have notUnload : ¬ PeriStarts s reg op cs .tapeUnload := fun h =>
      absurd (hstart.op_unique h) (by decide)
    refine ⟨fun i hi => hstart.reports (runPeri_secondWord_raised (by decide) (by decide) hi),
      fun u hu => ⟨fun hout => hstart.reports (tapeRewind_outside hu hout), fun i hi hnone => ?_,
        fun i tape hi htape => ⟨fun _ hmode => hstart.refused (tapeRewind_writing hu hi htape hmode),
          fun hmode => ?_⟩⟩⟩
    · obtain ⟨t, hnext, hends, hmem, hdevices⟩ := hstart.reports (tapeRewind_unloaded hu hi hnone)
      exact ⟨t, hnext, hmem, hdevices, fun _ => hends, fun h => absurd h notUnload⟩
    · obtain ⟨t, hnext, hends, hmem, hunit, hrest⟩ :=
        hstart.ends_setTape (tapeRewind_reading hu hi htape (hmode hstart))
      exact ⟨t, hnext, hends, hmem, fun _ => hunit, fun h => absurd h notUnload, hrest⟩
  case inr =>
    have notRewind : ¬ PeriStarts s reg op cs .tapeRewind := fun h =>
      absurd (hstart.op_unique h) (by decide)
    refine ⟨fun i hi => hstart.reports (runPeri_secondWord_raised (by decide) (by decide) hi),
      fun u hu => ⟨fun hout => hstart.reports (tapeUnload_outside hu hout), fun i hi hnone => ?_,
        fun i tape hi htape => ⟨fun h => absurd h notRewind, fun _ => ?_⟩⟩⟩
    · obtain ⟨t, hnext, hends, hmem, hdevices⟩ := hstart.reports (tapeUnload_unloaded hu hi hnone)
      exact ⟨t, hnext, hmem, hdevices, fun h => absurd h notRewind, fun _ => hends⟩
    · obtain ⟨t, hnext, hends, hmem, hunit, hrest⟩ :=
        hstart.ends_setTape (tapeUnload_loaded hu hi htape)
      exact ⟨t, hnext, hends, hmem, fun h => absurd h notRewind, fun _ => hunit, hrest⟩

/-! ### Host files -/

theorem findFile_cons (g : HostFile) (files : List HostFile) (name : List Byte) :
    findFile (g :: files) name = if g.name = name then some g else findFile files name := by
  by_cases h : g.name = name <;> simp [findFile, h]

/-- A stored file is found under its name, and every other file as before. -/
theorem findFile_storeFile (f : HostFile) (files : List HostFile) (name : List Byte) :
    findFile (storeFile f files) name = if f.name = name then some f else findFile files name := by
  induction files with
  | nil => exact findFile_cons f [] name
  | cons g rest ih =>
    by_cases hg : g.name = f.name
    · rw [storeFile, if_pos hg, findFile_cons, findFile_cons, hg]
      split <;> rfl
    · rw [storeFile, if_neg hg, findFile_cons, findFile_cons, ih]
      by_cases hname : g.name = name
      · rw [if_pos hname, if_neg fun e => hg (hname.trans e.symm), if_pos hname]
      · rw [if_neg hname, if_neg hname]

theorem findFile_name {files : List HostFile} {name : List Byte} {f : HostFile}
    (h : findFile files name = some f) : f.name = name := by
  simpa using List.find?_some h

/-- R151: the file opened is the one that the name asks for. -/
theorem openedFile_name (s : State) (name : List Byte) (mode : TapeMode) :
    (openedFile s name mode).name = name := by
  cases mode with
  | write => rfl
  | read =>
    rw [openedFile]
    cases h : findFile s.files name with
    | none => rfl
    | some f => exact findFile_name h

theorem hostAnswer_next {s : State} {b : Bool} {rest : List Bool} (h : s.answers = b :: rest) :
    hostAnswer s = (b, { s with answers := rest }) := by rw [hostAnswer, h]

/-! ### $TAPELOAD -/

theorem tapeModeOf_known {mode : Word} (h : mode = 82 ∨ mode = 87) :
    tapeModeOf mode = some (if mode = 82 then .read else .write) := by
  rcases h with rfl | rfl <;> rfl

theorem tapeModeOf_unknown {mode : Word} (hr : mode ≠ 82) (hw : mode ≠ 87) :
    tapeModeOf mode = none := by
  rw [tapeModeOf, charR, charW, if_neg hr, if_neg hw]

/-- 20_memory.md R53: a string in memory, up to its zero character. -/
theorem scanToZero_packedChar {s : State} {p : Word} {name : List Byte}
    (hlength : name.length < 2 ^ 34)
    (hchars : ∀ k (h : k < name.length), packedChar s p k = .ok name[k] ∧ name[k] ≠ 0)
    (hend : packedChar s p name.length = .ok 0) :
    scanToZero (packedChar s p) addressSpaceChars 0 = .done name := by
  refine scanToZero_done _ name _ 0 hlength (fun j hj => ?_) (by rwa [Nat.zero_add]) fun hmem => ?_
  · rw [Nat.zero_add, (hchars j hj).1, List.getD_eq_getElem _ _ hj]
  · obtain ⟨k, hk, hzero⟩ := List.getElem_of_mem hmem
    exact (hchars k hk).2 hzero

section Load

variable {s : State} {cs u p mode : Word} {i : Fin 8} (hu : readWord s (cs + 1) = .ok u)
  (hp : readWord s (cs + 2) = .ok p) (hm : readWord s (cs + 3) = .ok mode)
  (hi : u.toNat = i.val + 1)
include hu hp hm hi

/-- R155, D25: the mode is looked at before the name is read and the host asked. -/
theorem tapeLoad_badMode (hmode : tapeModeOf mode = none) :
    tapeLoad s cs = .done s errBadParam := by
  simp only [tapeLoad, ctlRead3_ok hu hp hm, orFail_ok, unitOf_inside hi, hmode]

variable {tapeMode : TapeMode} {name : List Byte} {rest : List Bool}
  (hmode : tapeModeOf mode = some tapeMode) (hnone : s.tapes[i] = none)
  (hname : scanToZero (packedChar s p) addressSpaceChars 0 = .done name)
include hmode hnone hname

theorem tapeLoad_declined (hanswer : s.answers = false :: rest) :
    tapeLoad s cs = .done { s with answers := rest } errNotFound := by
  simp only [tapeLoad, ctlRead3_ok hu hp hm, orFail_ok, unitOf_inside hi, hmode, hname, loadTape,
    hnone, hostAnswer_next hanswer, Bool.false_eq_true, if_false]

theorem tapeLoad_opened (hanswer : s.answers = true :: rest) :
    tapeLoad s cs =
      .done { setTape s i (some { file := name, mode := tapeMode, position := 0 }) with
        files := storeFile (openedFile s name tapeMode) s.files
        answers := rest
        draws := s.draws + 1 } 1 := by
  simp only [tapeLoad, ctlRead3_ok hu hp hm, orFail_ok, unitOf_inside hi, hmode, hname, loadTape,
    hnone, hostAnswer_next hanswer, if_true]
  cases tapeMode <;> rfl

end Load

/-- Settles O44, by the mode and the host's answer. -/
theorem tapeLoadAttachesFile : Obligations.TapeLoadAttachesFile := by
  intro reg op s cs u p mode i name opened rest hstart hu hp hm hi hnone hlength hchars hend hanswer
  have hname := scanToZero_packedChar hlength hchars hend
  by_cases hmode : mode = 82 ∨ mode = 87
  case neg =>
    obtain ⟨hr, hw⟩ := not_or.mp hmode
    obtain ⟨t, hnext, hends, hmem, hdevices, hhost⟩ :=
      hstart.reports_sameHost (tapeLoad_badMode hu hp hm hi (tapeModeOf_unknown hr hw))
    exact ⟨t, _, hnext, hends, hmem, fun j _ => by rw [hdevices.tapes],
      fun other _ => by rw [hdevices.files], hdevices.discs, hdevices.keyboard, hdevices.screen,
      fun h => absurd h hmode, fun h => absurd h hmode,
      fun _ _ => ⟨rfl, hdevices.tapes, hdevices.files, hhost.answers⟩⟩
  case pos =>
    have hknown := tapeModeOf_known hmode
    cases opened with
    | false =>
      obtain ⟨t, hnext, hends, hmem, hdevices, -⟩ :=
        hstart.ends (tapeLoad_declined hu hp hm hi hknown hnone hname hanswer) rfl
      exact ⟨t, _, hnext, hends, fun q => by rw [hmem], fun j _ => by rw [hdevices.tapes],
        fun other _ => by rw [hdevices.files], hdevices.discs, hdevices.keyboard, hdevices.screen,
        fun _ h => (nomatch h), fun _ _ => ⟨rfl, hdevices.tapes, hdevices.files⟩,
        fun hr hw => absurd hmode (not_or.mpr ⟨hr, hw⟩)⟩
    | true =>
      obtain ⟨t, hnext, hends, hmem, hdevices, -⟩ :=
        hstart.ends (tapeLoad_opened hu hp hm hi hknown hnone hname hanswer) rfl
      refine ⟨t, _, hnext, hends, fun q => by rw [hmem, setTape_mem],
        fun j hj => by rw [hdevices.tapes, setTape_get_other s _ hj], fun other hother => ?_,
        hdevices.discs, hdevices.keyboard, hdevices.screen,
        fun _ _ => ⟨rfl, by rw [hdevices.tapes, setTape_get]⟩, fun _ h => (nomatch h),
        fun hr hw => absurd hmode (not_or.mpr ⟨hr, hw⟩)⟩
      rw [hdevices.files, findFile_storeFile, openedFile_name, if_neg hother.symm]

end Sys2Proof.Machine
end

section
/-! PROOFS of the family 44_peri_disc_tape.md, the tape operations that move a block: $TAPERREAD (R153) and
$TAPEWRITE (R154). -/

namespace Sys2Proof.Machine

/-! ### Packed characters (20_memory.md R53, R54) -/

theorem charOf_bit (w : Word) (k : Nat) {b : Nat} (hb : b < 8) :
    (charOf w k).getLsbD b = w.getLsbD (8 * (k % 4) + b) := by
  rw [charOf, BitVec.getLsbD_extractLsb', decide_eq_true hb, Bool.true_and]

/-- The character of a word is read from its own eight bits alone. -/
theorem charOf_congr {v w : Word} {k : Nat}
    (h : ∀ b, b < 8 → v.getLsbD (8 * (k % 4) + b) = w.getLsbD (8 * (k % 4) + b)) :
    charOf v k = charOf w k :=
  BitVec.eq_of_getLsbD_eq fun b hb => by rw [charOf_bit v k hb, charOf_bit w k hb, h b hb]

theorem charOf_append (b0 b1 b2 b3 : Byte) (k : Nat) :
    charOf (b3 ++ b2 ++ b1 ++ b0) k = [b0, b1, b2, b3].getD (k % 4) 0 := by
  have hk : k % 4 = 0 ∨ k % 4 = 1 ∨ k % 4 = 2 ∨ k % 4 = 3 := by omega
  refine BitVec.eq_of_getLsbD_eq fun b hb => ?_
  rw [charOf_bit _ k hb]
  simp only [BitVec.getLsbD_append]
  rcases hk with h | h | h | h <;> rw [h]
  · rw [if_pos (by omega), Nat.mul_zero, Nat.zero_add]; rfl
  · rw [if_neg (by omega), if_pos (by omega), Nat.add_sub_cancel_left]; rfl
  · rw [if_neg (by omega), if_neg (by omega), if_pos (by omega),
      show 8 * 2 + b - 8 - 8 = b by omega]; rfl
  · rw [if_neg (by omega), if_neg (by omega), if_neg (by omega),
      show 8 * 3 + b - 8 - 8 - 8 = b by omega]; rfl

theorem charOf_packedWord (bytes : List Byte) (k : Nat) :
    charOf (packedWord bytes (k / 4)) k = bytes.getD k 0 := by
  have hdiv : 4 * (k / 4) + k % 4 = k := Nat.div_add_mod k 4
  have hk : k % 4 = 0 ∨ k % 4 = 1 ∨ k % 4 = 2 ∨ k % 4 = 3 := by omega
  rw [packedWord, charOf_append]
  conv_rhs => rw [← hdiv]
  rcases hk with h | h | h | h <;> rw [h] <;> rfl

/-- Free bits above the low ones leave the characters of the low ones (U9). -/
theorem charOf_freeAbove (draw : Nat) (w : Word) {bits k : Nat} (h : 8 * (k % 4) + 8 ≤ bits) :
    charOf (contentWord (.freeAbove draw w bits)) k = charOf w k := by
  refine charOf_congr fun b hb => ?_
  have hlow : 8 * (k % 4) + b < bits := by omega
  have hword : 8 * (k % 4) + b < 32 := by omega
  simp [contentWord, BitVec.getLsbD_ofNat, hlow, hword]

/-! ### The words that carry a block (R54) -/

theorem packedWords_get (bytes : List Byte) {n j : Nat} (hj : j < n) :
    (packedWords bytes n)[j]? = some (packedWord bytes j) := by simp [packedWords, hj]

@[simp] theorem packedWords_length (bytes : List Byte) (n : Nat) :
    (packedWords bytes n).length = n := by simp [packedWords]

theorem blockWords_length (s : State) (bytes : List Byte) :
    (blockWords s bytes).length = (bytes.length + 3) / 4 := by
  simp only [blockWords]
  split
  · rw [List.length_map, packedWords_length]
    omega
  · rw [List.length_append, List.length_map, packedWords_length, List.length_singleton]
    omega

/-- The word that carries byte `k` of a block has it as its character `k mod 4`. -/
theorem blockWords_get (s : State) (bytes : List Byte) {k : Nat} (hk : k < bytes.length) :
    ∃ c, (blockWords s bytes)[k / 4]? = some c ∧
      some (charOf (contentWord c) k) = bytes[k]? := by
  have hbyte : some (bytes.getD k 0) = bytes[k]? := by
    rw [List.getD_eq_getElem _ _ hk, List.getElem?_eq_getElem hk]
  by_cases hfull : k / 4 < bytes.length / 4
  · refine ⟨.word (packedWord bytes (k / 4)), ?_, by rw [contentWord_word, charOf_packedWord, hbyte]⟩
    have hget : ((packedWords bytes (bytes.length / 4)).map Content.word)[k / 4]? =
        some (.word (packedWord bytes (k / 4))) := by
      rw [List.getElem?_map, packedWords_get bytes hfull, Option.map_some]
    simp only [blockWords]
    split
    · exact hget
    · rw [List.getElem?_append_left (by simpa using hfull), hget]
  · have hlast : k / 4 = bytes.length / 4 := by omega
    refine ⟨partialWord s bytes (k / 4), ?_, ?_⟩
    · rw [blockWords, if_neg (by omega), hlast, List.getElem?_append_right (by simp)]
      simp
    · rw [partialWord, charOf_freeAbove _ _ (by omega), charOf_packedWord, hbyte]

/-! ### The buffer of $TAPERREAD -/

/-- The words of a buffer after the first `count`. -/
theorem inBuffer_rest_iff {m q : Word} {n count : Nat} (hroom : m.toNat + n ≤ 2 ^ 32)
    (hcount : count ≤ n) :
    inBuffer (m + BitVec.ofNat 32 count) (n - count) q ↔
      m.toNat + count ≤ q.toNat ∧ q.toNat < m.toNat + n := by
  rw [inBuffer, BitVec.toNat_add, BitVec.toNat_ofNat]
  omega

theorem mem_of_mem_reachable {s : State} {addrs : List Word} {q : Word} (hvm : s.flags.vm = false)
    (hq : q ∈ reachable s addrs) : q ∈ addrs := by
  simp only [reachable, List.mem_filterMap, translate_of_vm_off _ hvm] at hq
  obtain ⟨a, ha, hpresent⟩ := hq
  split at hpresent
  · exact Option.some.inj hpresent ▸ ha
  · cases hpresent

/-- U9, log 26: free values reach no word outside the rest of the buffer. -/
theorem scrambleRest_read {t : State} {m q : Word} {count : Nat} {written : List Word}
    (hvm : t.flags.vm = false) (hroom : (m + BitVec.ofNat 32 count).toNat + (128 - count) ≤ 2 ^ 32)
    (hq : ¬ inBuffer (m + BitVec.ofNat 32 count) (128 - count) q) :
    (scrambleRest t m count written).mem.read q = t.mem.read q :=
  scramble_read _ _ fun hmem =>
    hq (inBuffer_of_mem_addressRun hroom (mem_of_mem_reachable hvm (List.mem_of_mem_filter hmem)))

theorem scrambleRest_frame (t : State) (m : Word) (count : Nat) (written : List Word) :
    scrambleRest t m count written = { t with
      mem := (scrambleRest t m count written).mem
      draws := (scrambleRest t m count written).draws } := scramble_frame _ _

/-- The next block of a tape (R153). -/
def nextBlock (s : State) (tape : Tape) : List Byte :=
  ((tapeBytes s tape).drop tape.position).take 512

theorem nextBlock_length (s : State) (tape : Tape) :
    (nextBlock s tape).length = min 512 ((tapeBytes s tape).length - tape.position) := by
  simp [nextBlock]

theorem nextBlock_get (s : State) (tape : Tape) {k : Nat} (hk : k < (nextBlock s tape).length) :
    (nextBlock s tape)[k]? = (tapeBytes s tape)[tape.position + k]? := by
  have hk512 : k < 512 := by
    rw [nextBlock_length] at hk
    omega
  rw [nextBlock, List.getElem?_take_of_lt hk512, List.getElem?_drop]

/-- A block stored into the buffer of 128 words, and free values after it: the bytes of the block lie
packed from `m` on, and no word outside the buffer changes. -/
theorem storeBlock (s : State) {drawn : State} {m : Word} {bytes : List Byte}
    (hlength : bytes.length ≤ 512) (hbuffer : PlainBuffer drawn m 128) :
    ∃ t us, storeAll drawn [] ((addressRun m (blockWords s bytes).length).zip
        (blockWords s bytes)) = .done t us ∧
      ∃ mem draws, scrambleRest t m (blockWords s bytes).length us =
          { drawn with mem := mem, draws := draws } ∧
        (∀ k, k < bytes.length →
          some (charOf (mem.read (m + BitVec.ofNat 32 (k / 4))) k) = bytes[k]?) ∧
        ∀ q, ¬ inBuffer m 128 q → mem.read q = drawn.mem.read q := by
  have hcount : (blockWords s bytes).length = (bytes.length + 3) / 4 := blockWords_length s bytes
  have hfits : (blockWords s bytes).length ≤ 128 := by omega
  obtain ⟨mem, us, hrun, hstored, hother⟩ := (hbuffer.mono hfits).storeAll
  generalize (blockWords s bytes).length = count at hcount hfits hrun hother ⊢
  have hroom := hbuffer.room
  have hrest : (m + BitVec.ofNat 32 count).toNat + (128 - count) ≤ 2 ^ 32 := by
    rw [BitVec.toNat_add, BitVec.toNat_ofNat]
    omega
  have hread := fun q => scrambleRest_read (t := { drawn with mem := mem }) (written := us) (q := q)
    hbuffer.untranslated hrest
  refine ⟨_, us, hrun, _, _, scrambleRest_frame _ m count us, fun k hk => ?_, fun q hq => ?_⟩
  · obtain ⟨c, hc, hbyte⟩ := blockWords_get s bytes hk
    have hbefore : ¬ inBuffer (m + BitVec.ofNat 32 count) (128 - count)
        (m + BitVec.ofNat 32 (k / 4)) := by
      rw [inBuffer_rest_iff hroom hfits, toNat_add_ofNat (by omega)]
      omega
    rw [hread _ hbefore, hstored _ c hc, hbyte]
  · rw [inBuffer] at hq
    rw [hread q (by rw [inBuffer_rest_iff hroom hfits]; omega),
      hother q (by rw [inBuffer]; omega)]

section Read

variable {s : State} {cs u m : Word} (hu : readWord s (cs + 1) = .ok u)
  (hm : readWord s (cs + 2) = .ok m)
include hu hm

theorem tapeRead_unavailable (h : tapeOf s u .read = none) :
    tapeRead s cs = .done s errDevNumber := by
  simp only [tapeRead, ctlRead2_ok hu hm, orFail_ok, h]

variable {i : Fin 8} {tape : Tape} (htape : tapeOf s u .read = some (i, tape))
include htape

/-- Log 26: at the end of the tape nothing changes. -/
theorem tapeRead_end (h : (nextBlock s tape).length = 0) : tapeRead s cs = .done s 0 := by
  rw [nextBlock] at h
  simp only [tapeRead, ctlRead2_ok hu hm, orFail_ok, htape, h, if_true]

theorem tapeRead_block (hleft : (nextBlock s tape).length ≠ 0) (hbuffer : PlainBuffer s m 128) :
    ∃ mem draws,
      tapeRead s cs =
        .done (moveTape { s with mem := mem, draws := draws } i tape
          (tape.position + (nextBlock s tape).length))
          (BitVec.ofNat 32 (nextBlock s tape).length) ∧
      (∀ k, k < (nextBlock s tape).length →
        some (charOf (mem.read (m + BitVec.ofNat 32 (k / 4))) k) = (nextBlock s tape)[k]?) ∧
      ∀ q, ¬ inBuffer m 128 q → mem.read q = s.mem.read q := by
  have hlength : (nextBlock s tape).length ≤ 512 := by
    rw [nextBlock_length]
    omega
  have hdrawn : PlainBuffer { s with draws := s.draws + 1 } m 128 := { hbuffer with }
  obtain ⟨t, us, hrun, mem, draws, hrest, hbytes, hother⟩ := storeBlock s hlength hdrawn
  refine ⟨mem, draws, ?_, hbytes, hother⟩
  simp only [nextBlock] at hleft hrun hrest ⊢
  simp only [tapeRead, ctlRead2_ok hu hm, orFail_ok, htape, hleft, if_false, hrun, hrest]

end Read

/-- Settles O45: the bytes left decide between a block and the end of the tape. -/
theorem tapeReadDeliversNextBlock : Obligations.TapeReadDeliversNextBlock := by
  refine ⟨fun reg op s cs u m i tape => ?loaded, fun reg op s cs u m hstart hu hm hnone =>
    hstart.reports_sameHost
      (tapeRead_unavailable hu hm (tapeOf_unavailable (by decide) hnone))⟩
  intro left count hstart hu hm hi htape hmode
  have hunit := tapeOf_loaded hi htape hmode
  have hcount : (nextBlock s tape).length = count := nextBlock_length s tape
  refine ⟨fun hleft hbuffer => ?block, fun hend => ?endOfTape⟩
  case block =>
    obtain ⟨mem, draws, hrun, hbytes, hother⟩ :=
      tapeRead_block hu hm hunit (by omega) hbuffer
    obtain ⟨t, hnext, hends, hmem, hdevices, -⟩ := hstart.ends hrun rfl
    rw [hcount] at hends hdevices hbytes
    rw [moveTape_mem] at hmem
    refine ⟨t, hnext, hends, fun k hk => ?_, fun q hq => by rw [hmem, hother q hq], ?_,
      fun j hj => ?_, hdevices.discs, hdevices.keyboard, hdevices.screen, hdevices.files⟩
    · rw [hmem, hbytes k hk, nextBlock_get s tape (by omega)]
    · rw [hdevices.tapes, moveTape, setTape_get]
    · rw [hdevices.tapes, moveTape, setTape_get_other _ _ hj]
  case endOfTape => exact hstart.reports (tapeRead_end hu hm hunit (by omega))

/-! ### $TAPEWRITE -/

theorem PlainBuffer.packedChar {s : State} {m : Word} {n k : Nat} (h : PlainBuffer s m n)
    (hk : k / 4 < n) :
    packedChar s m k = .ok (charOf (s.mem.read (m + BitVec.ofNat 32 (k / 4))) k) := by
  rw [Machine.packedChar, h.readWord hk, map_ok]

/-- The first `n` bytes packed in a buffer. -/
def bufferBytes (s : State) (m : Word) (n : Nat) : List Byte :=
  (List.range n).map fun k => charOf (s.mem.read (m + BitVec.ofNat 32 (k / 4))) k

@[simp] theorem bufferBytes_length (s : State) (m : Word) (n : Nat) :
    (bufferBytes s m n).length = n := by simp [bufferBytes]

theorem bufferBytes_get (s : State) (m : Word) {n k : Nat} (hk : k < n) :
    (bufferBytes s m n)[k]? = some (charOf (s.mem.read (m + BitVec.ofNat 32 (k / 4))) k) := by
  simp [bufferBytes, hk]

theorem PlainBuffer.scanCount {s : State} {m : Word} {n : Nat}
    (h : PlainBuffer s m ((n + 3) / 4)) :
    scanCount (Machine.packedChar s m) n 0 = .done (bufferBytes s m n) := by
  refine scanCount_done _ n 0 _ (fun j hj => ?_) (bufferBytes_length s m n)
  rw [Nat.zero_add, h.packedChar (by omega), List.getD_eq_getElem?_getD, bufferBytes_get s m hj,
    Option.getD_some]

/-- Log 35: a file known up to the position grows by the bytes written. -/
theorem writeFileBytes_known {f : HostFile} {position : Nat} (draws : Nat) (bytes : List Byte)
    (h : f.known.length = position) :
    (writeFileBytes draws position bytes f).known = f.known ++ bytes := by
  subst h
  simp [writeFileBytes, freeByteRun]

/-- The state once the host has written bytes at a tape's position. -/
def appendToFile (s : State) (tape : Tape) (bytes : List Byte) : State :=
  let u := updateFile s tape.file (writeFileBytes s.draws tape.position bytes)
  { u with draws := u.draws + tape.position }

/-- The file on the tape is the written one; every other file is as before. -/
theorem findFile_appendToFile {s : State} {tape : Tape} {f : HostFile} (bytes : List Byte)
    (h : findFile s.files tape.file = some f) (name : List Byte) :
    findFile (appendToFile s tape bytes).files name =
      if tape.file = name then
        some { writeFileBytes s.draws tape.position bytes f with name := tape.file }
      else findFile s.files name := by
  simp only [appendToFile, updateFile, h, Option.getD_some]
  exact findFile_storeFile _ _ _

section Write

variable {s : State} {cs u m c : Word} (hu : readWord s (cs + 1) = .ok u)
  (hm : readWord s (cs + 2) = .ok m) (hc : readWord s (cs + 3) = .ok c)
include hu hm hc

theorem tapeWrite_unavailable (h : tapeOf s u .write = none) :
    tapeWrite s cs = .done s errDevNumber := by
  simp only [tapeWrite, ctlRead3_ok hu hm hc, orFail_ok, h]

/-- R154: where the host writes, the file takes the buffer's bytes. -/
theorem tapeWrite_granted {i : Fin 8} {tape : Tape} {rest : List Bool}
    (htape : tapeOf s u .write = some (i, tape)) (hpos : 0 < c.toNat) (hmost : c.toNat ≤ 512)
    (hbuffer : PlainBuffer s m ((c.toNat + 3) / 4)) (hgranted : s.answers = true :: rest) :
    tapeWrite s cs =
      .done (moveTape (appendToFile { s with answers := rest } tape (bufferBytes s m c.toNat)) i tape
        (tape.position + c.toNat)) c := by
  have hzero : c ≠ 0 := fun e => by simp [e] at hpos
  simp only [tapeWrite, ctlRead3_ok hu hm hc, orFail_ok, htape, Nat.not_lt.mpr hmost, if_false,
    hzero, hbuffer.scanCount, hostAnswer_next hgranted, if_true, appendToFile]

end Write

/-- Settles O46: the file's known bytes, and the buffer's after them. -/
theorem tapeWriteAppendsBytes : Obligations.TapeWriteAppendsBytes := by
  refine ⟨fun reg op s cs u m c i tape f rest hstart hu hm hc hi htape hmode hfile hknown hpos hmost
      hbuffer hgranted => ?appends,
    fun reg op s cs u m c hstart hu hm hc hnone =>
      hstart.reports_sameHost
        (tapeWrite_unavailable hu hm hc (tapeOf_unavailable (by decide) hnone))⟩
  have hrun := tapeWrite_granted hu hm hc (tapeOf_loaded hi htape hmode) hpos hmost hbuffer hgranted
  obtain ⟨t, hnext, hends, hmem, hdevices, hhost⟩ := hstart.ends hrun rfl
  have hfind := findFile_appendToFile (s := { s with answers := rest }) (bufferBytes s m c.toNat) hfile
  have hbytes := writeFileBytes_known s.draws (bufferBytes s m c.toNat) hknown
  refine ⟨t, _, hnext, hends, fun q => by rw [hmem]; rfl,
    by rw [hdevices.files, moveTape_files, hfind, if_pos rfl], ?known, ?length,
    fun k hk => ?byte, ?unit, fun j hj => ?otherUnit, fun other hother => ?otherFile,
    hdevices.discs, hdevices.keyboard, hdevices.screen, hhost.answers⟩
  case known => rw [hbytes, ← hknown, List.take_left]
  case length => rw [hbytes, List.length_append, hknown, bufferBytes_length]
  case byte =>
    rw [hbytes, List.getElem?_append_right (by omega), hknown, Nat.add_sub_cancel_left,
      bufferBytes_get s m hk]
  case unit => rw [hdevices.tapes, moveTape, setTape_get]
  case otherUnit => rw [hdevices.tapes, moveTape, setTape_get_other _ _ hj]; rfl
  case otherFile => rw [hdevices.files, moveTape_files, hfind, if_neg hother.symm]

end Sys2Proof.Machine
end

section
/-! PROOFS of the family 45_peri_terminal_time.md, the terminal operations (R171 to R174). -/

namespace Sys2Proof.Machine

theorem not_signed_neg_of_small {n : Word} (h : n.toNat < 2 ^ 31) : ¬ signed n < 0 := by
  rw [signed_neg_iff]
  omega

/-! ### $TERMINC and $TERMINW -/

@[simp] theorem stringLayout_length (chars : List Byte) :
    (stringLayout chars).length = chars.length / 4 + 1 := packedWords_length _ _

/-- R171, D40: each character of the buffer's words, those above the terminator included. -/
theorem stringLayout_get (chars : List Byte) {j : Nat} (hj : j < 4 * (chars.length / 4 + 1)) :
    ∃ w, (stringLayout chars)[j / 4]? = some w ∧ charOf w j = chars.getD j 0 :=
  ⟨_, packedWords_get chars (by omega), charOf_packedWord chars j⟩

@[simp] theorem wideLayout_length (chars : List Byte) :
    (wideLayout chars).length = chars.length := List.length_map _

theorem wideLayout_get (chars : List Byte) (j : Nat) :
    (wideLayout chars)[j]? = chars[j]?.map fun c => c.setWidth 32 := List.getElem?_map ..

/-- The characters that an input operation moves. -/
def inputChars (s : State) (most : Word) : List Byte :=
  s.keyboard.take (min most.toNat s.keyboard.length)

@[simp] theorem inputChars_length (s : State) (most : Word) :
    (inputChars s most).length = min most.toNat s.keyboard.length := by
  simp [inputChars]

theorem inputChars_get (s : State) (most : Word) {j : Nat}
    (hj : j < min most.toNat s.keyboard.length) :
    (inputChars s most)[j]? = s.keyboard[j]? := List.getElem?_take_of_lt hj

/-- R171, R173: the characters' words stored in a buffer, the characters taken from the keyboard. -/
theorem termIn_delivers {s : State} {cs most m : Word} {layout : List Byte → List Word} {n : Nat}
    (hmost : readWord s (cs + 1) = .ok most) (hm : readWord s (cs + 2) = .ok m)
    (hsmall : most.toNat < 2 ^ 31) (hn : (layout (inputChars s most)).length = n)
    (hbuffer : PlainBuffer s m n) :
    ∃ mem, termIn s cs layout =
        .done (takeKeys { s with mem := mem } (min most.toNat s.keyboard.length))
          (BitVec.ofNat 32 (min most.toNat s.keyboard.length)) ∧
      (∀ j w, (layout (inputChars s most))[j]? = some w →
        mem.read (m + BitVec.ofNat 32 j) = w) ∧
      ∀ q, ¬ inBuffer m n q → mem.read q = s.mem.read q := by
  have hlength : ((layout (inputChars s most)).map Content.word).length = n := by
    rw [List.length_map, hn]
  rw [← hlength] at hbuffer
  obtain ⟨mem, us, hrun, hstored, hother⟩ := hbuffer.storeAll
  refine ⟨mem, ?_, fun j w hw => ?_, hlength ▸ hother⟩
  · rw [inputChars] at hrun
    simp only [termIn, ctlRead2_ok hmost hm, orFail_ok, not_signed_neg_of_small hsmall, if_false,
      hrun]
  · exact hstored j (.word w) (by rw [List.getElem?_map, hw, Option.map_some])

/-- Settles O47: the words stored are the layout's, and its characters the keyboard's first. -/
theorem termInDeliversCharacters : Obligations.TermInDeliversCharacters := by
  intro reg op s cs most m k hmost hm hsmall
  have hk : (inputChars s most).length = k := inputChars_length s most
  refine ⟨fun hstart hbuffer => ?packed, fun hstart hbuffer => ?wide⟩
  case packed =>
    obtain ⟨mem, hrun, hstored, hother⟩ := termIn_delivers (layout := stringLayout) hmost hm hsmall
      (by rw [stringLayout_length, hk]) hbuffer
    obtain ⟨t, hnext, hends, hmem, hdevices, -⟩ := hstart.ends hrun rfl
    rw [takeKeys_mem] at hmem
    have hchar {j : Nat} (hj : j < 4 * (k / 4 + 1)) :
        charOf (t.mem.read (m + BitVec.ofNat 32 (j / 4))) j = (inputChars s most).getD j 0 := by
      obtain ⟨w, hw, hcharOf⟩ := stringLayout_get (inputChars s most) (hk ▸ hj)
      rw [hmem, hstored _ w hw, hcharOf]
    refine ⟨t, hnext, hends, fun j hj => ?_, fun j hkj hj => ?_,
      fun q hq => by rw [hmem, hother q hq], hdevices.keyboard, hdevices.discs,
      hdevices.tapes, hdevices.screen, hdevices.files⟩
    · have hlt : j < (inputChars s most).length := hk ▸ hj
      rw [hchar (by omega), ← inputChars_get s most hj, List.getD_eq_getElem _ _ hlt,
        List.getElem?_eq_getElem hlt]
    · rw [hchar hj, List.getD_eq_default _ _ (hk ▸ hkj)]
  case wide =>
    obtain ⟨mem, hrun, hstored, hother⟩ := termIn_delivers (layout := wideLayout) hmost hm hsmall
      (by rw [wideLayout_length, hk]) hbuffer
    obtain ⟨t, hnext, hends, hmem, hdevices, -⟩ := hstart.ends hrun rfl
    rw [takeKeys_mem] at hmem
    refine ⟨t, hnext, hends, fun j h hj => ?_, fun q hq => by rw [hmem, hother q hq],
      hdevices.keyboard, hdevices.discs, hdevices.tapes, hdevices.screen, hdevices.files⟩
    have hword : (wideLayout (inputChars s most))[j]? = some (s.keyboard[j].setWidth 32) := by
      rw [wideLayout_get, inputChars_get s most hj, List.getElem?_eq_getElem h, Option.map_some]
    rw [hmem, hstored j _ hword, BitVec.toNat_setWidth_of_le (by decide)]

/-! ### $TERMOUTC and $TERMOUTW -/

section Out

variable {s : State} {cs n m : Word} {char : Word → Nat → Access Byte} {chars : List Byte}
  (hn : readWord s (cs + 1) = .ok n) (hm : readWord s (cs + 2) = .ok m)
  (hchars : ∀ j (h : j < chars.length), char m j = .ok chars[j])
include hn hm hchars

theorem termOut_count (hpos : 0 < n.toInt) (hlength : chars.length = n.toNat) :
    termOut s cs char = .done (print s chars) n := by
  have hneg : ¬ signed n < 0 := Int.not_lt.mpr hpos.le
  have hzero : n ≠ 0 := fun e => by simp [e] at hpos
  have hscan : scanCount (char m) n.toNat 0 = .done chars :=
    scanCount_done _ _ _ _ (fun j hj => by
      rw [Nat.zero_add, hchars j (hlength ▸ hj), List.getD_eq_getElem _ _ (hlength ▸ hj)]) hlength
  simp only [termOut, ctlRead2_ok hn hm, orFail_ok, hneg, if_false, hzero, hscan]

/-- R172, R174: the zero character ends the string and is not printed. -/
theorem termOut_toZero (hzero : n = 0) (hlength : chars.length < 2 ^ 34)
    (hnone : (0 : Byte) ∉ chars) (hend : char m chars.length = .ok 0) :
    termOut s cs char = .done (print s chars) (BitVec.ofNat 32 chars.length) := by
  subst hzero
  have hneg : ¬ signed (0 : Word) < 0 := by decide
  have hscan : scanToZero (char m) addressSpaceChars 0 = .done chars :=
    scanToZero_done _ _ _ _ hlength (fun j hj => by
      rw [Nat.zero_add, hchars j hj, List.getD_eq_getElem _ _ hj]) (by rwa [Nat.zero_add]) hnone
  simp only [termOut, ctlRead2_ok hn hm, orFail_ok, hneg, if_false, if_true, hscan]

end Out

/-- An operation that only prints. -/
theorem PeriStarts.ends_print {s : State} {reg : Reg} {op : Operand} {cs code : Word} {k : PeriOp}
    {chars : List Byte} (h : PeriStarts s reg op cs k)
    (hrun : runPeri s cs k = .done (print s chars) code) :
    ∃ t, exec (.peri reg op) s = .next t ∧ PeriEnds s t reg code ∧ t.screen = s.screen ++ chars ∧
      SameMemory s t ∧ t.discs = s.discs ∧ t.tapes = s.tapes ∧ t.keyboard = s.keyboard ∧
      t.files = s.files := by
  obtain ⟨t, hnext, hends, hmem, hdevices, -⟩ := h.ends hrun rfl
  exact ⟨t, hnext, hends, hdevices.screen, fun q => by rw [hmem, print_mem], hdevices.discs,
    hdevices.tapes, hdevices.keyboard, hdevices.files⟩

/-- Settles O48: both operations are `termOut`, each with its own way to read a character. -/
theorem termOutPrintsCharacters : Obligations.TermOutPrintsCharacters := by
  intro reg op s cs n m k chars char hop hstart hn hm hchars
  have hrun : runPeri s cs k = termOut s cs (char s) := by
    rcases hop with ⟨rfl, rfl⟩ | ⟨rfl, rfl⟩ <;> rfl
  exact ⟨fun hpos hlength =>
      hstart.ends_print (hrun.trans (termOut_count hn hm hchars hpos hlength)),
    fun hzero hlength hnone hend =>
      hstart.ends_print (hrun.trans (termOut_toZero hn hm hchars hzero hlength hnone hend))⟩

end Sys2Proof.Machine
end

section
/-! PROOFS of the family 45_peri_terminal_time.md, the calendar (R178, D41). -/

namespace Sys2Proof.Machine

/-! ### Years -/

/-- The days of the `n` years from year `y` on. -/
def daysOfYears (y n : Nat) : Nat := ((List.range n).map fun k => yearDays (y + k)).sum

@[simp] theorem daysOfYears_zero (y : Nat) : daysOfYears y 0 = 0 := rfl

theorem daysOfYears_succ (y n : Nat) :
    daysOfYears y (n + 1) = yearDays y + daysOfYears (y + 1) n := by
  simp only [daysOfYears, List.range_succ_eq_map, List.map_cons, List.map_map, List.sum_cons,
    Nat.add_zero, Function.comp_def, Nat.succ_eq_add_one, Nat.add_assoc, Nat.add_comm 1]

theorem isLeapYear_iff (y : Nat) :
    isLeapYear y = true ↔ y % 4 = 0 ∧ (y % 100 ≠ 0 ∨ y % 400 = 0) := by
  simp only [isLeapYear, Bool.or_eq_true, Bool.and_eq_true, beq_iff_eq, bne_iff_ne]
  omega

theorem yearDays_eq_or (y : Nat) : yearDays y = 365 ∨ yearDays y = 366 := by
  rw [yearDays]
  split
  · exact .inr rfl
  · exact .inl rfl

theorem yearDays_eq_366_iff (y : Nat) : yearDays y = 366 ↔ isLeapYear y = true := by
  rw [yearDays]
  split <;> simp_all

theorem le_daysOfYears (y n : Nat) : n ≤ daysOfYears y n := by
  induction n generalizing y with
  | zero => exact Nat.zero_le _
  | succ n ih =>
    have hyear := yearDays_eq_or y
    have hrest := ih (y + 1)
    rw [daysOfYears_succ]
    omega

/-- The year that `splitYear` finds, and the day within it, count back to its days. -/
theorem splitYear_countsBack (fuel y d : Nat) (hfuel : d < 365 * fuel) :
    ∃ n rest, splitYear fuel y d = (y + n, rest) ∧ rest < yearDays (y + n) ∧
      d = daysOfYears y n + rest := by
  induction fuel generalizing y d with
  | zero => omega
  | succ fuel ih =>
    have hyear := yearDays_eq_or y
    by_cases hd : d < yearDays y
    · exact ⟨0, d, by rw [splitYear, if_pos hd, Nat.add_zero], hd, by simp⟩
    · obtain ⟨n, rest, hsplit, hrest, hdays⟩ := ih (y + 1) (d - yearDays y) (by omega)
      have hnext : y + 1 + n = y + (n + 1) := by omega
      rw [hnext] at hsplit hrest
      refine ⟨n + 1, rest, by rw [splitYear, if_neg hd, hsplit], hrest, ?_⟩
      rw [daysOfYears_succ]
      omega

/-! ### Months -/

theorem monthLengths_eq (y : Nat) :
    monthLengths y = [31, yearDays y - 337, 31, 30, 31, 30, 31, 31, 30, 31, 30, 31] := by
  cases hleap : isLeapYear y <;> simp [monthLengths, yearDays, hleap]

@[simp] theorem monthLengths_length (y : Nat) : (monthLengths y).length = 12 := rfl

theorem monthLengths_sum (y : Nat) : (monthLengths y).sum = yearDays y := by
  cases hleap : isLeapYear y <;> simp [monthLengths, yearDays, hleap]

/-- The month that `splitMonth` finds, and the day within it, count back to its days. -/
theorem splitMonth_countsBack (lengths : List Nat) (m d : Nat) (hd : d < lengths.sum) :
    ∃ j rest, splitMonth lengths m d = (m + j, rest) ∧ j < lengths.length ∧
      rest < lengths.getD j 0 ∧ d = (lengths.take j).sum + rest := by
  induction lengths generalizing m d with
  | nil => simp at hd
  | cons l ls ih =>
    by_cases hfirst : d < l
    · exact ⟨0, d, by rw [splitMonth, if_pos hfirst, Nat.add_zero], by simp, by simpa using hfirst,
        by simp⟩
    · rw [List.sum_cons] at hd
      obtain ⟨j, rest, hsplit, hj, hrest, hdays⟩ := ih (m + 1) (d - l) (by omega)
      refine ⟨j + 1, rest, ?_, by simpa using hj, by simpa using hrest, ?_⟩
      · rw [splitMonth, if_neg hfirst, hsplit, Nat.add_assoc, Nat.add_comm 1]
      · rw [List.take_succ_cons, List.sum_cons]
        omega

/-! ### A time -/

/-- The date of a day: `n` years after 2000, `j` months after January, `day` days after the month's
first. -/
structure CivilDate (days n j day : Nat) : Prop where
  inYear : j < 12
  inMonth : day < (monthLengths (2000 + n)).getD j 0
  countsBack : days = daysOfYears 2000 n + ((monthLengths (2000 + n)).take j).sum + day

/-- `civil` is a date of the Gregorian calendar and a time of day. -/
theorem civil_eq (t : Nat) :
    ∃ n j day, CivilDate (t / 86400) n j day ∧
      civil t = [2000 + n, 1 + j, day + 1, (t / 86400 + 6) % 7, t % 86400 / 3600,
        t % 3600 / 60, t % 60] := by
  obtain ⟨n, dayOfYear, hyear, hlt, hdays⟩ :=
    splitYear_countsBack (t / 86400 / 365 + 1) 2000 (t / 86400) (by omega)
  obtain ⟨j, day, hmonth, hj, hday, hcount⟩ :=
    splitMonth_countsBack (monthLengths (2000 + n)) 1 dayOfYear (by rwa [monthLengths_sum])
  exact ⟨n, j, day, ⟨hj, hday, by omega⟩, by simp only [civil, hyear, hmonth]⟩

theorem CivilDate.years_le {days n j day : Nat} (h : CivilDate days n j day) : n ≤ days := by
  have hyears := le_daysOfYears 2000 n
  have hcount := h.countsBack
  omega

theorem CivilDate.day_le {days n j day : Nat} (h : CivilDate days n j day) : day ≤ days := by
  have hcount := h.countsBack
  omega

theorem time_eq_days_and_clock (t : Nat) :
    t = 86400 * (t / 86400) + 3600 * (t % 86400 / 3600) + 60 * (t % 3600 / 60) + t % 60 := by
  omega

/-- Settles O51: years and months are counted off one by one, and the rest of a day is divided. -/
theorem civilPartsCountBack : Obligations.CivilPartsCountBack := by
  refine ⟨fun y => ⟨(yearDays_eq_366_iff y).trans (isLeapYear_iff y), yearDays_eq_or y,
    monthLengths_eq y⟩, fun t _ => ?_⟩
  obtain ⟨n, j, day, hdate, hcivil⟩ := civil_eq t
  have hmonth := hdate.inYear
  have hday := hdate.inMonth
  refine ⟨_, _, _, _, _, _, _, hcivil, by omega, by omega, by omega, by omega, ?_, by omega,
    by omega, by omega, by omega, ?_, rfl⟩
  · rw [Nat.add_sub_cancel_left]
    exact hday
  · have hcount := hdate.countsBack
    rw [daysOfYears] at hcount
    rw [Nat.add_sub_cancel_left, Nat.add_sub_cancel_left, Nat.add_sub_cancel, ← hcount]
    exact time_eq_days_and_clock t

end Sys2Proof.Machine
end

section
/-! PROOFS of the family 45_peri_terminal_time.md, the time operations (R175 to R178). -/

namespace Sys2Proof.Machine

/-! ### Words delivered, and a result that is not negative -/

/-- D39, log 37. -/
theorem toInt_and_mask_nonneg (w : Word) : 0 ≤ (w &&& 0x7FFFFFFF).toInt := by
  have hmsb : (w &&& 0x7FFFFFFF).msb = false := by
    rw [BitVec.msb_and, show (0x7FFFFFFF : Word).msb = false by decide, Bool.and_false]
  rw [BitVec.toInt_eq_toNat_of_msb hmsb]
  exact Int.natCast_nonneg _

theorem DeviceOnly.deliver {s t : State} (h : DeviceOnly s t) (mem : Memory) (draws : Nat) :
    DeviceOnly s { t with mem := mem, draws := draws } := by
  rw [DeviceOnly] at h
  rw [h]
  rfl

/-- An operation that stores words into a buffer and then ends with a result that the source does
not name. -/
theorem PeriStarts.ends_deliver {s t : State} {reg : Reg} {op : Operand} {cs a : Word} {k : PeriOp}
    {words : List Content} {n : Nat} (h : PeriStarts s reg op cs k)
    (hrun : runPeri s cs k = deliver t a words errReadParams fun u _ => doneNonNegative u)
    (ht : DeviceOnly s t) (hn : words.length = n) (hbuffer : PlainBuffer t a n) :
    ∃ u code, exec (.peri reg op) s = .next u ∧ PeriEnds s u reg code ∧ 0 ≤ code.toInt ∧
      (∀ j c, words[j]? = some c → u.mem.read (a + BitVec.ofNat 32 j) = contentWord c) ∧
      MemoryOutside t u (inBuffer a n) ∧ SameDevices t u ∧ u.clock = t.clock := by
  subst hn
  obtain ⟨mem, us, hdone, hstored, hother⟩ :=
    hbuffer.deliver errReadParams fun u _ => doneNonNegative u
  obtain ⟨u, hnext, hends, hmem, hdevices, hhost⟩ :=
    h.ends (hrun.trans hdone) (ht.deliver mem (t.draws + 1))
  exact ⟨u, _, hnext, hends, toInt_and_mask_nonneg _, fun j c hc => by rw [hmem, hstored j c hc],
    fun q hq => by rw [hmem, hother q hq], { hdevices with }, hhost.clock⟩

/-! ### $SECONDS and $USECONDS -/

theorem readClock_next {s : State} {c : ClockReading} {rest : List ClockReading}
    (h : s.clock = c :: rest) : readClock s = (c, { s with clock := rest }) := by rw [readClock, h]

/-- R177. -/
theorem microsWord_toNat {c : ClockReading} (h : c.micros < 1000000) :
    (microsWord c).toNat = c.micros := by
  rw [microsWord, BitVec.toNat_ofNat]
  omega

/-- Settles O49: both operations take the queue's first reading. -/
theorem clockReadingsAreHandedOn : Obligations.ClockReadingsAreHandedOn := by
  intro reg op s cs c rest hclock
  refine ⟨fun hstart => ?seconds, fun hstart hmicros hbuffer => ?useconds⟩
  case seconds =>
    have hrun : runPeri s cs .seconds = .done { s with clock := rest } c.seconds := by
      rw [runPeri, seconds, readClock_next hclock]
    obtain ⟨t, hnext, hends, hmem, hdevices, hhost⟩ := hstart.ends hrun rfl
    exact ⟨t, hnext, hends, hhost.clock, fun q => by rw [hmem], { hdevices with }⟩
  case useconds =>
    have hrun : runPeri s cs .useconds =
        deliver { s with clock := rest } (cs + 1) [.word c.seconds, .word (microsWord c)]
          errReadParams fun u _ => doneNonNegative u := by
      rw [runPeri, useconds, readClock_next hclock]
    obtain ⟨t, code, hnext, hends, hcode, hstored, hother, hdevices, hrest⟩ :=
      hstart.ends_deliver (n := 2) hrun rfl rfl { hbuffer with }
    have hseconds : t.mem.read (cs + 1) = c.seconds := by
      simpa using hstored 0 _ rfl
    have husec : t.mem.read (cs + 2) = microsWord c := by
      simpa [BitVec.add_assoc] using hstored 1 _ rfl
    exact ⟨t, code, hnext, hends, hcode, hseconds, by rw [husec, microsWord_toNat hmicros], hother,
      hrest, { hdevices with }⟩

/-! ### $DATETIME -/

theorem civil_length (t : Nat) : (civil t).length = 7 := rfl

/-- The parts of a time that is a word are words. -/
theorem civil_lt {t part : Nat} (ht : t < 2 ^ 31) (hpart : part ∈ civil t) : part < 2 ^ 32 := by
  obtain ⟨n, j, day, hdate, hcivil⟩ := civil_eq t
  have hyears := hdate.years_le
  have hmonth := hdate.inYear
  have hday := hdate.day_le
  rw [hcivil] at hpart
  simp only [List.mem_cons, List.not_mem_nil, or_false] at hpart
  omega

section DateTime

variable {s : State} {cs time : Word} (htime : readWord s (cs + 1) = .ok time)
include htime

theorem dateTime_small (h : time.toNat < 2 ^ 31) :
    dateTime s cs = deliver s (cs + 2)
      ((civil time.toNat).map fun n => .word (BitVec.ofNat 32 n)) errReadParams
      fun u _ => doneNonNegative u := by
  have hmsb : time.msb = false := by
    rw [BitVec.msb_eq_false_iff_two_mul_lt]
    omega
  simp only [dateTime, ctlRead_one htime, orFail_ok, hmsb, Bool.false_eq_true, if_false]

/-- U11, log 29. -/
theorem dateTime_large (h : 2 ^ 31 ≤ time.toNat) :
    dateTime s cs = .refused (.timeOutOfRange time) := by
  have hmsb : time.msb = true := by
    rw [BitVec.msb_eq_true_iff_two_mul_ge]
    omega
  simp only [dateTime, ctlRead_one htime, orFail_ok, hmsb, if_true]

end DateTime

/-- Settles O50: the parts are words, so the words delivered read as the parts. -/
theorem dateTimeWritesParts : Obligations.DateTimeWritesParts := by
  intro reg op s cs time hstart htime
  refine ⟨fun hsmall hbuffer => ?_, fun hlarge => hstart.refused (dateTime_large htime hlarge)⟩
  obtain ⟨t, code, hnext, hends, hcode, hstored, hother, hdevices, -⟩ :=
    hstart.ends_deliver (dateTime_small htime hsmall) (DeviceOnly.refl s)
      (by rw [List.length_map, civil_length]) hbuffer
  refine ⟨t, code, hnext, hends, hcode, fun k hk => ?_, hother, hdevices⟩
  have hk' : k < (civil time.toNat).length := by rwa [civil_length]
  have hpart := List.getElem?_eq_getElem hk'
  have hlt := civil_lt hsmall (List.getElem_mem hk')
  rw [hstored k _ (by rw [List.getElem?_map, hpart, Option.map_some]), contentWord_word,
    BitVec.toNat_ofNat, Nat.mod_eq_of_lt hlt, hpart]

end Sys2Proof.Machine
end

section
/-! PROOFS of the family 60_exceptions.md: the entry of an interrupt, its failures, and the return from it
(R200 to R210, R227). -/

namespace Sys2Proof.Machine

/-! ### What the entry of an interrupt does not look at -/

/-- What an access depends on: VM, SYS, PDBR, the launch parameters and memory. -/
theorem readWord_congr {s t : State} (a : Word) (hvm : t.flags.vm = s.flags.vm)
    (hsys : t.flags.sys = s.flags.sys) (hpdbr : t.pdbr = s.pdbr) (hparams : t.params = s.params)
    (hmem : SameMemory s t) : readWord t a = readWord s a := by
  have hsize : t.params.physWords = s.params.physWords := by rw [hparams]
  rw [readWord, readWord, translationHasNoMemory s t a hvm hsys hpdbr hsize hmem,
    physRead_congr hsize hmem]

/-- Why a sequence of two accesses is refused. -/
theorem bind_eq_refused {α β : Type} {x : Access α} {f : α → Access β} {r : Refusal}
    (h : Except.bind x f = refused r) : x = refused r ∨ ∃ a, x = .ok a ∧ f a = refused r := by
  cases x with
  | error e => exact .inl (by simpa [Except.bind, refused] using h)
  | ok a => exact .inr ⟨a, rfl, h⟩

/-- Drawing free values changes nothing that the pushes of a frame depend on. -/
theorem PushesReach.drawn {s : State} {slot : Fin 21 → Word} {n : Nat} (h : PushesReach s slot n)
    (d : Nat) : PushesReach { s with draws := d } slot n := ⟨h.present, h.maps⟩

theorem PushFails.drawn {s : State} {slot : Fin 21 → Word} {n : Fin 21} (h : PushFails s slot n)
    (d : Nat) : PushFails { s with draws := d } slot n := ⟨h.reached.drawn d, h.fails⟩

theorem CanEnter.drawn {s : State} {c : IntCode} {handler : Word} {slot : Fin 21 → Word}
    (h : CanEnter s c handler slot) (d : Nat) : CanEnter { s with draws := d } c handler slot :=
  ⟨h.entryIs, h.handled, h.stack.drawn d⟩

/-! ### `enter`, by what the vector entry reads as -/

section Enter

variable {s : State} {c : IntCode} {addr info : Content}

theorem enter_unreadable {j : Interrupt} (h : vectorEntry s c = raised j) :
    enter c addr info s = .invalid s := by
  rw [vectorEntry] at h
  rw [enter, h]
  rfl

/-- D16: a zero entry declines. -/
theorem enter_declined (h : vectorEntry s c = .ok 0) : enter c addr info s = .notHandled := by
  rw [vectorEntry] at h
  simp only [enter, h, if_true]

variable {handler : Word} {us : List Word} (h : vectorEntry s c = .ok handler) (hz : handler ≠ 0)
include h hz

theorem enter_pushed {t : State}
    (hrun : storeAll (systemView s true) [] (stackStores s.syssp (frameWords s c addr info)) =
      .done t us) :
    enter c addr info s = .entered { t with syssp := s.syssp - 21, pc := handler } := by
  rw [vectorEntry] at h
  simp only [enter, h, if_neg hz, hrun, frameWords_length]
  rfl

theorem enter_abandoned {i : Interrupt}
    (hrun : storeAll (systemView s true) [] (stackStores s.syssp (frameWords s c addr info)) =
      .failed i us) :
    enter c addr info s = .invalid (scramble s us) := by
  rw [vectorEntry] at h
  simp only [enter, h, if_neg hz, hrun]

end Enter

/-! ### An entry that succeeds -/

/-- The state in which a handler starts, with the frame in memory `m` and `d` free values drawn. -/
def handlerState (s : State) (d : Nat) (handler : Word) (m : Memory) : State :=
  { duringEntry s m with draws := d, syssp := s.syssp - 21, pc := handler }

/-- The memory `m` holds the 21 words of a frame of `s` in the physical words `slot`, and differs from that
of `s` nowhere else. -/
structure FrameStored (s : State) (c : IntCode) (addr info : Content) (slot : Fin 21 → Word)
    (m : Memory) : Prop where
  words : ∀ k : Fin 21, some (m.content (slot k)) = (frameWords s c addr info)[k.val]?
  pushed : PushedInto s slot 21 m

/-- A run of pushes over a whole frame that can be pushed. -/
theorem PushesReach.frameStored {s : State} {slot : Fin 21 → Word} (h : PushesReach s slot 21)
    (c : IntCode) (addr info : Content) :
    ∃ m us, storeAll (systemView s true) [] (stackStores s.syssp (frameWords s c addr info)) =
        .done (duringEntry s m) us ∧ FrameStored s c addr info slot m := by
  obtain ⟨m, us, hrun, hout, hin⟩ := h.storeAll_done (le_refl 21)
    (frameWords s c addr info) 0 s.mem [] (by simp) (pushedInto_self s slot 21)
  rw [BitVec.sub_zero, duringEntry_self] at hrun
  refine ⟨m, us, hrun, fun k => hin k (Nat.zero_le _) k.isLt, fun q hq => ?_⟩
  rw [Memory.read, Memory.read, hout q fun k _ hk => hq k hk]

/-- 60_exceptions.md R205: with a handler and a stack that takes the frame, the handler is entered. -/
theorem CanEnter.enter {s : State} {c : IntCode} {handler : Word} {slot : Fin 21 → Word}
    (h : CanEnter s c handler slot) (addr info : Content) (d : Nat) :
    ∃ m, enter c addr info { s with draws := d } = .entered (handlerState s d handler m) ∧
      FrameStored s c addr info slot m := by
  obtain ⟨m, us, hrun, hstored⟩ := (h.stack.drawn d).frameStored c addr info
  refine ⟨m, ?_, hstored.words, hstored.pushed⟩
  exact enter_pushed (h.drawn d).entryIs h.handled hrun

section Frame

variable {s : State} {c : IntCode} {addr info : Content} {slot : Fin 21 → Word} {m : Memory}

theorem frameWords_register {k : Nat} {v : Word} (h : (savedRegisters s s.pc)[k]? = some v) :
    (frameWords s c addr info)[k]? = some (.word v) := by
  have hk : k < 16 := by simpa using (List.getElem?_eq_some_iff.mp h).1
  rw [frameWords, List.getElem?_append_left (by simpa using hk), List.getElem?_map, h,
    Option.map_some]

/-- After the registers come the parameters, the code, the flags and the marker. -/
theorem frameWords_rest (j : Nat) :
    (frameWords s c addr info)[16 + j]? =
      [info, addr, .word (codeWord c), .word s.flags.toWord, .word frameMarker][j]? := by
  rw [frameWords, List.getElem?_append_right (by simp)]
  simp

variable (h : FrameStored s c addr info slot m)
include h

theorem FrameStored.read {k : Fin 21} {x : Content}
    (hx : (frameWords s c addr info)[k.val]? = some x) : m.read (slot k) = contentWord x := by
  have hword : some (m.content (slot k)) = some x := (h.words k).trans hx
  rw [Memory.read, Option.some.inj hword]

theorem FrameStored.read_info : m.read (slot 16) = contentWord info := h.read (frameWords_rest 0)

theorem FrameStored.read_addr : m.read (slot 17) = contentWord addr := h.read (frameWords_rest 1)

/-- 60_exceptions.md R205, R207: what the handler finds. -/
theorem FrameStored.handlerEntered (d : Nat) (handler : Word) :
    HandlerEntered s { handlerState s d handler m with retired := false } c handler slot where
  pc := rfl
  flags := duringEntry_flags s m
  stackPointer := rfl
  savedR i := h.read (k := ⟨i.val, by omega⟩) (frameWords_register (savedRegisters_gpr s _ i))
  savedSp := h.read (k := 13) (frameWords_register (savedRegisters_rest s _ 0))
  savedFp := h.read (k := 14) (frameWords_register (savedRegisters_rest s _ 1))
  savedPc := h.read (k := 15) (frameWords_register (savedRegisters_rest s _ 2))
  savedCode := h.read (k := 18) (frameWords_rest 2)
  savedFlags := h.read (k := 19) (frameWords_rest 3)
  marker := h.read (k := 20) (frameWords_rest 4)
  memory q hq := h.pushed q fun k _ he => hq ⟨k, he⟩
  gpr := rfl
  userSp := rfl
  userFp := rfl
  systemFp := rfl
  specials := ⟨rfl, rfl, rfl, rfl, rfl, rfl⟩
  devices := ⟨rfl, rfl, rfl, rfl, rfl⟩
  host := ⟨rfl, rfl, rfl, rfl, rfl⟩

end Frame

/-! ### An entry whose pushes fail -/

/-- 20_memory.md R46, D29: an access is refused only under a misaligned page directory. -/
theorem readWord_refused {s : State} {a : Word} {r : Refusal} (h : readWord s a = refused r) :
    s.flags.vm = true ∧ s.pdbr.toNat % 1024 ≠ 0 := by
  have hphys (p : Word) : physRead s p ≠ refused r := by
    rw [physRead]
    split <;> simp [raised, refused]
  have hentry (entry : Word) : translateEntry s a entry ≠ refused r := by
    rw [translateEntry]
    split
    · simp [raised, refused]
    split <;> simp [raised, refused]
  cases hvm : s.flags.vm with
  | false => exact absurd (readWord_of_vm_off a hvm ▸ h) (hphys a)
  | true =>
    refine ⟨rfl, fun haligned => ?_⟩
    rcases bind_eq_refused h with h | ⟨p, -, h⟩
    · rw [translate_walk hvm haligned] at h
      rcases bind_eq_refused h with h | ⟨table, -, h⟩
      · exact hphys _ h
      split at h
      · cases h
      rcases bind_eq_refused h with h | ⟨entry, -, h⟩
      · exact hphys _ h
      · exact hentry entry h
    · exact hphys p h

section PushFails

variable {s : State} {slot : Fin 21 → Word} {n : Fin 21} (h : PushFails s slot n)
include h

/-- Where a push of the frame fails rather than being refused, no access to memory is refused. -/
theorem PushFails.readWord_ne_refused {t : State} (hvm : t.flags.vm = s.flags.vm)
    (hpdbr : t.pdbr = s.pdbr) (a : Word) (r : Refusal) : readWord t a ≠ refused r := by
  intro hr
  obtain ⟨hon, hmis⟩ := readWord_refused hr
  obtain ⟨i, hi⟩ := h.fails s.mem (pushedInto_self s slot n.val)
  have hrefused : readWord (duringEntry s s.mem) (frameAddress s n) =
      refused (.pageDirectoryMisaligned s.pdbr) := by
    rw [readWord, translate_misaligned (hvm ▸ hon) (hpdbr ▸ hmis)]
    rfl
  cases hrefused.symm.trans hi

/-- An entry made while a push of the frame fails is abandoned, or declined before it: its pushes reach no
word but those before the failing one. -/
theorem PushFails.enter {m : Memory} (hm : PushedInto s slot n.val m) (d : Nat) (c : IntCode)
    (addr info : Content) :
    (vectorEntry { s with mem := m, draws := d } c = .ok 0 ∧
      enter c addr info { s with mem := m, draws := d } = .notHandled) ∨
    ∃ m' d', enter c addr info { s with mem := m, draws := d } =
        .invalid { s with mem := m', draws := d' } ∧ PushedInto s slot n.val m' := by
  cases hentry : vectorEntry { s with mem := m, draws := d } c with
  | error e =>
    cases e with
    | refuse r => exact absurd hentry (h.readWord_ne_refused (by simp) (by simp) _ r)
    | raise j => exact .inr ⟨m, d, enter_unreadable hentry, hm⟩
  | ok handler =>
    by_cases hz : handler = 0
    · subst hz
      exact .inl ⟨rfl, enter_declined hentry⟩
    · obtain ⟨i, us, hfail, hus⟩ := (h.drawn d).storeAll_failed
        (frameWords { s with mem := m, draws := d } c addr info) 0 m [] (by simp) (Nat.zero_le _)
        hm (by simp)
      rw [BitVec.sub_zero] at hfail
      have hinvalid := enter_abandoned hentry hz hfail
      refine .inr ⟨_, _, hinvalid.trans (congrArg _ (scramble_frame us _)), fun q hq => ?_⟩
      rw [scramble_read us _ fun hmem => by obtain ⟨k, hk, he⟩ := hus q hmem; exact hq k hk he]
      exact hm q hq

/-- INTRFAULT's own frame fails at the same place (60_exceptions.md R208, R210). -/
theorem PushFails.failEntry {m : Memory} (hm : PushedInto s slot n.val m) (d : Nat) (c : IntCode)
    (addr : Content) :
    ∃ last, failEntry c addr { s with mem := m, draws := d } = .stopped c (contentWord addr) last := by
  rcases h.enter hm d .intrFault addr (.word (codeWord c)) with ⟨-, henter⟩ | ⟨m', d', henter, -⟩
  · exact ⟨_, by rw [Machine.failEntry, henter]⟩
  · exact ⟨_, by rw [Machine.failEntry, henter]⟩

end PushFails

/-! ### Raising an interrupt -/

@[simp] theorem contentWord_parameter (k : Nat) (w : Word) : contentWord (parameter k (some w)) = w :=
  rfl

section Raise

variable {i : Interrupt} {s : State}

theorem takeInterrupt_of_entered {t : State} (h : raise i s = .entered t) :
    takeInterrupt i s = .next { t with retired := false } := by rw [takeInterrupt, h]

theorem takeInterrupt_of_dropped (h : raise i s = .dropped) :
    takeInterrupt i s = .next { s with retired := false } := by rw [takeInterrupt, h]

theorem takeInterrupt_of_stopped {c : IntCode} {a : Word} {last : State}
    (h : raise i s = .stopped c a last) :
    takeInterrupt i s = .fault (.stopped c a { last with retired := false }) := by
  rw [takeInterrupt, h]
  rfl

/-- 60_exceptions.md R205, R207. -/
theorem raise_canEnter {handler : Word} {slot : Fin 21 → Word} (hip : s.flags.ip = false)
    (h : CanEnter s i.code handler slot) :
    ∃ m, raise i s = .entered (handlerState s (s.draws + 2) handler m) ∧
      FrameStored s i.code (parameter s.draws i.addr) (parameter (s.draws + 1) i.info) slot m := by
  obtain ⟨m, henter, hstored⟩ := h.enter (parameter s.draws i.addr)
    (parameter (s.draws + 1) i.info) (s.draws + 2)
  refine ⟨m, ?_, hstored⟩
  simp only [raise, hip, henter, Bool.false_eq_true, if_false]

/-- R202: with IP = 1 a notification is lost. -/
theorem raise_notification_masked (hip : s.flags.ip = true) (hn : isNotification i.code = true) :
    raise i s = .dropped := by
  simp only [raise, hip, hn, if_true]

/-- D16: a handler of 0 declines. -/
theorem raise_declined (hip : s.flags.ip = false) (h : vectorEntry s i.code = .ok 0) :
    raise i s = if isNotification i.code then .dropped
      else .stopped i.code (contentWord (parameter s.draws i.addr))
        { s with draws := s.draws + 2 } := by
  have henter (addr info : Content) :
      enter i.code addr info { s with draws := s.draws + 2 } = .notHandled := enter_declined h
  simp only [raise, hip, henter, Bool.false_eq_true, if_false]

/-- R203, R208: what goes to INTRFAULT without a push. -/
theorem raise_eq_failEntry
    (h : s.flags.ip = true ∧ isNotification i.code = false ∨
      s.flags.ip = false ∧ ∃ j, vectorEntry s i.code = raised j) :
    raise i s = failEntry i.code (parameter s.draws i.addr) { s with draws := s.draws + 2 } := by
  rcases h with ⟨hip, hn⟩ | ⟨hip, j, hj⟩
  · simp only [raise, hip, hn, Bool.false_eq_true, if_false, if_true]
  · have henter (addr info : Content) :
        enter i.code addr info { s with draws := s.draws + 2 } =
          .invalid { s with draws := s.draws + 2 } := enter_unreadable hj
    simp only [raise, hip, henter, Bool.false_eq_true, if_false]

/-- R208: INTRFAULT is entered with the second parameter kept and the code as the third. -/
theorem failEntry_canEnter {handler : Word} {slot : Fin 21 → Word}
    (h : CanEnter s .intrFault handler slot) (c : IntCode) (addr : Content) (d : Nat) :
    ∃ m, failEntry c addr { s with draws := d } = .entered (handlerState s d handler m) ∧
      FrameStored s .intrFault addr (.word (codeWord c)) slot m := by
  obtain ⟨m, henter, hstored⟩ := h.enter addr (.word (codeWord c)) d
  exact ⟨m, by rw [failEntry, henter], hstored⟩

/-- D15, D17: there is no third level. -/
theorem failEntry_unavailable
    (h : vectorEntry s .intrFault = .ok 0 ∨ ∃ j, vectorEntry s .intrFault = raised j)
    (c : IntCode) (addr : Content) (d : Nat) :
    failEntry c addr { s with draws := d } =
      .stopped c (contentWord addr) { s with draws := d } := by
  rcases h with hzero | ⟨j, hj⟩
  · have henter : enter .intrFault addr (.word (codeWord c)) { s with draws := d } = .notHandled :=
      enter_declined hzero
    rw [failEntry, henter]
  · have henter : enter .intrFault addr (.word (codeWord c)) { s with draws := d } =
        .invalid { s with draws := d } := enter_unreadable hj
    rw [failEntry, henter]

/-- R208, R210: where a push of the frame fails, the run stops under the interrupt's own code. -/
theorem PushFails.raise {slot : Fin 21 → Word} {n : Fin 21} (h : PushFails s slot n)
    (hcase : s.flags.ip = true ∧ isNotification i.code = false ∨
      s.flags.ip = false ∧ vectorEntry s i.code ≠ .ok 0) :
    ∃ last, raise i s = .stopped i.code (contentWord (parameter s.draws i.addr)) last := by
  have hself := pushedInto_self s slot n.val
  rcases hcase with ⟨hip, hn⟩ | ⟨hip, hentry⟩
  · rw [raise_eq_failEntry (.inl ⟨hip, hn⟩)]
    exact h.failEntry hself _ _ _
  · rcases h.enter hself (s.draws + 2) i.code (parameter s.draws i.addr)
      (parameter (s.draws + 1) i.info) with ⟨hzero, -⟩ | ⟨m, d, henter, hm⟩
    · exact absurd hzero hentry
    · obtain ⟨last, hlast⟩ := h.failEntry hm d i.code (parameter s.draws i.addr)
      refine ⟨last, ?_⟩
      simp only [Machine.raise, hip, Bool.false_eq_true, if_false]
      rw [henter]
      exact hlast

end Raise

/-- What every stop of the run comes to: the original code, the interrupt's own second parameter, and the
state of the raise. -/
theorem takeInterrupt_stops {i : Interrupt} {s last : State} {k : Nat}
    (h : raise i s = .stopped i.code (contentWord (parameter k i.addr)) last) :
    ∃ a, takeInterrupt i s = .fault (.stopped i.code a { last with retired := false }) ∧
      StoppedIn s { last with retired := false } ∧ ∀ addr, i.addr = some addr → a = addr :=
  ⟨_, takeInterrupt_of_stopped h, raise_stoppedIn h, fun addr ha => by
    rw [ha, contentWord_parameter]⟩

/-! ### The statements about `takeInterrupt` -/

/-- Settles O33: an entry is one run of pushes, and a push that fails ends INTRFAULT's run at the same place. -/
theorem interruptEntersHandler : Obligations.InterruptEntersHandler := by
  intro i s slot
  refine ⟨fun handler hip hcan => ?entered, fun handler hcase hcan => ?intrFault,
    fun n hcase hfails => ?stopped⟩
  case entered =>
    obtain ⟨m, hraise, hstored⟩ := raise_canEnter hip hcan
    refine ⟨_, takeInterrupt_of_entered hraise, hstored.handlerEntered _ _, fun addr ha => ?_,
      fun info hinfo => ?_⟩
    · exact hstored.read_addr.trans (by rw [ha, contentWord_parameter])
    · exact hstored.read_info.trans (by rw [hinfo, contentWord_parameter])
  case intrFault =>
    obtain ⟨m, hfail, hstored⟩ :=
      failEntry_canEnter hcan i.code (parameter s.draws i.addr) (s.draws + 2)
    refine ⟨_, takeInterrupt_of_entered ((raise_eq_failEntry hcase).trans hfail),
      hstored.handlerEntered _ _, fun addr ha => ?_, hstored.read_info⟩
    exact hstored.read_addr.trans (by rw [ha, contentWord_parameter])
  case stopped =>
    obtain ⟨last, hraise⟩ := hfails.raise hcase
    obtain ⟨a, htake, hstopped, haddr⟩ := takeInterrupt_stops hraise
    exact ⟨a, _, htake, hstopped, haddr⟩

/-- Settles O34: an interrupt that is declined, or whose INTRFAULT entry is not available, pushes nothing. -/
theorem declinedInterruptStopsOrIsDropped : Obligations.DeclinedInterruptStopsOrIsDropped := by
  intro i s
  refine ⟨fun hip hzero => ⟨fun hn => ?dropped, fun hn => ?declined⟩, fun hip hn => ?masked,
    fun hcase hunavailable => ?noThirdLevel⟩
  case dropped =>
    exact takeInterrupt_of_dropped (by rw [raise_declined hip hzero, if_pos hn])
  case declined =>
    obtain ⟨a, htake, hstopped, haddr⟩ := takeInterrupt_stops (i := i) (s := s)
      (by rw [raise_declined hip hzero, hn, if_neg Bool.false_ne_true])
    exact ⟨a, _, htake, hstopped, fun _ => rfl, haddr⟩
  case masked => exact takeInterrupt_of_dropped (raise_notification_masked hip hn)
  case noThirdLevel =>
    obtain ⟨a, htake, hstopped, haddr⟩ := takeInterrupt_stops
      ((raise_eq_failEntry hcase).trans (failEntry_unavailable hunavailable _ _ _))
    exact ⟨a, _, htake, hstopped, fun _ => rfl, haddr⟩

/-! ### The return from an entry -/

@[refl] theorem SameSpecials.refl (s : State) : SameSpecials s s := ⟨rfl, rfl, rfl, rfl, rfl, rfl⟩

theorem SameSpecials.trans {s t u : State} (h : SameSpecials s t) (k : SameSpecials t u) :
    SameSpecials s u where
  pdbr := Eq.trans k.pdbr h.pdbr
  intvec := Eq.trans k.intvec h.intvec
  cgbr := Eq.trans k.cgbr h.cgbr
  cglen := Eq.trans k.cglen h.cglen
  debug := Eq.trans k.debug h.debug
  timer := Eq.trans k.timer h.timer

theorem SameHost.trans {s t u : State} (h : SameHost s t) (k : SameHost t u) : SameHost s u where
  running := Eq.trans k.running h.running
  params := Eq.trans k.params h.params
  arrivals := Eq.trans k.arrivals h.arrivals
  answers := Eq.trans k.answers h.answers
  clock := Eq.trans k.clock h.clock

/-- What an entry has pushed can be read back in the handler's first state. -/
theorem FrameStored.readWord {s : State} {c : IntCode} {addr info : Content}
    {slot : Fin 21 → Word} {m : Memory} (h : FrameStored s c addr info slot m)
    (hreach : PushesReach s slot 21) (d : Nat) (handler : Word) (k : Fin 21) :
    readWord { handlerState s d handler m with retired := false } (frameAddress s k) =
      .ok (m.read (slot k)) := by
  have hduring : Machine.readWord (duringEntry s m) (frameAddress s k) = .ok (m.read (slot k)) :=
    readWord_present (hreach.maps m h.pushed k k.isLt) (hreach.present k k.isLt)
  rw [← hduring]
  exact readWord_congr _ rfl rfl rfl rfl fun _ => rfl

/-- The words of a frame, seen from the stack pointer that the entry leaves. -/
theorem frameAddress_above (s : State) {j : Nat} (hj : j ≤ 20) :
    s.syssp - 21 + BitVec.ofNat 32 j = frameAddress s ⟨20 - j, by omega⟩ := by
  have hframe : (21 : Word) = BitVec.ofNat 32 (20 - j + 1) + BitVec.ofNat 32 j := by
    rw [← BitVec.ofNat_add, show 20 - j + 1 + j = 21 by omega]
    rfl
  rw [frameAddress, sub_one_sub_ofNat, hframe]
  ring

/-- SP and FP of both banks, from the active ones and the dormant ones. -/
theorem sameRegisters_of_banks {s u : State} (hflags : u.flags = s.flags)
    (hgpr : ∀ i : Fin 13, getReg u (.r i) = s.gpr[i]) (hsp : getReg u .sp = getReg s .sp)
    (hfp : getReg u .fp = getReg s .fp) (hdormant : dormantBank u = dormantBank s) :
    SameRegisters s u := by
  have hgpr : u.gpr = s.gpr := Vector.ext fun i hi => hgpr ⟨i, hi⟩
  cases hs : s.flags.sys <;>
    simp only [getReg, dormantBank, hflags, hs, Bool.false_eq_true, if_false, if_true,
      Prod.mk.injEq] at hsp hfp hdormant
  · exact ⟨hgpr, hsp, hfp, hdormant.1, hdormant.2⟩
  · exact ⟨hgpr, hdormant.1, hdormant.2, hsp, hfp⟩

section Iret

variable {s t : State} {c : IntCode} {handler : Word} {slot : Fin 21 → Word}
  (h : HandlerEntered s t c handler slot)
include h

/-- SP and FP of the mode that IRET does not return to, once the frame is popped. -/
theorem HandlerEntered.dormantBank_popped {u : State} (hflags : u.flags = s.flags)
    (huser : u.flags.sys = true → u.usp = t.usp ∧ u.ufp = t.ufp)
    (hsystem : u.flags.sys = false → u.syssp = t.syssp + 21 ∧ u.sysfp = t.sysfp) :
    dormantBank u = dormantBank s := by
  rw [hflags] at huser hsystem
  cases hs : s.flags.sys with
  | true =>
    obtain ⟨husp, hufp⟩ := huser hs
    simp only [dormantBank, hflags, hs, if_true, husp, hufp, h.userSp, h.userFp]
  | false =>
    obtain ⟨hsyssp, hsysfp⟩ := hsystem hs
    have hback : u.syssp = s.syssp := by rw [hsyssp, h.stackPointer, BitVec.sub_add_cancel]
    simp only [dormantBank, hflags, hs, Bool.false_eq_true, if_false, hback, hsysfp, h.systemFp]

variable (hread : ∀ k, Machine.readWord t (frameAddress s k) = .ok (t.mem.read (slot k)))
include hread

theorem HandlerEntered.readWord_above {j : Nat} (hj : j ≤ 20) :
    Machine.readWord t (t.syssp + BitVec.ofNat 32 j) =
      .ok (t.mem.read (slot ⟨20 - j, by omega⟩)) := by
  rw [h.stackPointer, frameAddress_above s hj, hread]

/-- The words above the marker, the flags and the three words that IRET skips. -/
theorem HandlerEntered.readWord_saved (k : Fin 16) :
    Machine.readWord t (t.syssp + 5 + BitVec.ofNat 32 k.val) =
      .ok (t.mem.read (slot ⟨15 - k.val, by omega⟩)) := by
  have hplace : 20 - (5 + k.val) = 15 - k.val := by omega
  rw [BitVec.add_assoc, show (5 : Word) = BitVec.ofNat 32 5 from rfl, ← BitVec.ofNat_add,
    h.readWord_above hread (by omega)]
  simp only [hplace]

/-- 43_system_instructions.md R132: IRET in the handler's first state pops the frame word by word. -/
theorem HandlerEntered.iret :
    ∃ u, exec .iret t = .next u ∧ SameRegisters s u ∧ u.flags = s.flags ∧ u.pc = s.pc ∧
      SameSpecials s u ∧ SameDevices s u ∧ SameHost s u := by
  have hmarker : Machine.readWord t t.syssp = .ok 38 := by
    rw [← h.marker, ← BitVec.add_zero t.syssp]
    exact h.readWord_above hread (j := 0) (by omega)
  have holdFlags : Machine.readWord t (t.syssp + 1) = .ok s.flags.toWord := by
    rw [← h.savedFlags]
    exact h.readWord_above hread (j := 1) (by omega)
  obtain ⟨hiret, -⟩ := iretRestoresFrame t
  obtain ⟨-, -, hpops⟩ := hiret (by rw [h.flags])
  obtain ⟨hrestored, -⟩ := hpops _ holdFlags
  obtain ⟨u, hnext, huflags, hpc, hfp, hsp, hgpr, huser, hsystem, hspecials, -, hdevices, hhost⟩ :=
    hrestored _ hmarker (h.readWord_saved hread)
  have hflags : u.flags = s.flags := by
    rw [← Flags.ofWord_toWord u.flags, huflags, ← Flags.toWord_ofWord, Flags.ofWord_toWord,
      Flags.ofWord_toWord]
  refine ⟨u, hnext, sameRegisters_of_banks hflags (fun i => ?_) (hsp.trans h.savedSp)
    (hfp.trans h.savedFp) (h.dormantBank_popped hflags huser hsystem), hflags,
    hpc.trans h.savedPc, h.specials.trans hspecials, h.devices.trans hdevices, h.host.trans hhost⟩
  have hplace : 15 - (15 - i.val) = i.val := by omega
  rw [hgpr i, ← h.savedR i]
  simp only [hplace]

end Iret

/-- Settles O35: the handler's first state has the frame at SYSSP, where IRET finds it. -/
theorem iretUndoesEntry : Obligations.IretUndoesEntry := by
  intro i s t handler slot hip hcan ht
  obtain ⟨m, hraise, hstored⟩ := raise_canEnter hip hcan
  cases (takeInterrupt_of_entered hraise).symm.trans ht
  exact (hstored.handlerEntered _ handler).iret (hstored.readWord hcan.stack _ handler)

end Sys2Proof.Machine
end

section
/-! PROOFS of the family 60_exceptions.md: how an instruction ends, and where PRIVOP is raised (R210, R215, R218,
R229, R231). -/

namespace Sys2Proof.Machine

/-! ### The interrupts of an instruction and its fetch -/

/-- The codes that an instruction, its fetch or the debug trap can raise: every one but the notifications, code
0, DIVZERO (60_exceptions.md R215) and INTRFAULT. -/
def isSynchronous : IntCode → Bool
  | .none => false
  | .divZero => false
  | .intrFault => false
  | .timer => false
  | .keybd => false
  | _ => true

theorem isSynchronous_iff (c : IntCode) :
    isSynchronous c = true ↔
      isNotification c = false ∧ c ≠ .none ∧ c ≠ .divZero ∧ c ≠ .intrFault := by
  cases c <;> decide

/-- Where the access is interrupted, it is by one of these. -/
def OnlySynchronous {α : Type} (x : Access α) : Prop :=
  ∀ j, x = raised j → isSynchronous j.code = true

section OnlySynchronous

variable {α β : Type}

@[simp] theorem onlySynchronous_ok (a : α) : OnlySynchronous (.ok a) := fun _ h => by cases h

@[simp] theorem onlySynchronous_refused (r : Refusal) :
    OnlySynchronous (refused r : Access α) := fun _ h => by cases h

@[simp] theorem onlySynchronous_raised {i : Interrupt} :
    OnlySynchronous (raised i : Access α) ↔ isSynchronous i.code = true :=
  ⟨fun h => h i rfl, fun h j hj => by cases hj; exact h⟩

theorem OnlySynchronous.bind {x : Access α} {f : α → Access β} (hx : OnlySynchronous x)
    (hf : ∀ a, OnlySynchronous (f a)) : OnlySynchronous (x.bind f) := fun j hj => by
  rcases bind_eq_raised hj with hj | ⟨a, -, hj⟩
  · exact hx j hj
  · exact hf a j hj

theorem OnlySynchronous.map {x : Access α} (hx : OnlySynchronous x) (f : α → β) :
    OnlySynchronous (x.map f) := fun j hj => hx j (map_eq_raised hj)

theorem OnlySynchronous.privileged {s : State} {x : Access State} (hx : OnlySynchronous x) :
    OnlySynchronous (privileged s x) := by
  cases hs : s.flags.sys
  · rw [privileged_user x hs]
    exact onlySynchronous_raised.mpr rfl
  · rwa [privileged_system x hs]

end OnlySynchronous

section Accesses

variable (s : State)

theorem onlySynchronous_physRead (p : Word) : OnlySynchronous (physRead s p) := by
  cases hp : present s p
  · rw [physRead_absent hp]
    exact onlySynchronous_raised.mpr rfl
  · rw [physRead_present hp]
    exact onlySynchronous_ok _

theorem onlySynchronous_physPut (p : Word) (c : Content) : OnlySynchronous (physPut s p c) := by
  cases hp : present s p
  · rw [physPut_absent c hp]
    exact onlySynchronous_raised.mpr rfl
  · rw [physPut_present c hp]
    exact onlySynchronous_ok _

theorem onlySynchronous_translate (a : Word) : OnlySynchronous (translate s a) := fun j hj => by
  rcases translate_raises hj with h | h | h <;> rw [h] <;> rfl

theorem onlySynchronous_readWord (a : Word) : OnlySynchronous (readWord s a) :=
  (onlySynchronous_translate s a).bind fun p => onlySynchronous_physRead s p

theorem onlySynchronous_writeWord (a v : Word) : OnlySynchronous (writeWord s a v) :=
  (onlySynchronous_translate s a).bind fun p => onlySynchronous_physPut s p _

theorem onlySynchronous_readRun (a : Word) (n : Nat) : OnlySynchronous (readRun s a n) := by
  induction n generalizing a with
  | zero => exact onlySynchronous_ok _
  | succ n ih => exact (onlySynchronous_readWord s a).bind fun _ => (ih (a + 1)).map _

theorem onlySynchronous_operandValue (op : Operand) : OnlySynchronous (operandValue s op) := by
  cases op with
  | imm n => exact onlySynchronous_ok _
  | reg r => exact onlySynchronous_ok _
  | mem r n => exact onlySynchronous_readWord s _
  | memAt n => exact onlySynchronous_readWord s n

theorem onlySynchronous_guardDestination (r : Reg) : OnlySynchronous (guardDestination r) := by
  cases r with
  | pc => exact onlySynchronous_refused _
  | r | sp | fp => exact onlySynchronous_ok _

theorem onlySynchronous_assignOperand (op : Operand) (v : Word) :
    OnlySynchronous (assignOperand s op v) := by
  cases op with
  | imm n => exact onlySynchronous_raised.mpr rfl
  | reg r => exact (onlySynchronous_guardDestination r).map _
  | mem r n => exact onlySynchronous_writeWord s _ v
  | memAt n => exact onlySynchronous_writeWord s n v

theorem onlySynchronous_push (v : Word) : OnlySynchronous (push s v) :=
  (onlySynchronous_writeWord s _ v).map _

theorem onlySynchronous_bitNumber (n : Word) : OnlySynchronous (bitNumber n) := by
  rw [bitNumber]
  split
  · exact onlySynchronous_ok _
  · exact onlySynchronous_refused _

theorem onlySynchronous_guardRange (d : Word) : OnlySynchronous (guardRange d) := by
  rw [guardRange]
  split
  · exact onlySynchronous_ok _
  · exact onlySynchronous_refused _

theorem onlySynchronous_namedSpecial (n : Word) : OnlySynchronous (namedSpecial n) := by
  rw [namedSpecial]
  split
  · exact onlySynchronous_ok _
  · exact onlySynchronous_refused _

theorem onlySynchronous_namedFlag (n : Word) : OnlySynchronous (namedFlag n) := by
  rw [namedFlag]
  split
  · exact onlySynchronous_ok _
  · exact onlySynchronous_refused _

/-- A run of stores fails by the interrupt of one of them. -/
theorem storeAll_failed_synchronous {stores : List (Word × Content)} {i : Interrupt}
    {ws us : List Word} (h : storeAll s ws stores = .failed i us) : isSynchronous i.code = true := by
  induction stores generalizing s ws with
  | nil => cases h
  | cons e rest ih =>
    obtain ⟨a, c⟩ := e
    simp only [storeAll] at h
    split at h
    · next j hj => cases h; exact onlySynchronous_translate s a _ hj
    · cases h
    split at h
    · next j hj => cases h; exact onlySynchronous_physPut s _ c _ hj
    · cases h
    · exact ih _ h

theorem onlySynchronous_enterGate (index gate : Word) :
    OnlySynchronous (enterGate s index gate) := by
  simp only [enterGate]
  split
  · exact onlySynchronous_refused _
  · next hfail => exact onlySynchronous_raised.mpr (storeAll_failed_synchronous _ hfail)
  · exact onlySynchronous_ok _

theorem onlySynchronous_returnFromInterrupt : OnlySynchronous (returnFromInterrupt s) := by
  refine (onlySynchronous_readWord s _).bind fun marker =>
    (onlySynchronous_readWord s _).bind fun oldFlags => ?_
  split
  · exact onlySynchronous_refused _
  · exact (onlySynchronous_readRun s _ _).map _

end Accesses

/-! ### Everything an instruction can come to -/

theorem exec_peri_user {reg : Reg} {op : Operand} {s : State} (hs : s.flags.sys = false) :
    exec (.peri reg op) s = takeInterrupt (interruptAt .privOp s.pc) s := by
  change execPeri reg op s = _
  rw [execPeri, hs, if_neg Bool.false_ne_true]

theorem exec_peri_pc {op : Operand} {s : State} (hs : s.flags.sys = true) :
    exec (.peri .pc op) s = .refused .pcAsDestination := by
  change execPeri .pc op s = _
  rw [execPeri, if_pos hs]
  rfl

theorem exec_peri_refused {reg : Reg} {op : Operand} {s : State} {r : Refusal}
    (hs : s.flags.sys = true) (hreg : reg ≠ .pc) (hop : operandValue s op = refused r) :
    exec (.peri reg op) s = .refused r := by
  change execPeri reg op s = _
  rw [execPeri, if_pos hs, guardDestination_of_ne hreg, bind_ok, hop]
  rfl

theorem exec_peri_effect (reg : Reg) (op : Operand) (s : State) :
    (∃ x, exec (.peri reg op) s = finish s x ∧ OnlySynchronous x) ∨
      (exec (.peri reg op) s = .fault .neverEnds ∧ s.flags.sys = true) := by
  cases hs : s.flags.sys with
  | false => exact .inl ⟨raised _, exec_peri_user hs, onlySynchronous_raised.mpr rfl⟩
  | true =>
    by_cases hreg : reg = .pc
    · subst hreg
      exact .inl ⟨refused _, exec_peri_pc hs, onlySynchronous_refused _⟩
    cases hop : operandValue s op with
    | error e =>
      cases e with
      | raise i =>
        have hsync := onlySynchronous_operandValue s op i hop
        exact .inl ⟨raised i, exec_peri_raised hs hreg hop, onlySynchronous_raised.mpr hsync⟩
      | refuse r => exact .inl ⟨refused r, exec_peri_refused hs hreg hop, onlySynchronous_refused r⟩
    | ok cs =>
      rw [exec_peri hs hreg hop]
      cases operation s cs with
      | done t code => exact .inl ⟨.ok (reportResult reg t code), rfl, onlySynchronous_ok _⟩
      | refused r => exact .inl ⟨refused r, rfl, onlySynchronous_refused r⟩
      | never => exact .inr ⟨rfl, rfl⟩

/-- An instruction completes an effect, is interrupted by a synchronous interrupt or refused; only a PERI can
also run for ever (log 30). -/
theorem exec_effect (i : Instr) (s : State) :
    (∃ x, exec i s = finish s x ∧ OnlySynchronous x) ∨
      (exec i s = .fault .neverEnds ∧ s.flags.sys = true ∧ ∃ reg op, i = .peri reg op) := by
  have value (op : Operand) := onlySynchronous_operandValue s op
  have guard := onlySynchronous_guardDestination
  cases i with
  | peri reg op =>
    exact (exec_peri_effect reg op s).imp id fun ⟨hnever, hs⟩ => ⟨hnever, hs, reg, op, rfl⟩
  | getsr reg op =>
    exact .inl ⟨_, rfl, (guard reg).bind fun _ => (value op).bind fun n =>
      (onlySynchronous_namedSpecial n).map _⟩
  | setsr reg op =>
    exact .inl ⟨_, rfl, .privileged <| (value op).bind fun n =>
      (onlySynchronous_namedSpecial n).map _⟩
  | getfl reg op =>
    exact .inl ⟨_, rfl, (guard reg).bind fun _ => (value op).bind fun n =>
      (onlySynchronous_namedFlag n).map _⟩
  | setfl reg op =>
    refine .inl ⟨_, rfl, (value op).bind fun n => (onlySynchronous_namedFlag n).bind fun f => ?_⟩
    split
    · exact onlySynchronous_raised.mpr rfl
    · exact onlySynchronous_ok _
  | flagsj reg op => exact .inl ⟨_, rfl, .privileged <| (value op).map _⟩
  | sbit reg op | cbit reg op =>
    exact .inl ⟨_, rfl, (guard reg).bind fun _ => (value op).bind fun n =>
      (onlySynchronous_bitNumber n).map _⟩
  | exbr reg op =>
    exact .inl ⟨_, rfl, (guard _).bind fun _ => (value op).bind fun _ =>
      (onlySynchronous_guardRange _).map _⟩
  | exbrv reg op =>
    exact .inl ⟨_, rfl, (guard _).bind fun _ => (value op).bind fun _ =>
      (onlySynchronous_readWord s _).bind fun _ => (onlySynchronous_guardRange _).map _⟩
  | dpbr reg op =>
    exact .inl ⟨_, rfl, (value op).bind fun _ => (onlySynchronous_guardRange _).bind fun _ =>
      (onlySynchronous_assignOperand s op _).map _⟩
  | dpbrv reg op =>
    exact .inl ⟨_, rfl, (value op).bind fun _ => (onlySynchronous_readWord s _).bind fun _ =>
      (onlySynchronous_guardRange _).bind fun _ => (onlySynchronous_writeWord s _ _).map _⟩
  | load reg op => exact .inl ⟨_, rfl, (guard reg).bind fun _ => (value op).map _⟩
  | store reg op => exact .inl ⟨_, rfl, (onlySynchronous_assignOperand s op _).map _⟩
  | inc op =>
    exact .inl ⟨_, rfl, (value op).bind fun _ => (onlySynchronous_assignOperand s op _).map _⟩
  | push op => exact .inl ⟨_, rfl, (value op).bind fun _ => (onlySynchronous_push s _).map _⟩
  | call op => exact .inl ⟨_, rfl, (value op).bind fun _ => (onlySynchronous_push s _).map _⟩
  | ret => exact .inl ⟨_, rfl, ((onlySynchronous_readWord s _).map _).map _⟩
  | comp reg op => exact .inl ⟨_, rfl, (value op).map _⟩
  | compz reg op =>
    refine .inl ⟨_, rfl, OnlySynchronous.map ?_ _⟩
    split
    · exact onlySynchronous_ok _
    · exact value op
  | jcond cond op =>
    refine .inl ⟨_, rfl, ?_⟩
    split
    · exact (value op).map _
    · exact onlySynchronous_ok _
    · exact onlySynchronous_refused _
  | halt =>
    refine .inl ⟨_, rfl, ?_⟩
    split
    · exact onlySynchronous_ok _
    · exact onlySynchronous_raised.mpr rfl
  | syscall op =>
    refine .inl ⟨_, rfl, (value op).bind fun index => ?_⟩
    split
    · exact onlySynchronous_raised.mpr rfl
    · exact (onlySynchronous_readWord s _).bind fun gate => onlySynchronous_enterGate s index gate
  | iret => exact .inl ⟨_, rfl, .privileged (onlySynchronous_returnFromInterrupt s)⟩
  | phload reg op =>
    exact .inl ⟨_, rfl, .privileged <| (guard reg).bind fun _ => (value op).bind fun _ =>
      (onlySynchronous_physRead s _).map _⟩
  | phstore reg op =>
    exact .inl ⟨_, rfl, .privileged <| (value op).bind fun _ => (onlySynchronous_physPut s _ _).map _⟩

theorem exec_next {i : Instr} {s t : State} (h : exec i s = .next t) :
    t.retired = true ∨ ∃ j, isSynchronous j.code = true ∧ takeInterrupt j s = .next t := by
  rcases exec_effect i s with ⟨x, hx, hsync⟩ | ⟨hnever, -⟩
  · rcases finish_next (hx ▸ h) with ⟨u, -, rfl⟩ | ⟨j, hj, htake⟩
    · exact .inl rfl
    · exact .inr ⟨j, hsync j hj, htake⟩
  · cases h.symm.trans hnever

theorem exec_fault {i : Instr} {s : State} {f : Fault} (h : exec i s = .fault f) :
    (∃ j, isSynchronous j.code = true ∧ takeInterrupt j s = .fault f) ∨
      (f = .neverEnds ∧ s.flags.sys = true ∧ ∃ reg op, i = .peri reg op) := by
  rcases exec_effect i s with ⟨x, hx, hsync⟩ | ⟨hnever, hperi⟩
  · obtain ⟨j, hj, htake⟩ := finish_fault (hx ▸ h)
    exact .inl ⟨j, hsync j hj, htake⟩
  · cases h.symm.trans hnever
    exact .inr ⟨rfl, hperi⟩

/-! ### The memory that an entry leaves -/

section PushesReach

variable {s : State} {slot : Fin 21 → Word} (h : PushesReach s slot 21)
include h

theorem PushesReach.enter_entered {c : IntCode} {addr info : Content} {d : Nat} {t : State}
    (he : enter c addr info { s with draws := d } = .entered t) : PushedInto s slot 21 t.mem := by
  obtain ⟨handler, -, -, hentry, hz, -, -⟩ := Machine.enter_entered he
  have hcan : CanEnter s c handler slot := ⟨hentry, hz, h⟩
  obtain ⟨m, hm, hstored⟩ := hcan.enter addr info d
  cases hm.symm.trans he
  exact hstored.pushed

/-- An entry whose frame can be pushed is abandoned before the first push or not at all. -/
theorem PushesReach.enter_invalid {c : IntCode} {addr info : Content} {d : Nat} {t : State}
    (he : enter c addr info { s with draws := d } = .invalid t) : t = { s with draws := d } := by
  cases hentry : vectorEntry { s with draws := d } c with
  | error e =>
    rw [vectorEntry] at hentry
    simp only [Machine.enter, hentry] at he
    cases e with
    | raise j => exact (EntryResult.invalid.inj he).symm
    | refuse r => cases he
  | ok handler =>
    by_cases hz : handler = 0
    · subst hz
      cases (enter_declined hentry).symm.trans he
    · have hcan : CanEnter s c handler slot := ⟨hentry, hz, h⟩
      obtain ⟨m, hm, -⟩ := hcan.enter addr info d
      cases hm.symm.trans he

theorem PushesReach.failEntry_entered {c : IntCode} {addr : Content} {d : Nat} {t : State}
    (he : failEntry c addr { s with draws := d } = .entered t) : PushedInto s slot 21 t.mem := by
  simp only [failEntry] at he
  split at he <;> cases he
  next hentered => exact h.enter_entered hentered

theorem PushesReach.raise_entered {i : Interrupt} {t : State} (hr : raise i s = .entered t) :
    PushedInto s slot 21 t.mem := by
  simp only [raise] at hr
  split at hr
  · split at hr
    · cases hr
    · exact h.failEntry_entered hr
  split at hr
  · next hentered => cases hr; exact h.enter_entered hentered
  · split at hr <;> cases hr
  · next hinvalid =>
    rw [h.enter_invalid hinvalid] at hr
    exact h.failEntry_entered hr
  · cases hr

end PushesReach

/-- Where a push of the frame fails, no entry is made. -/
theorem PushFails.raise_ne_entered {s : State} {slot : Fin 21 → Word} {n : Fin 21}
    (h : PushFails s slot n) (i : Interrupt) (t : State) : Machine.raise i s ≠ .entered t := by
  intro hr
  cases hip : s.flags.ip with
  | true =>
    cases hn : isNotification i.code with
    | true => cases (raise_notification_masked hip hn).symm.trans hr
    | false =>
      obtain ⟨last, hstop⟩ := h.raise (.inl ⟨hip, hn⟩)
      cases hstop.symm.trans hr
  | false =>
    by_cases hzero : vectorEntry s i.code = .ok 0
    · rw [raise_declined hip hzero] at hr
      split at hr <;> cases hr
    · obtain ⟨last, hstop⟩ := h.raise (.inr ⟨hip, hzero⟩)
      cases hstop.symm.trans hr

/-- With translation off the words of a frame are pushed to their own addresses, as far as these exist. -/
theorem pushesReach_plain {s : State} (hvm : s.flags.vm = false) {n : Nat}
    (h : ∀ k : Fin 21, k.val < n → present s (frameAddress s k) = true) :
    PushesReach s (frameAddress s) n :=
  ⟨h, fun m _ _ _ => translate_of_vm_off _ (by simp [hvm])⟩

theorem pushFails_plain {s : State} (hvm : s.flags.vm = false) {n : Fin 21}
    (h : ∀ k : Fin 21, k < n → present s (frameAddress s k) = true)
    (hn : present s (frameAddress s n) = false) : PushFails s (frameAddress s) n where
  reached := pushesReach_plain hvm h
  fails m _ := by
    have habsent : present (duringEntry s m) (frameAddress s n) = false := hn
    exact ⟨_, (readWord_of_vm_off _ (by simp [hvm])).trans (physRead_absent habsent)⟩

/-- With translation off, an entry that is made has found every word of its frame present. -/
theorem pushesReach_of_raise_entered {i : Interrupt} {s t : State} (hvm : s.flags.vm = false)
    (h : raise i s = .entered t) : PushesReach s (frameAddress s) 21 := by
  have hpresent (k : Fin 21) : present s (frameAddress s k) = true := by
    induction k using WellFoundedLT.induction with
    | ind k ih =>
      by_contra habsent
      exact (pushFails_plain hvm ih (Bool.not_eq_true _ ▸ habsent)).raise_ne_entered i t h
  exact pushesReach_plain hvm fun k _ => hpresent k

/-- 60_exceptions.md R229: of memory, an entry changes the words of its frame. -/
theorem raise_entered_memory {i : Interrupt} {s t : State} (h : raise i s = .entered t) :
    (s.flags.vm = false → MemoryOutside s t fun q => ∃ k, q = frameAddress s k) ∧
      ∀ slot, PushesReach s slot 21 → MemoryOutside s t fun q => ∃ k, q = slot k := by
  have hreached : ∀ slot, PushesReach s slot 21 → MemoryOutside s t fun q => ∃ k, q = slot k :=
    fun slot hslot q hq => hslot.raise_entered h q fun k _ he => hq ⟨k, he⟩
  exact ⟨fun hvm => hreached _ (pushesReach_of_raise_entered hvm h), hreached⟩

/-! ### Precision -/

/-- An interrupt that is no notification is entered, or the run does not go on. -/
theorem takeInterrupt_next_entered {i : Interrupt} {s t : State}
    (hn : isNotification i.code = false) (h : takeInterrupt i s = .next t) :
    ∃ u, raise i s = .entered u ∧ t = { u with retired := false } := by
  simp only [takeInterrupt] at h
  split at h <;> cases h
  · next u hu => exact ⟨u, hu, rfl⟩
  · next hdropped => cases hn.symm.trans (raise_dropped hdropped)

/-- Settles O36: an instruction that has not completed is a synchronous interrupt that was entered. -/
theorem interruptsArePrecise : Obligations.InterruptsArePrecise := by
  intro i s t h hretired
  rcases exec_next h with hdone | ⟨j, hsync, htake⟩
  · cases hretired.symm.trans hdone
  obtain ⟨hn, -⟩ := (isSynchronous_iff j.code).mp hsync
  obtain ⟨u, hu, rfl⟩ := takeInterrupt_next_entered hn htake
  obtain ⟨hframe, hpc, -⟩ := raise_entered hu
  have hmemory := raise_entered_memory hu
  refine ⟨?_, ?_, ?_, ?_, ?_, ?_, hpc, ?_, ?_, ?_, hmemory⟩
  all_goals rw [hframe]
  exacts [rfl, ⟨rfl, rfl, rfl, rfl, rfl, rfl⟩, ⟨rfl, rfl, rfl, rfl, rfl⟩, ⟨rfl, rfl, rfl, rfl, rfl⟩]

/-! ### How a step stops -/

/-- What stops a fetch, a decoding or an instruction. -/
theorem runInstruction_fault {dec : Word → Option Instr} {s : State} {f : Fault}
    (h : runInstruction dec s = .fault f) :
    (∃ j, isSynchronous j.code = true ∧ takeInterrupt j s = .fault f) ∨
      (f = .neverEnds ∧ s.flags.sys = true ∧
        ∃ w reg op, fetch s = .ok w ∧ dec w = some (.peri reg op)) := by
  simp only [runInstruction] at h
  split at h
  · exact .inl ⟨_, rfl, h⟩
  split at h
  · next j hj => exact .inl ⟨j, onlySynchronous_readWord s s.pc j hj, h⟩
  · cases h
  next w hw =>
  split at h
  · exact .inl ⟨_, rfl, h⟩
  next i hi =>
  rcases exec_fault h with hj | ⟨rfl, hs, reg, op, rfl⟩
  · exact .inl hj
  · exact .inr ⟨rfl, hs, w, reg, op, hw, hi⟩

/-- What stops the count of the timer: TIMER, on the step from 1 to 0. -/
theorem countDown_fault {s : State} {f : Fault} (h : countDown s = .fault f) :
    s.retired = true ∧ s.timer = 1 ∧
      takeInterrupt (notification .timer) { s with timer := 0 } = .fault f := by
  simp only [countDown] at h
  split at h
  · next hcounts =>
    simp only [Bool.and_eq_true, bne_iff_ne, ne_eq] at hcounts
    obtain ⟨⟨hretired, -⟩, -⟩ := hcounts
    split at h
    · next hzero =>
      have hone : s.timer = 1 := by
        rw [← BitVec.sub_add_cancel s.timer 1, hzero]
        rfl
      rw [hzero] at h
      exact ⟨hretired, hone, h⟩
    · cases h
  · cases h

theorem instructionAndTimer_stops {dec : Word → Option Instr} {s : State} {f : Fault}
    (h : instructionAndTimer dec s = .fault f) :
    runInstruction dec s = .fault f ∨
      ∃ t, runInstruction dec s = .next t ∧ countDown t = .fault f := by
  simp only [instructionAndTimer] at h
  split at h
  · next t ht => exact .inr ⟨t, ht, h⟩
  · next g hg => cases h; exact .inl hg
  · cases h

theorem settle_fault {o : Host.Outcome State Fault Refusal} {f : Fault}
    (h : settle o = .fault f) : o = .fault f := by
  cases o <;> cases h
  rfl

/-- Everything that can stop a step: KEYBD, an instruction, or the timer after it. -/
theorem stepWith_fault {dec : Word → Option Instr} {s : State} {f : Fault}
    (h : stepWith dec s = .fault f) :
    (keyboardSignals (environment s) = true ∧
      takeInterrupt (notification .keybd) (environment s) = .fault f) ∨
    runInstruction dec (environment s) = .fault f ∨
    ∃ t, runInstruction dec (environment s) = .next t ∧ countDown t = .fault f := by
  simp only [stepWith] at h
  split at h
  · cases h
  have hboundary := settle_fault h
  simp only [boundary] at hboundary
  split at hboundary
  · next hkey =>
    split at hboundary
    · cases hboundary
    · exact .inr (instructionAndTimer_stops hboundary)
    · next c a last hstop =>
      exact .inl ⟨hkey, by rw [takeInterrupt_of_stopped hstop]; exact hboundary⟩
    · cases hboundary
  · exact .inr (instructionAndTimer_stops hboundary)

/-- A notification that stops the run was admitted, and not declined. -/
theorem notification_fault {i : Interrupt} {s : State} {f : Fault}
    (hn : isNotification i.code = true) (h : takeInterrupt i s = .fault f) :
    s.flags.ip = false ∧ vectorEntry s i.code ≠ .ok 0 := by
  obtain ⟨a, last, hstop, -⟩ := takeInterrupt_fault h
  have hip : s.flags.ip = false := by
    by_contra hip
    cases (raise_notification_masked (Bool.not_eq_false _ ▸ hip) hn).symm.trans hstop
  refine ⟨hip, fun hzero => ?_⟩
  rw [raise_declined hip hzero, if_pos hn] at hstop
  cases hstop

/-- Settles O37: an instruction's interrupts are synchronous; the other two that a step raises are the
notifications. -/
theorem faultsAreFatalInterrupts : Obligations.FaultsAreFatalInterrupts := by
  refine ⟨fun i s f h => ?instruction, fun dec s e f he h => ?step⟩
  case instruction =>
    rcases exec_fault h with ⟨j, hsync, htake⟩ | hnever
    · obtain ⟨a, last, rfl, hstopped⟩ := takeInterrupt_stoppedIn htake
      exact .inl ⟨j.code, a, last, rfl, hstopped, (isSynchronous_iff j.code).mp hsync⟩
    · exact .inr hnever
  case step =>
    subst he
    rcases stepWith_fault h with ⟨hkey, htake⟩ | hrun | ⟨t, ht, hcount⟩
    · obtain ⟨a, last, rfl, hstopped⟩ := takeInterrupt_stoppedIn htake
      obtain ⟨-, hentry⟩ := notification_fault rfl htake
      exact .inl ⟨.keybd, a, last, rfl, by decide, by decide, by decide, fun _ => hstopped,
        fun _ => ⟨hkey, hentry⟩, fun hc => by cases hc⟩
    · rcases runInstruction_fault hrun with ⟨j, hsync, htake⟩ | hnever
      · obtain ⟨a, last, rfl, hstopped⟩ := takeInterrupt_stoppedIn htake
        obtain ⟨hn, hnone, hdivZero, hintrFault⟩ := (isSynchronous_iff j.code).mp hsync
        have hne {c : IntCode} (hc : isNotification c = true) : j.code ≠ c := fun he => by
          cases hn.symm.trans (he ▸ hc)
        exact .inl ⟨j.code, a, last, rfl, hnone, hdivZero, hintrFault, fun _ => hstopped,
          fun hc => absurd hc (hne rfl), fun hc => absurd hc (hne rfl)⟩
      · exact .inr hnever
    · obtain ⟨hretired, hone, htake⟩ := countDown_fault hcount
      obtain ⟨a, last, rfl, hstopped⟩ := takeInterrupt_stoppedIn htake
      obtain ⟨hip, hentry⟩ := notification_fault rfl htake
      exact .inl ⟨.timer, a, last, rfl, by decide, by decide, by decide, fun hc => absurd rfl hc,
        fun hc => (by cases hc), fun _ => ⟨t, ht, hretired, hone, hip, hentry, hstopped⟩⟩

/-! ### Privileged operations in user mode -/

/-- Settles O31: each of them asks for the mode before it reads an operand, but SETFL, whose operand names the
flag. -/
theorem userModePrivilegedOperations : Obligations.UserModePrivilegedOperations := by
  intro reg op s i hs hi
  rcases hi with rfl | rfl | rfl | rfl | rfl | rfl | ⟨rfl, n, hv, hn⟩
  · exact exec_setsr_user hs
  · exact exec_peri_user hs
  · exact exec_iret_user hs
  · exact exec_phload_user hs
  · exact exec_phstore_user hs
  · exact exec_flagsj_user hs
  · obtain ⟨-, hsetfl⟩ := setflSetsOneFlag reg op s
    obtain ⟨-, hprotected, -⟩ := hsetfl n hv
    rcases hn with rfl | rfl | rfl | rfl
    all_goals exact hprotected (by decide) hs (by decide)

end Sys2Proof.Machine
end

section
/-! PROOFS of the family 60_exceptions.md: what user mode cannot reach (R221, R230, R231, R233). -/

namespace Sys2Proof.Machine

/-! ### The effect of an instruction in user mode -/

/-- What an instruction other than SYSCALL leaves when it completes in user mode: the mode, the protected
flags, the special registers, the system bank and the launch parameters are as they were, and memory differs
in words that the user's own translation reaches. -/
structure UserEffect (s t : State) : Prop where
  mode : t.flags.sys = false
  running : t.flags.r = s.flags.r
  inProgress : t.flags.ip = s.flags.ip
  translated : t.flags.vm = s.flags.vm
  specials : SameSpecials s t
  syssp : t.syssp = s.syssp
  sysfp : t.sysfp = s.sysfp
  params : t.params = s.params
  memory : ∀ q, t.mem.read q ≠ s.mem.read q → ∃ a, translate s a = .ok q

theorem setReg_syssp_user {s : State} (r : Reg) (v : Word) (hs : s.flags.sys = false) :
    (setReg s r v).syssp = s.syssp := by
  cases r <;> simp [setReg, hs]

theorem setReg_sysfp_user {s : State} (r : Reg) (v : Word) (hs : s.flags.sys = false) :
    (setReg s r v).sysfp = s.sysfp := by
  cases r <;> simp [setReg, hs]

namespace UserEffect

variable {s t : State}

theorem refl (hs : s.flags.sys = false) : UserEffect s s :=
  ⟨hs, rfl, rfl, rfl, .refl s, rfl, rfl, rfl, fun _ hq => absurd rfl hq⟩

theorem advance (h : UserEffect s t) : UserEffect s (advance t) :=
  { h with specials := { h.specials with } }

theorem jump (h : UserEffect s t) (a : Word) : UserEffect s (jump t a) :=
  { h with specials := { h.specials with } }

theorem completed (h : UserEffect s t) (b : Bool) : UserEffect s { t with retired := b } :=
  { h with specials := { h.specials with } }

theorem setReg (h : UserEffect s t) (r : Reg) (v : Word) : UserEffect s (setReg t r v) where
  mode := by simpa using h.mode
  running := by simpa using h.running
  inProgress := by simpa using h.inProgress
  translated := by simpa using h.translated
  specials := h.specials.trans ⟨by simp, by simp, by simp, by simp, by simp, by simp⟩
  syssp := (setReg_syssp_user r v h.mode).trans h.syssp
  sysfp := (setReg_sysfp_user r v h.mode).trans h.sysfp
  params := by simpa using h.params
  memory q hq := h.memory q (by simpa using hq)

/-- Z, N and ERR are the user's own flags (10_state.md R31). -/
theorem setFlags (hs : s.flags.sys = false) {f : Flags} (hsys : f.sys = s.flags.sys)
    (hr : f.r = s.flags.r) (hip : f.ip = s.flags.ip) (hvm : f.vm = s.flags.vm) :
    UserEffect s { s with flags := f } :=
  ⟨hsys.trans hs, hr, hip, hvm, ⟨rfl, rfl, rfl, rfl, rfl, rfl⟩, rfl, rfl, rfl,
    fun _ hq => absurd rfl hq⟩

theorem setFlag (hs : s.flags.sys = false) {name : FlagName} (hname : flagProtected name = false)
    (b : Bool) : UserEffect s { s with flags := s.flags.set name b } := by
  cases name with
  | z | n | err => exact setFlags hs rfl rfl rfl rfl
  | r | sys | ip | vm => cases hname

theorem store (hs : s.flags.sys = false) {a p : Word} (ha : translate s a = .ok p) (c : Content) :
    UserEffect s { s with mem := s.mem.put p c } :=
  { refl hs with
    specials := ⟨rfl, rfl, rfl, rfl, rfl, rfl⟩
    memory := fun q hq => by
      by_cases hp : q = p
      · exact ⟨a, hp ▸ ha⟩
      · exact absurd (Memory.read_put_other _ _ hp) hq }

end UserEffect

section Accesses

variable {s : State} (hs : s.flags.sys = false)
include hs

theorem userEffect_writeWord (a v : Word) : OkSatisfies (UserEffect s) (writeWord s a v) :=
  fun t ht => by
    obtain ⟨p, ha, -, rfl⟩ := writeWord_ok ht
    exact .store hs ha _

theorem userEffect_assignOperand (op : Operand) (v : Word) :
    OkSatisfies (UserEffect s) (assignOperand s op v) := fun t ht => by
  rcases assignOperand_ok ht with ⟨r, -, -, rfl⟩ | ⟨a, p, -, ha, -, rfl⟩
  · exact (UserEffect.refl hs).setReg r v
  · exact .store hs ha _

theorem userEffect_push (v : Word) : OkSatisfies (UserEffect s) (push s v) :=
  (userEffect_writeWord hs _ v).andThen fun _ hu => hu.setReg .sp _

/-- A privileged instruction completes nothing in user mode. -/
theorem okSatisfies_privileged_user (P : State → Prop) (x : Access State) :
    OkSatisfies P (privileged s x) := by
  rw [privileged_user x hs]
  exact okSatisfies_raised _

end Accesses

/-- 60_exceptions.md R231: SYSCALL aside, no instruction that completes in user mode reaches more. -/
theorem exec_user_effect {i : Instr} {s : State} (hs : s.flags.sys = false)
    (hi : ∀ op, i ≠ .syscall op) :
    ∃ x, exec i s = finish s x ∧ OkSatisfies (UserEffect s) x := by
  have written (r : Reg) (v : Word) : UserEffect s (advance (setReg s r v)) :=
    ((UserEffect.refl hs).setReg r v).advance
  cases i with
  | getsr | getfl | sbit | cbit | exbr =>
    exact ⟨_, rfl, .bind fun _ => .bind fun _ => .map fun _ => written _ _⟩
  | exbrv => exact ⟨_, rfl, .bind fun _ => .bind fun _ => .bind fun _ => .map fun _ => written _ _⟩
  | load => exact ⟨_, rfl, .bind fun _ => .map fun _ => written _ _⟩
  | setsr | flagsj | iret | phload | phstore => exact ⟨_, rfl, okSatisfies_privileged_user hs _ _⟩
  | peri => exact ⟨raised _, exec_peri_user hs, okSatisfies_raised _⟩
  | setfl reg op =>
    refine ⟨_, rfl, .bind fun n => .bind fun name => ?_⟩
    cases hname : flagProtected name with
    | true => simp [hs]
    | false => simpa [hs] using (UserEffect.setFlag hs hname _).advance
  | dpbr =>
    exact ⟨_, rfl, .bind fun _ => .bind fun _ =>
      (userEffect_assignOperand hs _ _).andThen fun _ hu => hu.advance⟩
  | dpbrv =>
    exact ⟨_, rfl, .bind fun _ => .bind fun _ => .bind fun _ =>
      (userEffect_writeWord hs _ _).andThen fun _ hu => hu.advance⟩
  | store => exact ⟨_, rfl, (userEffect_assignOperand hs _ _).andThen fun _ hu => hu.advance⟩
  | inc =>
    exact ⟨_, rfl, .bind fun _ =>
      (userEffect_assignOperand hs _ _).andThen fun _ hu => hu.advance⟩
  | push => exact ⟨_, rfl, .bind fun _ => (userEffect_push hs _).andThen fun _ hu => hu.advance⟩
  | call =>
    exact ⟨_, rfl, .bind fun target => (userEffect_push hs _).andThen fun _ hu => hu.jump target⟩
  | ret => exact ⟨_, exec_ret, .map fun v => ((UserEffect.refl hs).setReg .sp _).jump v⟩
  | comp | compz =>
    exact ⟨_, rfl, .map fun _ => UserEffect.advance (.setFlags hs rfl rfl rfl rfl)⟩
  | jcond =>
    refine ⟨_, rfl, ?_⟩
    split
    · exact .map fun target => (UserEffect.refl hs).jump target
    · exact okSatisfies_ok.mpr (UserEffect.refl hs).advance
    · exact okSatisfies_refused _
  | halt => exact ⟨raised _, exec_halt_user hs, okSatisfies_raised _⟩
  | syscall op => exact absurd rfl (hi op)

theorem exec_user_next {i : Instr} {s t : State} (hs : s.flags.sys = false)
    (hi : ∀ op, i ≠ .syscall op) (h : exec i s = .next t) :
    UserEffect s t ∨ ∃ j, takeInterrupt j s = .next t := by
  obtain ⟨x, hx, heffect⟩ := exec_user_effect hs hi
  rcases finish_next (hx ▸ h) with ⟨u, hu, rfl⟩ | ⟨j, -, htake⟩
  · exact .inl ((heffect u hu).completed true)
  · exact .inr ⟨j, htake⟩

theorem takeInterrupt_next_retired {i : Interrupt} {s t : State}
    (h : takeInterrupt i s = .next t) : t.retired = false := by
  rcases takeInterrupt_next h with ⟨-, rfl⟩ | ⟨ht, -, -⟩
  · rfl
  · rw [ht]

/-- Settles O59: what has completed is a `UserEffect`. -/
theorem userStoresReachOnlyUserPages : Obligations.UserStoresReachOnlyUserPages := by
  intro i s t q hs h hretired hi hq
  rcases exec_user_next hs hi h with heffect | ⟨j, htake⟩
  · exact heffect.memory q hq
  · cases hretired.symm.trans (takeInterrupt_next_retired htake)

/-! ### SYSCALL -/

/-- What a gate that is entered leaves: memory, SYS and perhaps IP, SYSSP, PC and the counter of free values
have changed, nothing else. -/
theorem enterGate_ok {s t : State} {index gate : Word} (h : enterGate s index gate = .ok t) :
    ∃ m sp d, t = { systemView s s.params.syscallSetsIP with
      mem := m, syssp := sp, pc := gate, draws := d } := by
  simp only [enterGate] at h
  split at h <;> cases h
  next u ws hu =>
    rw [storeAll_frame _ _ _ _ _ hu]
    exact ⟨_, _, _, rfl⟩

/-- A SYSCALL that goes on has entered the gate that its index names, or was interrupted. -/
theorem exec_syscall_next {op : Operand} {s t : State} (h : exec (.syscall op) s = .next t) :
    (∃ index gate u, operandValue s op = .ok index ∧ 0 ≤ signed index ∧
      signed index < signed s.cglen ∧ readWord s (s.cgbr + index) = .ok gate ∧
      enterGate s index gate = .ok u ∧ t = { u with retired := true }) ∨
    ∃ j, takeInterrupt j s = .next t := by
  rw [exec_syscall] at h
  rcases finish_next h with ⟨u, hu, rfl⟩ | ⟨j, -, htake⟩
  · obtain ⟨index, hindex, hu⟩ := bind_eq_ok hu
    split at hu
    · cases hu
    next hgood =>
    obtain ⟨gate, hgate, henter⟩ := bind_eq_ok hu
    obtain ⟨hlow, hhigh⟩ := not_or.mp hgood
    exact .inl ⟨index, gate, u, hindex, Int.not_lt.mp hlow, Int.not_le.mp hhigh, hgate, henter, rfl⟩
  · exact .inr ⟨j, htake⟩

/-- Settles O60: an instruction other than SYSCALL that completes leaves user mode on. -/
theorem systemModeOnlyByEntry : Obligations.SystemModeOnlyByEntry := by
  intro i s t hs h hsys
  have entered {j : Interrupt} (htake : takeInterrupt j s = .next t) :
      t.retired = false ∧ t.flags.ip = true ∧ t.syssp = s.syssp - 21 := by
    rcases takeInterrupt_next htake with ⟨-, rfl⟩ | ⟨ht, -, -⟩
    · cases hs.symm.trans hsys
    · rw [ht]
      exact ⟨rfl, rfl, rfl⟩
  by_cases hi : ∀ op, i ≠ .syscall op
  · rcases exec_user_next hs hi h with heffect | ⟨j, htake⟩
    · cases heffect.mode.symm.trans hsys
    · exact .inl (entered htake)
  · push Not at hi
    obtain ⟨op, rfl⟩ := hi
    rcases exec_syscall_next h with
      ⟨index, gate, u, hindex, hlow, hhigh, hgate, henter, rfl⟩ | ⟨j, htake⟩
    · obtain ⟨m, sp, d, rfl⟩ := enterGate_ok henter
      exact .inr ⟨op, index, rfl, hindex, hgate, hhigh, hlow⟩
    · exact .inl (entered htake)

/-! ### A step from user mode -/

/-- From `s` to `t` nothing has changed that user mode may not change: the system's special registers, discs,
tapes, screen and launch parameters, and, unless system mode has been entered, the protected flags and the
system bank. -/
structure SystemStateKept (s t : State) : Prop where
  pdbr : t.pdbr = s.pdbr
  intvec : t.intvec = s.intvec
  cgbr : t.cgbr = s.cgbr
  cglen : t.cglen = s.cglen
  debug : t.debug = s.debug
  discs : t.discs = s.discs
  tapes : t.tapes = s.tapes
  screen : t.screen = s.screen
  params : t.params = s.params
  user : t.flags.sys = false → s.flags.sys = false ∧ t.flags.r = s.flags.r ∧
    t.flags.ip = s.flags.ip ∧ t.flags.vm = s.flags.vm ∧ t.syssp = s.syssp ∧ t.sysfp = s.sysfp

namespace SystemStateKept

variable {s t u : State}

theorem refl (s : State) : SystemStateKept s s :=
  ⟨rfl, rfl, rfl, rfl, rfl, rfl, rfl, rfl, rfl, fun hs => ⟨hs, rfl, rfl, rfl, rfl, rfl⟩⟩

theorem trans (h : SystemStateKept s t) (k : SystemStateKept t u) : SystemStateKept s u where
  pdbr := Eq.trans k.pdbr h.pdbr
  intvec := Eq.trans k.intvec h.intvec
  cgbr := Eq.trans k.cgbr h.cgbr
  cglen := Eq.trans k.cglen h.cglen
  debug := Eq.trans k.debug h.debug
  discs := Eq.trans k.discs h.discs
  tapes := Eq.trans k.tapes h.tapes
  screen := Eq.trans k.screen h.screen
  params := Eq.trans k.params h.params
  user hu := by
    obtain ⟨ht, hr, hip, hvm, hsp, hfp⟩ := k.user hu
    obtain ⟨hs, hr', hip', hvm', hsp', hfp'⟩ := h.user ht
    exact ⟨hs, hr.trans hr', hip.trans hip', hvm.trans hvm', hsp.trans hsp', hfp.trans hfp'⟩

theorem retired (h : SystemStateKept s t) (b : Bool) : SystemStateKept s { t with retired := b } :=
  { h with }

theorem timer (s : State) (v : Word) : SystemStateKept s { s with timer := v } :=
  { refl s with }

theorem environment (s : State) : SystemStateKept s (environment s) := by
  rw [environment_frame]
  exact { refl s with }

theorem raise {i : Interrupt} (h : raise i s = .entered t) : SystemStateKept s t := by
  rw [(raise_entered h).1]
  exact ⟨rfl, rfl, rfl, rfl, rfl, rfl, rfl, rfl, rfl, fun hsys => by cases hsys⟩

theorem takeInterrupt {i : Interrupt} (h : takeInterrupt i s = .next t) : SystemStateKept s t := by
  rcases takeInterrupt_next h with ⟨-, rfl⟩ | ⟨ht, -, -⟩
  · exact (refl s).retired false
  · rw [ht]
    exact ⟨rfl, rfl, rfl, rfl, rfl, rfl, rfl, rfl, rfl, fun hsys => by cases hsys⟩

theorem countDown (h : countDown s = .next t) : SystemStateKept s t := by
  rcases countDown_next h with rfl | ⟨-, -, -, rfl | htake⟩
  · exact refl t
  · exact timer s _
  · exact (timer s _).trans (takeInterrupt htake)

theorem of_userEffect (hs : s.flags.sys = false) (h : UserEffect s t) (hdevices : SameDevices s t) :
    SystemStateKept s t where
  pdbr := h.specials.pdbr
  intvec := h.specials.intvec
  cgbr := h.specials.cgbr
  cglen := h.specials.cglen
  debug := h.specials.debug
  discs := hdevices.discs
  tapes := hdevices.tapes
  screen := hdevices.screen
  params := h.params
  user _ := ⟨hs, h.running, h.inProgress, h.translated, h.syssp, h.sysfp⟩

/-- 60_exceptions.md R230, R231: every instruction, from user mode. -/
theorem exec {i : Instr} (hs : s.flags.sys = false) (h : exec i s = .next t) :
    SystemStateKept s t := by
  by_cases hi : ∀ op, i ≠ .syscall op
  · rcases exec_user_next hs hi h with heffect | ⟨j, htake⟩
    · by_cases hperi : ∀ reg op, i ≠ .peri reg op
      · exact of_userEffect hs heffect (sameDevices_exec hperi h)
      · push Not at hperi
        obtain ⟨reg, op, rfl⟩ := hperi
        exact takeInterrupt ((exec_peri_user hs).symm.trans h)
    · exact takeInterrupt htake
  · push Not at hi
    obtain ⟨op, rfl⟩ := hi
    rcases exec_syscall_next h with ⟨index, gate, u, -, -, -, -, henter, rfl⟩ | ⟨j, htake⟩
    · obtain ⟨m, sp, d, rfl⟩ := enterGate_ok henter
      exact ⟨rfl, rfl, rfl, rfl, rfl, rfl, rfl, rfl, rfl, fun hsys => by cases hsys⟩
    · exact takeInterrupt htake

theorem runInstruction {dec : Word → Option Instr} (hs : s.flags.sys = false)
    (h : runInstruction dec s = .next t) : SystemStateKept s t := by
  rcases runInstruction_next h with ⟨i, hi⟩ | ⟨w, i, -, -, hi⟩
  · exact takeInterrupt hi
  · exact exec hs hi

/-- The environment, KEYBD, the instruction and the timer, one after another. -/
theorem stepWith {dec : Word → Option Instr} (hs : s.flags.sys = false)
    (h : stepWith dec s = .next t) : SystemStateKept s t := by
  have henv := environment s
  have hmode : (Machine.environment s).flags.sys = false := by rw [environment_frame]; exact hs
  rcases stepWith_next h with ⟨-, rfl⟩ | ⟨u, rfl, hu | ⟨v, hv, hu⟩⟩
  · exact refl t
  · exact (henv.trans (raise hu)).retired false
  · exact (henv.trans ((runInstruction hmode hv).trans (countDown hu))).retired false

end SystemStateKept

/-- Settles O58: every part of a step from user mode keeps the system's state. -/
theorem userStepKeepsSystemState : Obligations.UserStepKeepsSystemState := by
  intro dec s t hs h
  have hkept := SystemStateKept.stepWith hs h
  refine ⟨hkept.pdbr, hkept.intvec, hkept.cgbr, hkept.cglen, hkept.debug, hkept.discs, hkept.tapes,
    hkept.screen, hkept.params, fun ht => ?_⟩
  obtain ⟨-, hprotected⟩ := hkept.user ht
  exact hprotected

end Sys2Proof.Machine
end

section
/-! PROOFS of the family 60_exceptions.md: the step, its order and the timer (R223 to R226, R236). -/

namespace Sys2Proof.Machine

/-! ### The step, part by part -/

section Step

variable {dec : Word → Option Instr} {s : State}

theorem stepWith_running (hr : s.flags.r = true) :
    stepWith dec s = settle (boundary dec (environment s)) := by
  rw [stepWith, hr, if_neg (by decide)]

theorem settle_of_not_retired (h : s.retired = false) : settle (.next s) = .next s := by
  rw [settle, ← h]

/-- R223, step 1, where no key interrupts. -/
theorem boundary_noKey (h : keyboardSignals s = false) :
    boundary dec s = instructionAndTimer dec s := by
  rw [boundary, h, if_neg Bool.false_ne_true]

theorem instructionAndTimer_next {t : State} (h : runInstruction dec s = .next t) :
    instructionAndTimer dec s = countDown t := by rw [instructionAndTimer, h]

theorem instructionAndTimer_fault {f : Fault} (h : runInstruction dec s = .fault f) :
    instructionAndTimer dec s = .fault f := by rw [instructionAndTimer, h]

theorem instructionAndTimer_refused {r : Refusal} (h : runInstruction dec s = .refused r) :
    instructionAndTimer dec s = .refused r := by rw [instructionAndTimer, h]

/-- R226: the debug trap comes before the fetch. -/
theorem runInstruction_debug (h : s.pc = s.debug) :
    runInstruction dec s = takeInterrupt (interruptAt .debug s.pc) s := by
  rw [runInstruction, if_pos h]

theorem runInstruction_decoded {w : Word} {i : Instr} (hpc : s.pc ≠ s.debug)
    (hw : fetch s = .ok w) (hi : dec w = some i) : runInstruction dec s = exec i s := by
  simp only [runInstruction, if_neg hpc, hw, hi]

theorem runInstruction_undecoded {w : Word} (hpc : s.pc ≠ s.debug) (hw : fetch s = .ok w)
    (hi : dec w = none) :
    runInstruction dec s = takeInterrupt (interruptAt .unimpOp s.pc) s := by
  simp only [runInstruction, if_neg hpc, hw, hi]

theorem runInstruction_unfetched {i : Interrupt} (hpc : s.pc ≠ s.debug)
    (hw : fetch s = raised i) : runInstruction dec s = takeInterrupt i s := by
  simp only [runInstruction, if_neg hpc, hw, raised]

end Step

/-- Settles O52: without a key and off DEBUG, the step is the instruction and then the timer. -/
theorem stepRunsDecodedInstruction : Obligations.StepRunsDecodedInstruction := by
  intro dec s e hr he hkey hpc
  subst he
  have hstep : stepWith dec s = settle (instructionAndTimer dec (environment s)) := by
    rw [stepWith_running hr, boundary_noKey hkey]
  rw [hstep]
  refine ⟨rfl, fun w i hw hi => ?decoded, fun w t hw hi ht => ?undecoded, fun i t hw ht => ?unfetched⟩
  case decoded =>
    have hrun := runInstruction_decoded hpc hw hi
    refine ⟨fun t ht => ?_, fun f hf => ?_, fun r hf => ?_⟩
    · rw [instructionAndTimer_next (hrun.trans ht)]
    · rw [instructionAndTimer_fault (hrun.trans hf)]
      rfl
    · rw [instructionAndTimer_refused (hrun.trans hf)]
      rfl
  case undecoded => rw [instructionAndTimer_next ((runInstruction_undecoded hpc hw hi).trans ht)]
  case unfetched => rw [instructionAndTimer_next ((runInstruction_unfetched hpc hw).trans ht)]

/-! ### The count of the timer -/

section CountDown

variable {t : State}

/-- R224, D19, log 13: what is not counted. -/
theorem countDown_idle (h : t.retired = false ∨ t.flags.r = false ∨ t.timer = 0) :
    countDown t = .next t := by
  have hidle : (t.retired && t.flags.r && t.timer != 0) = false := by
    rcases h with h | h | h <;> simp [h]
  rw [countDown, hidle, if_neg Bool.false_ne_true]

variable (hretired : t.retired = true) (hr : t.flags.r = true)
include hretired hr

theorem countDown_counts (hz : t.timer ≠ 0) :
    countDown t = if t.timer - 1 = 0
      then takeInterrupt (notification .timer) { t with timer := t.timer - 1 }
      else .next { t with timer := t.timer - 1 } := by
  have hcounts : (t.retired && t.flags.r && t.timer != 0) = true := by
    rw [hretired, hr, bne_iff_ne.mpr hz]
    rfl
  rw [countDown, if_pos hcounts]

theorem countDown_above (h : 1 < t.timer.toNat) :
    countDown t = .next { t with timer := t.timer - 1 } ∧
      (t.timer - 1).toNat + 1 = t.timer.toNat := by
  have hminus : (t.timer - 1).toNat = t.timer.toNat - 1 := sub_ofNat_toNat (n := 1) (by omega)
  have hz : t.timer ≠ 0 := fun he => by simp [he] at h
  have hone : t.timer - 1 ≠ 0 := fun he => by
    have hzero : t.timer.toNat - 1 = 0 := by rw [← hminus, he]; rfl
    omega
  exact ⟨by rw [countDown_counts hretired hr hz, if_neg hone], by omega⟩

theorem countDown_one (h : t.timer = 1) :
    countDown t = takeInterrupt (notification .timer) { t with timer := 0 } := by
  have hz : t.timer ≠ 0 := by rw [h]; decide
  have hzero : t.timer - 1 = 0 := by rw [h]; rfl
  rw [countDown_counts hretired hr hz, if_pos hzero, hzero]

end CountDown

/-- Settles O53, by what TIMER holds. -/
theorem timerCountsCompletedInstructions : Obligations.TimerCountsCompletedInstructions := by
  intro t
  refine ⟨fun hretired hr habove => ?above, fun hretired hr hone hip => ?masked,
    fun handler slot hretired hr hone hip hcan => ?interrupts, countDown_idle⟩
  case above =>
    obtain ⟨hcount, hminus⟩ := countDown_above hretired hr habove
    exact ⟨_, hcount, hminus, ⟨rfl, rfl, rfl, rfl, rfl⟩, rfl, rfl, rfl⟩
  case masked =>
    rw [countDown_one hretired hr hone]
    exact ⟨_, takeInterrupt_of_dropped (raise_notification_masked hip rfl), rfl,
      ⟨rfl, rfl, rfl, rfl, rfl⟩, rfl, rfl, rfl⟩
  case interrupts =>
    rw [countDown_one hretired hr hone]
    have hcan : CanEnter { t with timer := 0 } .timer handler slot :=
      ⟨hcan.entryIs, hcan.handled, ⟨hcan.stack.present, hcan.stack.maps⟩⟩
    obtain ⟨hentered, -, -⟩ := interruptEntersHandler (notification .timer) { t with timer := 0 } slot
    obtain ⟨u, htake, hu, -, -⟩ := hentered handler hip hcan
    exact ⟨u, htake, hu⟩

/-! ### KEYBD and DEBUG -/

/-- Settles O54: KEYBD is entered at the boundary; DEBUG in place of the fetch, and the timer does not count
it. -/
theorem keyboardAndDebugInterruptBeforeFetch : Obligations.KeyboardAndDebugInterruptBeforeFetch := by
  intro dec s e handler slot hr he hip
  subst he
  rw [stepWith_running hr]
  refine ⟨fun hrunning hkeys hcan => ?keyboard, fun hkey hpc hcan => ?debugTrap⟩
  case keyboard =>
    have hsignals : keyboardSignals (environment s) = true := by
      simp [keyboardSignals, hip, hrunning, hkeys]
    obtain ⟨m, hraise, hstored⟩ := raise_canEnter (i := notification .keybd) hip hcan
    refine ⟨_, ?_, hstored.handlerEntered ((environment s).draws + 2) handler⟩
    rw [boundary, hsignals, if_pos rfl, hraise]
    rfl
  case debugTrap =>
    obtain ⟨hentered, -, -⟩ :=
      interruptEntersHandler (interruptAt .debug (environment s).pc) (environment s) slot
    obtain ⟨t, htake, ht, haddr, -⟩ := hentered handler hip hcan
    have hretired := takeInterrupt_next_retired htake
    refine ⟨t, ?_, ht, (haddr _ rfl).trans hpc⟩
    rw [boundary_noKey hkey, instructionAndTimer_next ((runInstruction_debug hpc).trans htake),
      countDown_idle (.inl hretired), settle_of_not_retired hretired]

/-! ### The halted machine -/

theorem coreRun_succ_of_next {M : Host.Core} {s t : M.State} (k : Nat) (h : M.step s = .next t) :
    M.run (k + 1) s = M.run k t := by rw [Host.Core.run, h]

/-- Settles O55, by induction on the number of steps: each is `stepWith_halted`. -/
theorem haltedIsFinal : Obligations.HaltedIsFinal := by
  intro k s hs
  have hstep : Sys2Proof.core.step s = .next s := stepWith_halted decode hs
  induction k with
  | zero => rfl
  | succ k ih => exact (coreRun_succ_of_next k hstep).trans ih

end Sys2Proof.Machine
end

section
/-! The values the machine starts with (10_state.md R38, 70_reset_and_hazards.md R240). -/

namespace Sys2Proof.Machine

/-- System mode, interrupts ignored, translation off and the CPU running (R240). -/
theorem reset_flags :
    State.reset.flags =
      { r := true, z := false, n := false, err := false, sys := true, ip := true, vm := false } := rfl

/-- No tape unit is loaded at start-up (R38). -/
theorem reset_tapes_unloaded (i : Fin 8) : State.reset.tapes[i] = none :=
  Vector.getElem_replicate i.isLt

/-- The keyboard buffer is empty at start-up (92_eei_decisions.md D20, log 39). -/
theorem reset_keyboard_empty : State.reset.keyboard = [] := rfl

/-- Settles O1: the flags, the tape units and the keyboard buffer of `State.reset`, each by its own lemma. -/
theorem startUpValues : Obligations.StartUpValues := by
  refine ⟨?sys, ?ip, ?vm, ?r, reset_tapes_unloaded, reset_keyboard_empty⟩ <;> rw [reset_flags]

end Sys2Proof.Machine
end

section
/-! PC as the register that an instruction writes (91_not_in_source.md N6, log 19). There are two ways to the
refusal: a main or role register is guarded before the operand is read, and an operand that is itself a register
is guarded when it is assigned. -/

namespace Sys2Proof.Machine

/-! ### The two guards -/

/-- What stands behind the guard is not reached, so that the refusal does not depend on the operand. -/
theorem finish_guardDestination_pc (s : State) (effect : Unit → Access State) :
    finish s ((guardDestination .pc).bind effect) = .refused .pcAsDestination := by
  rw [guardDestination_pc, bind_refused, finish_refused]

theorem assignOperand_pc (s : State) (v : Word) :
    assignOperand s (.reg .pc) v = refused .pcAsDestination := by
  rw [assignOperand, guardDestination_pc, map_refused]

theorem finish_assignOperand_pc (s : State) (v : Word) :
    finish s ((assignOperand s (.reg .pc) v).map advance) = .refused .pcAsDestination := by
  rw [assignOperand_pc, map_refused, finish_refused]

/-! ### The instructions, by the guard they meet -/

section Instructions

variable {s : State} {reg : Reg} {op : Operand}

theorem exec_getfl_pc : exec (.getfl .pc op) s = .refused .pcAsDestination := by
  change execGetfl .pc op s = _
  rw [execGetfl, finish_guardDestination_pc]

theorem exec_sbit_pc : exec (.sbit .pc op) s = .refused .pcAsDestination := by
  change execSbit .pc op s = _
  rw [execSbit, finish_guardDestination_pc]

theorem exec_cbit_pc : exec (.cbit .pc op) s = .refused .pcAsDestination := by
  change execCbit .pc op s = _
  rw [execCbit, finish_guardDestination_pc]

theorem exec_exbr_pc (hdest : roleReg reg s.params.exbrRoles.result = .pc) :
    exec (.exbr reg op) s = .refused .pcAsDestination := by
  change execExbr reg op s = _
  rw [execExbr, hdest]
  exact finish_guardDestination_pc s _

theorem exec_exbrv_pc (hdest : roleReg reg s.params.exbrvRoles.result = .pc) :
    exec (.exbrv reg op) s = .refused .pcAsDestination := by
  change execExbrv reg op s = _
  rw [execExbrv, hdest]
  exact finish_guardDestination_pc s _

/-- PHLOAD's mode is looked at before its destination (60_exceptions.md R231). -/
theorem exec_phload_pc (hs : s.flags.sys = true) :
    exec (.phload .pc op) s = .refused .pcAsDestination := by
  change execPhload .pc op s = _
  rw [execPhload, privileged_system _ hs, finish_guardDestination_pc]

theorem exec_store_pc : exec (.store reg (.reg .pc)) s = .refused .pcAsDestination := by
  rw [exec_store, finish_assignOperand_pc]

/-- INC reads PC, as any register; it is the writing back that is refused. -/
theorem exec_inc_pc : exec (.inc (.reg .pc)) s = .refused .pcAsDestination := by
  rw [exec_inc, operandValue, bind_ok, finish_assignOperand_pc]

/-- A range past bit 31 would be refused first (log 21). -/
theorem exec_dpbr_pc {d : Word} (hd : getReg s (roleReg reg s.params.dpbrRoles.descriptor) = d)
    (hfits : rangeRight d + rangeLength d ≤ 32) :
    exec (.dpbr reg (.reg .pc)) s = .refused .pcAsDestination := by
  rw [exec_dpbr, operandValue, bind_ok, depositInto_of_le _ _ hd hfits, finish_assignOperand_pc]

end Instructions

/-- Settles O32: each instruction by its own lemma above or, for GETSR, LOAD and PERI, by the one that stands
with the instruction's other laws. -/
theorem pcIsNoDestination : Obligations.PcIsNoDestination := fun _ _ _ =>
  ⟨exec_getsr_pc, exec_getfl_pc, exec_sbit_pc, exec_cbit_pc, exec_load_pc, exec_store_pc, exec_inc_pc,
    exec_exbr_pc, exec_exbrv_pc, fun _ => exec_dpbr_pc, fun hs => ⟨exec_phload_pc hs, exec_peri_pc hs⟩⟩

end Sys2Proof.Machine
end
